-- ==== Sys2Proof/Word.lean ====
section
/-! DEFINITION. The word and byte types of the block, and complex samples made of two words. -/

namespace Sys2Proof

/-- A 32-bit word: every sample, twiddle word, register and command word (R7, R13, R70). -/
abbrev Word := BitVec 32

/-- One byte of a word, as a byte-addressed host sees it (R52). -/
abbrev Byte := BitVec 8

/-- `s32(v)`: the word read as a signed two's-complement integer (R13). -/
abbrev s32 (v : Word) : Int := v.toInt

/-- `u32(v)`: the word read as an unsigned integer (R13). -/
abbrev u32 (v : Word) : Nat := v.toNat

/-- A complex sample: its real and its imaginary word (R45). -/
structure Cx where
  re : Word
  im : Word
  deriving DecidableEq, Repr

/-- The four complex values of one butterfly, in slot order 0, 1, 2, 3 (R18, R101). -/
structure Quad where
  s0 : Cx
  s1 : Cx
  s2 : Cx
  s3 : Cx
  deriving DecidableEq, Repr

end Sys2Proof
end

