-- ==== Sys2Proof/Config.lean ====
section
/-! DEFINITION. What an implementation fixes: the constants of this hardware, the parameters the spec
leaves OPEN (a record of plain data that State carries, so that a statement about every state is a
statement about every value of them), and the free values, which nothing in Lean can evaluate. -/

namespace Sys2Proof

namespace Config

/-- `M = TWID_NATIVE_LEN`, the native twiddle resolution of this hardware (R8). -/
def twidNativeLen : Nat := 4096

/-- The number of entries of the twiddle ROM, `3*M/4` (R10, R37). -/
def twiddleEntries : Nat := 3 * twidNativeLen / 4

/-- FREE VALUE (assumption 3). The word the spec calls "unspecified (any 32-bit word)", one for every
position of the counter `State.freeCount` (R161, R162, R172, R173). No proof can see what it is. -/
opaque freeWord : Nat → Word

/-- FREE VALUE (assumption 4). What `TwRead` gives outside its domain `0 <= k < 3*M/4`, where the spec
defines nothing (R49); R50 says that no rule forms such an index. -/
opaque freeTwiddle : Nat → Word × Word

end Config

/-- The structure of the saturating inverse last stage, `INV_LAST_SAT` (R12, R122). -/
inductive SatMode where
  | pairwise
  | exact
  deriving DecidableEq, Repr

/-- `TWIDDLE_ROM` (R10, R37): the reference contents of decision D5, or any other table, entry `k` at
place `k` of the list. -/
inductive TwiddleRom where
  | reference
  | table (entries : List (Word × Word))
  deriving DecidableEq, Repr

/-- The parameters a model takes as arguments (R10, R12), in the ranges of `Params.wf`. `ENGINE_COUNT` is the
number of register blocks; `M` and `HOST_BYTE_ORDER` are fixed for this hardware. -/
structure Params where
  /-- `MEM_WORDS`: the number of words of the data memory. -/
  memWords : Nat
  /-- `INV_LAST_SAT`. -/
  invLastSat : SatMode
  /-- `TWIDDLE_ROM`. -/
  twiddleRom : TwiddleRom
  /-- `REG_BLOCK_BASE(e)`, a host byte address for each engine `e`, in order. -/
  regBlockBase : List Nat
  /-- The host byte address of data-memory word 0. -/
  memHostBase : Nat
  deriving DecidableEq, Repr

namespace Params

/-- The values `State.reset` takes: those of the spec's test vectors where it names them (DESIGN CHOICE,
assumption 1). -/
def default : Params where
  memWords := 0x10000
  invLastSat := .pairwise
  twiddleRom := .reference
  regBlockBase := [0x80000000]
  memHostBase := 0

/-- The twiddle ROM has its `3*M/4` entries (R37). -/
def romSizeOk (p : Params) : Bool :=
  match p.twiddleRom with
  | .reference => true
  | .table entries => entries.length == Config.twiddleEntries

/-- `ENGINE_COUNT`: each engine has a register block of its own (R12, R23, R169). -/
def engineCount (p : Params) : Nat := p.regBlockBase.length

/-- The parameters lie in their ranges: `1 <= MEM_WORDS <= 2^32` and `ENGINE_COUNT >= 1` (R12); the register
blocks, 64 bytes each (assumption 10), overlap neither one another nor the data memory (R57); and the ROM has
its size (R37). No alignment is asked of a host base (DESIGN CHOICE, assumption 17). -/
abbrev wf (p : Params) : Prop :=
  1 ≤ p.memWords ∧ p.memWords ≤ 2 ^ 32 ∧ 1 ≤ p.engineCount
    ∧ p.regBlockBase.Pairwise (fun a b => a + 64 ≤ b ∨ b + 64 ≤ a)
    ∧ (∀ base ∈ p.regBlockBase, base + 64 ≤ p.memHostBase ∨ p.memHostBase + 4 * p.memWords ≤ base)
    ∧ p.romSizeOk = true

end Params

end Sys2Proof
end

