-- ==== Sys2Proof/Syntax.lean ====
section
/-! DEFINITION. The command set `R4FFT-CMD`: one constructor for each row of the opcode map (R76). -/

namespace Sys2Proof

/-- The direction of a butterfly chain (R4, R41). -/
inductive Dir where
  | fwd
  | inv
  deriving DecidableEq, Repr

/-- The nine commands (R76). `INIT` carries its two flag bits (R73), a middle stage its stage number (R74). -/
inductive Instr where
  | init (ifft bitrev : Bool)
  | transform
  | stage1Fwd
  | stage1Inv
  | middleFwd (stage : Nat)
  | middleInv (stage : Nat)
  | lastFwd
  | lastInv
  | bitrev
  deriving DecidableEq, Repr

/-- The commands that touch the buffer (R42): every command but `INIT`. -/
def Instr.touchesBuffer : Instr → Bool
  | .init _ _ => false
  | .transform => true
  | .stage1Fwd => true
  | .stage1Inv => true
  | .middleFwd _ => true
  | .middleInv _ => true
  | .lastFwd => true
  | .lastInv => true
  | .bitrev => true

/-- The stage number that the stage check of R153 looks at: only the middle stages have one. -/
def Instr.stageOperand : Instr → Option Nat
  | .init _ _ => none
  | .transform => none
  | .stage1Fwd => none
  | .stage1Inv => none
  | .middleFwd s => some s
  | .middleInv s => some s
  | .lastFwd => none
  | .lastInv => none
  | .bitrev => none

end Sys2Proof
end

