-- ==== Sys2Proof/WellFormed.lean ====
section
/-! DEFINITION. Which commands have an encoding. -/

namespace Sys2Proof

/-- A command is well formed when its operands fit their fields: `STAGE` is an unsigned stage number
0 to 15 (R74). Its legal range `1 .. L-2` is checked when the command executes, not here. -/
def Instr.wf : Instr → Bool
  | .init _ _ => true
  | .transform => true
  | .stage1Fwd => true
  | .stage1Inv => true
  | .middleFwd s => decide (s < 16)
  | .middleInv s => decide (s < 16)
  | .lastFwd => true
  | .lastInv => true
  | .bitrev => true

end Sys2Proof
end

