-- ==== Sys2Proof/Decode.lean ====
section
/-! DEFINITION. Decoding a command word, and after it the encoder. A command is one 32-bit word written
to `CMD` (R70); it is never stored in a memory (R64), so decoding takes the word and not bytes. -/

namespace Sys2Proof

/-- Why a word encodes no command. -/
inductive Illegal where
  /-- `OPC` is 0x0 or 0xA to 0xF (R78). -/
  | reservedOpcode
  /-- A bit outside the free bits of the opcode's row is set (R77). -/
  | reservedBits
  deriving DecidableEq, Repr

/-- The opcodes of the rows of the opcode map (R76), without operands. -/
inductive Opcode where
  | init
  | transform
  | stage1Fwd
  | stage1Inv
  | middleFwd
  | middleInv
  | lastFwd
  | lastInv
  | bitrev
  deriving DecidableEq, Repr

/-- The rows of the opcode map in the map's order (R76). -/
def Opcode.all : List Opcode :=
  [.init, .transform, .stage1Fwd, .stage1Inv, .middleFwd, .middleInv, .lastFwd, .lastInv, .bitrev]

/-- The column `match` of R76. -/
def Opcode.pattern : Opcode → Word
  | .init => 0x00000001#32
  | .transform => 0x00000002#32
  | .stage1Fwd => 0x00000003#32
  | .stage1Inv => 0x00000004#32
  | .middleFwd => 0x00000005#32
  | .middleInv => 0x00000006#32
  | .lastFwd => 0x00000007#32
  | .lastInv => 0x00000008#32
  | .bitrev => 0x00000009#32

/-- The column `mask` of R76. -/
def Opcode.mask : Opcode → Word
  | .init => 0xFFFFFFCF#32
  | .transform => 0xFFFFFFFF#32
  | .stage1Fwd => 0xFFFFFFFF#32
  | .stage1Inv => 0xFFFFFFFF#32
  | .middleFwd => 0xFFFFF0FF#32
  | .middleInv => 0xFFFFF0FF#32
  | .lastFwd => 0xFFFFFFFF#32
  | .lastInv => 0xFFFFFFFF#32
  | .bitrev => 0xFFFFFFFF#32

/-- `OPC = cmd[3:0]` (R72). -/
def fieldOpc (w : Word) : Nat := w.toNat % 16

/-- The flag `I = cmd[4]` of `INIT` (R73). -/
def fieldIfft (w : Word) : Bool := w.getLsbD 4

/-- The flag `B = cmd[5]` of `INIT` (R73). -/
def fieldBitrev (w : Word) : Bool := w.getLsbD 5

/-- `s = zext(cmd[11:8])` (R74). -/
def fieldStage (w : Word) : Nat := w.toNat / 256 % 16

/-- The command of a row, its operands taken from the word (R72 to R75). -/
def Opcode.build : Opcode → Word → Instr
  | .init, w => .init (fieldIfft w) (fieldBitrev w)
  | .transform, _ => .transform
  | .stage1Fwd, _ => .stage1Fwd
  | .stage1Inv, _ => .stage1Inv
  | .middleFwd, w => .middleFwd (fieldStage w)
  | .middleInv, w => .middleInv (fieldStage w)
  | .lastFwd, _ => .lastFwd
  | .lastInv, _ => .lastInv
  | .bitrev, _ => .bitrev

/-- A word encodes a row's command exactly when `(w & mask) == match` (R76). -/
def Opcode.encodes (o : Opcode) (w : Word) : Bool := w &&& o.mask == o.pattern

/-- Decoding is total (R80): a command, or the reason why the word is illegal. -/
def decode (w : Word) : Except Illegal Instr :=
  match Opcode.all.find? (fun o => o.encodes w) with
  | some o => .ok (o.build w)
  | none =>
    if 1 ≤ fieldOpc w ∧ fieldOpc w ≤ 9 then .error .reservedBits else .error .reservedOpcode

/-- The word of a flag set at bit `n`. -/
def flagBit (b : Bool) (n : Nat) : Word := if b then 1#32 <<< n else 0#32

/-- The word of a well-formed command, from the fields of R71 and the opcodes of R76. -/
def encode : Instr → Word
  | .init i b => 0x00000001#32 ||| flagBit i 4 ||| flagBit b 5
  | .transform => 0x00000002#32
  | .stage1Fwd => 0x00000003#32
  | .stage1Inv => 0x00000004#32
  | .middleFwd s => 0x00000005#32 ||| BitVec.ofNat 32 s <<< 8
  | .middleInv s => 0x00000006#32 ||| BitVec.ofNat 32 s <<< 8
  | .lastFwd => 0x00000007#32
  | .lastInv => 0x00000008#32
  | .bitrev => 0x00000009#32

/-- The command word whose bits are the low `nbits` bits of `w`, every bit above them 0. -/
def tableWord (nbits w : Nat) : Word := BitVec.ofNat 32 (w % 2 ^ nbits)

/-- What the decoder reads from an instruction of the opcode table. -/
def decodeTableWord (nbits w : Nat) : Option Instr :=
  match decode (tableWord nbits w) with
  | .ok i => some i
  | .error _ => none

/-- `INIT` of the word 0x00000031, its bits written out from R71: both flags. -/
theorem decode_init : decode 0b00000000000000000000000000110001#32 = .ok (.init true true) := by decide
/-- `INIT bitrev` sets `B`, bit 5, and not `I` (R82: 0x00000021). -/
theorem decode_init_bitrev : decode 0x00000021#32 = .ok (.init false true) := by decide
theorem decode_transform : decode 0b00000000000000000000000000000010#32 = .ok .transform := by decide
theorem decode_stage1Fwd : decode 0b00000000000000000000000000000011#32 = .ok .stage1Fwd := by decide
theorem decode_stage1Inv : decode 0b00000000000000000000000000000100#32 = .ok .stage1Inv := by decide
/-- `STAGE` is bits 11 to 8 (R71): `MIDDLE_FWD 13` is 0x00000D05. -/
theorem decode_middleFwd : decode 0b00000000000000000000110100000101#32 = .ok (.middleFwd 13) := by decide
theorem decode_middleInv : decode 0b00000000000000000000001000000110#32 = .ok (.middleInv 2) := by decide
theorem decode_lastFwd : decode 0b00000000000000000000000000000111#32 = .ok .lastFwd := by decide
theorem decode_lastInv : decode 0b00000000000000000000000000001000#32 = .ok .lastInv := by decide
theorem decode_bitrev : decode 0b00000000000000000000000000001001#32 = .ok .bitrev := by decide

end Sys2Proof
end

