-- ==== Sys2Proof/Machine/FixedPoint.lean ====
section
/-! DEFINITION. The fixed-point arithmetic shared by all stages (40_fixed_point.md). Each primitive
computes on unbounded integers and narrows at the end, as the rules write it. -/

namespace Sys2Proof.Machine

open Sys2Proof

/-- `wrap32(v)`: the word congruent to `v` modulo `2^32` (R86). -/
def wrap32 (v : Int) : Word := BitVec.ofInt 32 v

/-- `add32(a, b) = wrap32(a + b)` (R87). -/
def add32 (a b : Word) : Word := wrap32 (s32 a + s32 b)

/-- `sub32(a, b) = wrap32(a - b)` (R87). -/
def sub32 (a b : Word) : Word := wrap32 (s32 a - s32 b)

/-- `asr(a, n) = floor(a / 2^n)` (R88): `Int` division by a positive divisor rounds down. -/
def asr (a : Word) (n : Nat) : Word := wrap32 (s32 a / 2 ^ n)

/-- `shl(a, 1) = wrap32(2 * a)` (R89). -/
def shl1 (a : Word) : Word := wrap32 (2 * s32 a)

/-- `mulhi(a, b) = floor(a * b / 2^32)` (R90). -/
def mulhi (a b : Word) : Word := wrap32 (s32 a * s32 b / 2 ^ 32)

/-- `sat32(v) = min(max(v, -2^31), 2^31 - 1)` (R91). -/
def sat32 (v : Int) : Word := wrap32 (min (max v (-2147483648)) 2147483647)

/-- The saturating add of the inverse last stage (R91, R122). -/
def satAdd (a b : Word) : Word := sat32 (s32 a + s32 b)

/-- The saturating subtract of the inverse last stage (R91, R122). -/
def satSub (a b : Word) : Word := sat32 (s32 a - s32 b)

/-- `rotF`: the rotation by `e^{-jθ}`, each product halved and floored (R93). -/
def rotF (v : Cx) (tw : Word × Word) : Cx :=
  { re := add32 (mulhi v.re tw.1) (mulhi v.im tw.2)
    im := sub32 (mulhi v.im tw.1) (mulhi v.re tw.2) }

/-- `rotI`: the rotation by `e^{+jθ}` (R94). -/
def rotI (v : Cx) (tw : Word × Word) : Cx :=
  { re := sub32 (mulhi v.re tw.1) (mulhi v.im tw.2)
    im := add32 (mulhi v.im tw.1) (mulhi v.re tw.2) }

/-- The rotation of a direction (R101). -/
def rot (dir : Dir) (v : Cx) (tw : Word × Word) : Cx :=
  match dir with
  | .fwd => rotF v tw
  | .inv => rotI v tw

/-- The four wrapping combinations of R95: `SUM`, `ALT`, `QF` and `QI`, in that order. -/
structure Combos where
  sum : Cx
  alt : Cx
  qf : Cx
  qi : Cx
  deriving DecidableEq, Repr

/-- The partial sums and combinations of R95 for the inputs `a, b, c, d` in slots 0 to 3. -/
def combos (v : Quad) : Combos :=
  let r1 := add32 v.s0.re v.s2.re
  let r2 := sub32 v.s0.re v.s2.re
  let s1 := add32 v.s0.im v.s2.im
  let s2 := sub32 v.s0.im v.s2.im
  let t1 := add32 v.s1.re v.s3.re
  let t2 := add32 v.s1.im v.s3.im
  let u1 := sub32 v.s1.re v.s3.re
  let u2 := sub32 v.s1.im v.s3.im
  { sum := { re := add32 r1 t1, im := add32 s1 t2 }
    alt := { re := sub32 r1 t1, im := sub32 s1 t2 }
    qf := { re := add32 r2 u2, im := sub32 s2 u1 }
    qi := { re := sub32 r2 u2, im := add32 s2 u1 } }

/-- The first cross combination: `QF` forward, `QI` inverse (R95, R101). -/
def Combos.first (dir : Dir) (c : Combos) : Cx :=
  match dir with
  | .fwd => c.qf
  | .inv => c.qi

/-- The second cross combination: `QI` forward, `QF` inverse (R95, R101). -/
def Combos.second (dir : Dir) (c : Combos) : Cx :=
  match dir with
  | .fwd => c.qi
  | .inv => c.qf

/-- Apply a word operation to both parts of a sample. -/
def mapCx (f : Word → Word) (v : Cx) : Cx := { re := f v.re, im := f v.im }

/-- Apply a word operation to all eight words of a butterfly. -/
def mapQuad (f : Word → Word) (v : Quad) : Quad :=
  { s0 := mapCx f v.s0, s1 := mapCx f v.s1, s2 := mapCx f v.s2, s3 := mapCx f v.s3 }

/-- The rotated combinations in slot order, before any output shift: the sum unrotated, the alternating
combination by twiddle `2k`, the first cross combination by `k`, the second by `3k` (R101, R111). -/
def rotated (tw : Nat → Word × Word) (dir : Dir) (k : Nat) (c : Combos) : Quad :=
  { s0 := c.sum
    s1 := rot dir c.alt (tw (2 * k))
    s2 := rot dir (c.first dir) (tw k)
    s3 := rot dir (c.second dir) (tw (3 * k)) }

end Sys2Proof.Machine
end

