-- ==== Sys2Proof/Machine/Twiddle.lean ====
section
/-! DEFINITION. The twiddle ROM: the reference contents of decision D5, and `TwRead`. -/

namespace Sys2Proof.Machine

open Sys2Proof

/-- The denominator `2^64` of the numbers the reference words are computed with. -/
def twiddleScale : Nat := 18446744073709551616

/-- `2*pi` in units of `2^-64`. -/
def twoPiScaled : Nat := 115904311329233965478

/-- The alternating series `t - t*x^2/(n(n+1)) + …` in units of `2^-64`, `terms` terms of it. -/
def alternating (x2 : Nat) : Nat → Nat → Nat → Nat
  | 0, _, _ => 0
  | terms + 1, t, n =>
    t - alternating x2 terms (t * x2 / twiddleScale / (n * (n + 1))) (n + 2)

/-- The angle `2*pi*j/M` in units of `2^-64`. -/
def angleScaled (j : Nat) : Nat := twoPiScaled * j / Config.twidNativeLen

/-- `x * 2^31` rounded half up, for `x` in units of `2^-64`; half up is half away from zero here, as `x` is not negative. -/
def roundQ31 (x : Nat) : Nat := (2 * x * 2 ^ 31 + twiddleScale) / (2 * twiddleScale)

/-- `round(cos(2*pi*j/M) * 2^31)` for an angle of at most one eighth of a turn. -/
def cosOctant (j : Nat) : Nat :=
  let x := angleScaled j
  roundQ31 (alternating (x * x / twiddleScale) 11 twiddleScale 1)

/-- `round(sin(2*pi*j/M) * 2^31)` for an angle of at most one eighth of a turn. -/
def sinOctant (j : Nat) : Nat :=
  let x := angleScaled j
  roundQ31 (alternating (x * x / twiddleScale) 11 x 2)

/-- Rounded cosine and sine of `2*pi*r/M` in the first quarter turn, `0 <= r < M/4`. -/
def quarterTurn (r : Nat) : Nat × Nat :=
  if r ≤ 512 then (cosOctant r, sinOctant r) else (sinOctant (1024 - r), cosOctant (1024 - r))

/-- The reference entry `(TWC[k], TWS[k])` of decision D5: `q31` of cosine and sine of `2*pi*k/M`
(DEDUCED, assumption 11). -/
def referenceTwiddle (k : Nat) : Word × Word :=
  let q := quarterTurn (k % 1024)
  let c : Int := q.1
  let s : Int := q.2
  match k / 1024 with
  | 0 => (sat32 c, sat32 s)
  | 1 => (sat32 (-s), sat32 c)
  | _ => (sat32 (-c), sat32 (-s))

/-- `TwRead(k)` (R49); outside its domain a free value (assumption 4). -/
def readTwiddle (rom : TwiddleRom) (k : Nat) : Word × Word :=
  match rom with
  | .reference => if k < Config.twiddleEntries then referenceTwiddle k else Config.freeTwiddle k
  | .table entries =>
    match entries[k]? with
    | some pair => pair
    | none => Config.freeTwiddle k

end Sys2Proof.Machine
end

