-- ==== Sys2Proof/Machine/State.lean ====
section
/-! DEFINITION. The state of the machine as plain data, the reasons a step can stop, and the state after
power-up. Registers that R25 and R29 make of fields are kept field by field; `Machine/Flags.lean` gives
the words a host reads. -/

namespace Sys2Proof.Machine

open Sys2Proof

/-- Why the machine stops. Each is a stop the spec itself names (stuck or terminal fault) or an access
to an address that does not exist; stopping is safe for all of them. -/
inductive Fault where
  /-- `FAULT(UNWRITTEN_READ, e, a)`: the completion step of engine `engine` read data-memory word `word`,
  which no agent has written since power-up (R46, R163). Raised by every engine read. Safe. -/
  | unwrittenRead (engine word : Nat)
  /-- A command is executed although the engine holds no latched command: the completion step is
  "enabled iff e.PENDING != none" (R151). Raised by every command; no `step` reaches it (assumption 6). Safe. -/
  | notEnabled
  /-- The index is not one of the `ENGINE_COUNT` engines (R19, R169). Raised by host accesses and
  resets (assumption 12). Safe. -/
  | noSuchEngine (engine : Nat)
  /-- A register access that is not one whole aligned word: "the model gives it no step, and a host that
  attempts it is stuck" (R34). Raised by a host bus access to a register block. Safe. -/
  | registerAccessShape (addr width : Nat)
  /-- A host access to a data-memory word outside `0 .. MEM_WORDS-1` (R39, R57). Raised by host
  memory accesses (assumption 12). Safe. -/
  | noSuchWord (word : Nat)
  /-- A host bus access to the data memory that does not lie within one word (assumption 10). Safe. -/
  | memoryAccessShape (addr width : Nat)
  /-- A host bus address that is neither in a register block nor in the data memory (R57, assumption 12). Safe. -/
  | unmapped (addr : Nat)
  deriving DecidableEq, Repr

/-- Why an instruction has no meaning here. -/
inductive Refusal where
  /-- Raised by an arm of `exec` that has no meaning yet: none is left. Safe. -/
  | notModelled (mnemonic : String)
  deriving DecidableEq, Repr

/-- The result codes of R152; the reserved codes 6 to 15 are never produced, so they are no constructors. -/
inductive ResultCode where
  | ok
  | unsupportedLength
  | illegalCommand
  | notInitialized
  | badStage
  | badBuffer
  deriving DecidableEq, Repr

/-- The latched command `(cmd, base, req)` (R36). -/
structure Pending where
  cmd : Word
  base : Word
  req : Word
  deriving DecidableEq, Repr

/-- A stage-entry event of the trace (R41). -/
inductive TraceEvent where
  | s1 (dir : Dir) (modifier : Nat)
  | mid (dir : Dir) (stage : Nat) (modifier : Nat)
  | last (dir : Dir)
  | br
  deriving DecidableEq, Repr

/-- A pending consequence of R161: the words `[lo, hi)` shared with the owned range of engine `partner`
hold unspecified values once both commands have completed; `partnerDone` says the partner's has. -/
structure Overlap where
  partner : Nat
  lo : Nat
  hi : Nat
  partnerDone : Bool
  deriving DecidableEq, Repr

/-- One engine: its register block (R23 to R33), its latched command (R36), its trace (R41), and the
consequences of hazards that wait for its completion (R161, R162). `BUSY` is `pending.isSome` (R36). -/
structure Engine where
  /-- `STATUS.INIT_VALID` (R25). -/
  initValid : Bool
  /-- `STATUS.RESULT` (R25). -/
  result : ResultCode
  /-- `STATUS.ERR_STICKY` (R25). -/
  errSticky : Bool
  /-- `STATUS.HAZARD` (R25). -/
  hazard : Bool
  /-- `BUF_BASE` (R26). -/
  bufBase : Word
  /-- `REQ_LEN` (R27). -/
  reqLen : Word
  /-- `FFT_LEN` (R28). -/
  fftLen : Word
  /-- `DESC_FLAGS.IFFT` (R29). -/
  ifft : Bool
  /-- `DESC_FLAGS.BITREV` (R29). -/
  bitrev : Bool
  /-- `TWID_MOD` (R30). -/
  twidMod : Word
  /-- `BITREV_MOD` (R31). -/
  bitrevMod : Word
  /-- `ONEBYFFTLEN` (R32). -/
  oneByFftLen : Word
  /-- `PENDING` (R36). -/
  pending : Option Pending
  /-- The trace, oldest event first (R41). -/
  trace : List TraceEvent
  /-- Another agent has written a word of the owned range since the command was accepted (R162). DEDUCED,
  assumption 7. -/
  spoilt : Bool
  /-- The overlaps with other busy engines found so far (R161). DEDUCED, assumption 7. -/
  overlaps : List Overlap
  deriving DecidableEq, Repr

/-- The reset value of every piece of one engine's state (R43, R171). -/
def Engine.reset : Engine where
  initValid := false
  result := .ok
  errSticky := false
  hazard := false
  bufBase := 0
  reqLen := 0
  fftLen := 0
  ifft := false
  bitrev := false
  twidMod := 0
  bitrevMod := 0
  oneByFftLen := 0
  pending := none
  trace := []
  spoilt := false
  overlaps := []

/-- The registers of a register block by name (R23); `reserved` stands for every offset 0x9 to 0xF. -/
inductive RegName where
  | cmd
  | status
  | bufBase
  | reqLen
  | fftLen
  | descFlags
  | twidMod
  | bitrevMod
  | oneByFftLen
  | reserved
  deriving DecidableEq, Repr

/-- The moves of the agents (R19, R83): what a host does, the completion step of an engine (R151), and
the platform's reset of an engine (R171). -/
inductive Action where
  /-- `SET reg, value` (R83): a host write of a register of engine `engine`. -/
  | set (engine : Nat) (reg : RegName) (value : Word)
  /-- `GET reg` (R83): a host read of a register. -/
  | get (engine : Nat) (reg : RegName)
  /-- `MEMW addr, value` (R83): a host write of a data-memory word. -/
  | memw (word : Nat) (value : Word)
  /-- `MEMR addr` (R83): a host read of a data-memory word. -/
  | memr (word : Nat)
  /-- `WAIT` (R83): `GET STATUS` until `BUSY = 0`. -/
  | wait (engine : Nat)
  /-- A host write of `width` bytes at a host byte address (R52, R57). -/
  | busWrite (addr width : Nat) (value : Word)
  /-- A host read of `width` bytes at a host byte address (R52, R57). -/
  | busRead (addr width : Nat)
  /-- The completion step of an engine (R151). -/
  | complete (engine : Nat)
  /-- A reset of one engine by the platform (R171, R172). -/
  | reset (engine : Nat)
  deriving DecidableEq, Repr

/-- The machine. -/
structure State where
  /-- The parameters a model takes (R10, R12); no step changes them. -/
  params : Params
  /-- The engines `0 .. ENGINE_COUNT-1` (R19), as many as register blocks in every state of `State.Inv`. -/
  engines : List Engine
  /-- The data memory (R39) in bytes: word `a` is bytes `4*a .. 4*a+3` (R52); only bytes some agent has
  written are listed, by rising address. -/
  mem : List Host.Cell
  /-- The engine whose completion step runs; the model's own field, set by `step` before `exec`. DESIGN
  CHOICE, assumption 5. -/
  active : Nat
  /-- The moves still to come, next first: the interleaving of R60, given from outside. The model's own
  field. DESIGN CHOICE, assumptions 2 and 5. -/
  schedule : List Action
  /-- The word the last host read returned. The model's own field. DESIGN CHOICE, assumption 5. -/
  hostData : Word
  /-- The number of free words used so far. The model's own field. DESIGN CHOICE, assumption 3. -/
  freeCount : Nat
  deriving DecidableEq, Repr

/-- The machine at power-up for given parameters: every engine reset (R43), no data-memory word written (R173). -/
def State.powerUp (params : Params) : State where
  params := params
  engines := List.replicate params.engineCount Engine.reset
  mem := []
  active := 0
  schedule := []
  hostData := 0
  freeCount := 0

/-- The machine right after reset, with one engine and the parameters of the spec's test vectors (DESIGN
CHOICE, assumption 1). -/
def State.reset : State := State.powerUp Params.default

end Sys2Proof.Machine
end

