-- ==== Sys2Proof/Machine/Flags.lean ====
section
/-! DEFINITION. The only flags of the block are the `STATUS` bits (R44): the words a host reads of them
and of the descriptor flags, and how a completion and a hazard set them. -/

namespace Sys2Proof.Machine

open Sys2Proof

/-- The four-bit code of a result (R152). -/
def ResultCode.code : ResultCode → BitVec 4
  | .ok => 0
  | .unsupportedLength => 1
  | .illegalCommand => 2
  | .notInitialized => 3
  | .badStage => 4
  | .badBuffer => 5

/-- `STATUS.BUSY`: 1 exactly when `PENDING != none` (R36). -/
def Engine.busy (g : Engine) : Bool := g.pending.isSome

/-- `STATUS` as a host reads it (R25): bits 3:2 and 31:10 read 0. -/
def Engine.statusWord (g : Engine) : Word :=
  BitVec.ofNat 32 (g.initValid.toNat + 2 * g.busy.toNat + 16 * g.result.code.toNat
    + 256 * g.errSticky.toNat + 512 * g.hazard.toNat)

/-- `DESC_FLAGS` as a host reads it (R29): bits 31:2 read 0. -/
def Engine.descFlagsWord (g : Engine) : Word :=
  BitVec.ofNat 32 (g.ifft.toNat + 2 * g.bitrev.toNat)

/-- What a completion writes to the engine itself: `RESULT`, `ERR_STICKY`, and `PENDING <- none` (R151). -/
def Engine.finish (r : ResultCode) (g : Engine) : Engine :=
  { g with
    result := r
    errSticky := g.errSticky || (r != .ok)
    pending := none
    spoilt := false
    overlaps := [] }

/-- A protocol violation sets `HAZARD`, which only a reset clears (R25, R159, R160). -/
def Engine.setHazard (g : Engine) : Engine := { g with hazard := true }

/-- An access of another agent to the owned range: `HAZARD`, and after a write the range is spoilt (R162). -/
def Engine.intruded (isWrite : Bool) (g : Engine) : Engine :=
  { g with hazard := true, spoilt := g.spoilt || isWrite }

end Sys2Proof.Machine
end

