-- ==== Sys2Proof/Machine/Operands.lean ====
section
/-! DEFINITION. The operand forms of the commands: supported lengths, stage geometry, where the parts of
a sample lie, twiddle modifiers, and the bit-reversed index. -/

namespace Sys2Proof.Machine

open Sys2Proof

/-- `log2 n` for a power of 2. -/
def log2 (n : Nat) : Nat := Nat.log2 n

/-- `log4 n` for a power of 4 (R9). -/
def log4 (n : Nat) : Nat := log2 n / 2

/-- `SUPPORTED(M) = { 4^L : L >= 2 and 4^L <= M }` (R9). -/
def supportedLengths : List Nat :=
  (List.range' 2 (log4 Config.twidNativeLen - 1)).map (fun l => 4 ^ l)

/-- Membership in `SUPPORTED(M)`: the validation of `INIT` (R137, R138). -/
def supported (n : Nat) : Bool := supportedLengths.contains n

/-- The word address of the real part of complex sample `i` of a buffer at `base` (R45). -/
def reAddr (base i : Nat) : Nat := base + 2 * i

/-- The word address of the imaginary part of complex sample `i` of a buffer at `base` (R45). -/
def imAddr (base i : Nat) : Nat := base + 2 * i + 1

/-- The modifier in force at stage `s`, `mod_s = TWID_MOD * 4^s` (R55). -/
def modifierAt (twidMod s : Nat) : Nat := twidMod * 4 ^ s

/-- `for i in [lo, hi) step`: the values of a stepped loop, in order (R110). -/
def stepRange (lo hi step : Nat) : List Nat :=
  (List.range ((hi - lo + step - 1) / step)).map (fun m => lo + m * step)

/-- `rev_b(i)`: bit `t` of the result is bit `b-1-t` of `i`, computed directly (R131; assumption 14). -/
def revBits : Nat → Nat → Nat
  | 0, _ => 0
  | b + 1, i => i % 2 * 2 ^ b + revBits b (i / 2)

/-- The four sample indices of one butterfly, in slot order (R18). -/
structure Slots where
  i0 : Nat
  i1 : Nat
  i2 : Nat
  i3 : Nat
  deriving DecidableEq, Repr

/-- Four slots `gap` apart, from sample `i0` on. -/
def spaced (i0 gap : Nat) : Slots :=
  { i0 := i0, i1 := i0 + gap, i2 := i0 + 2 * gap, i3 := i0 + 3 * gap }

/-- One butterfly of a stage: its slots and its base twiddle index. -/
structure Place where
  slots : Slots
  base : Nat
  deriving DecidableEq, Repr

/-- The butterflies of Stage-1 in loop order (R100). -/
def stage1Places (n twidMod : Nat) : List Place :=
  (List.range (n / 4)).map (fun g => { slots := spaced g (n / 4), base := g * modifierAt twidMod 0 })

/-- The butterflies of middle stage `s` in loop order (R110): block size `n1 = N / 4^s`, `n2 = n1 / 4`. -/
def middlePlaces (n twidMod s : Nat) : List Place :=
  (List.range (n / 4 ^ s / 4)).flatMap (fun j =>
    (stepRange j n (n / 4 ^ s)).map (fun i0 =>
      { slots := spaced i0 (n / 4 ^ s / 4), base := j * modifierAt twidMod s }))

/-- The groups of the last stage in loop order (R120); the last stage reads no twiddle, so its index is 0. -/
def lastPlaces (n : Nat) : List Place :=
  (List.range (n / 4)).map (fun g => { slots := spaced (4 * g) 1, base := 0 })

/-- The swaps of the bit-reversal pass in loop order: the pairs `i < rev_b(i)` (R130, R132). -/
def swapPairs (n : Nat) : List (Nat × Nat) :=
  ((List.range n).map (fun i => (i, revBits (log2 n) i))).filter (fun p => decide (p.1 < p.2))

/-- The integer bits, sign included, of an output word of a transform of length `n` (R97). -/
def outputIntegerBits (n : Nat) : Nat := 1 + log2 n

/-- The fraction bits of an output word of a transform of length `n` (R97). -/
def outputFractionBits (n : Nat) : Nat := 31 - log2 n

end Sys2Proof.Machine
end

