-- ==== Sys2Proof/Machine/Ops.lean ====
section
/-! DEFINITION. The named operations over memory and engines: byte and word access, buffer ownership and
the hazards it brings, the checks before a command, and the completion that ends every command. -/

namespace Sys2Proof.Machine

open Sys2Proof

/-- The data memory as listed bytes (R39, R52). -/
abbrev Memory := List Host.Cell

/-- The canonical form: addresses strictly rising. A byte that is not listed holds no value (R46;
assumption 9), so no listed byte equals what an unlisted address reads as. -/
abbrev Memory.wf (m : Memory) : Prop := m.Pairwise (fun c d => c.1 < d.1)

/-- The byte at a byte address; `none` where no agent has written (R46). -/
def Memory.readByte : Memory → Nat → Option Byte
  | [], _ => none
  | c :: m, b => if c.1 = b then some c.2 else Memory.readByte m b

/-- Write one byte, keeping the canonical form. -/
def Memory.writeByte : Memory → Nat → Byte → Memory
  | [], b, v => [(b, v)]
  | c :: m, b, v =>
    if b < c.1 then (b, v) :: c :: m
    else if c.1 = b then (b, v) :: m
    else c :: Memory.writeByte m b v

/-- Byte `n` of a word: the byte at the `n`-th lowest address (R52, little-endian). -/
def byteOf (v : Word) (n : Nat) : Byte := v.extractLsb' (8 * n) 8

/-- The word of four bytes, the lowest address first (R52). -/
def wordOf (b0 b1 b2 b3 : Byte) : Word := b3 ++ b2 ++ b1 ++ b0

/-- `MemRead(a, 1)` of the memory alone: `none` where a byte of word `a` has never been written (R46). -/
def Memory.readWord (m : Memory) (a : Nat) : Option Word :=
  match Memory.readByte m (4 * a), Memory.readByte m (4 * a + 1),
    Memory.readByte m (4 * a + 2), Memory.readByte m (4 * a + 3) with
  | some b0, some b1, some b2, some b3 => some (wordOf b0 b1 b2 b3)
  | _, _, _, _ => none

/-- `MemWrite(a, 1, v)` of the memory alone (R47). -/
def Memory.writeWord (m : Memory) (a : Nat) (v : Word) : Memory :=
  Memory.writeByte (Memory.writeByte (Memory.writeByte (Memory.writeByte m
    (4 * a) (byteOf v 0)) (4 * a + 1) (byteOf v 1)) (4 * a + 2) (byteOf v 2)) (4 * a + 3) (byteOf v 3)

/-- Change one engine. -/
def State.modifyEngine (e : Nat) (f : Engine → Engine) (s : State) : State :=
  { s with engines := s.engines.modify e f }

/-- The checks of R153 that precede a buffer-touching command's first access, in their order. -/
def Engine.bufferCheck (memWords : Nat) (stage : Option Nat) (base : Word) (g : Engine) : ResultCode :=
  if g.initValid = false then .notInitialized
  else if stage.any (fun s => decide (¬ (1 ≤ s ∧ s ≤ log4 g.fftLen.toNat - 2))) then .badStage
  else if base.toNat + 2 * g.fftLen.toNat > memWords then .badBuffer
  else .ok

/-- The owned word range `OWNED = [base, base + 2*FFT_LEN)` of a busy engine whose command touches the
buffer and passes its checks; `none` is the empty range (R42). -/
def Engine.owned (memWords : Nat) (g : Engine) : Option (Nat × Nat) :=
  match g.pending with
  | none => none
  | some p =>
    match decode p.cmd with
    | .error _ => none
    | .ok i =>
      if i.touchesBuffer ∧ g.bufferCheck memWords i.stageOperand p.base = .ok then
        some (p.base.toNat, p.base.toNat + 2 * g.fftLen.toNat)
      else none

/-- The engine owns data-memory word `a`. -/
def Engine.ownsWord (memWords a : Nat) (g : Engine) : Bool :=
  match g.owned memWords with
  | none => false
  | some r => decide (r.1 ≤ a ∧ a < r.2)

/-- Engine `j` owns word `a` and is not the accessing agent `who`; `none` is a host (R162). -/
def State.foreignOwner (s : State) (who : Option Nat) (a : Nat) (j : Nat) (g : Engine) : Bool :=
  decide (who ≠ some j) && g.ownsWord s.params.memWords a

/-- Some engine other than the accessing agent owns word `a` (R162). -/
def State.foreign (s : State) (who : Option Nat) (a : Nat) : Bool :=
  (s.engines.mapIdx (s.foreignOwner who a)).any id

/-- The hazard of an access to a word another agent owns, on every owner of the word (R162). -/
def State.intrude (who : Option Nat) (a : Nat) (isWrite : Bool) (s : State) : State :=
  { s with
    engines := s.engines.mapIdx (fun j g =>
      if s.foreignOwner who a j g then g.intruded isWrite else g) }

/-- `MemRead(a, 1)` by engine `e`: the word last written (R46), an unspecified word where another engine
owns it (R162), and before both the model fault where nothing was ever written (R163). -/
def State.engineRead (e a : Nat) (s : State) : Except Fault (Word × State) :=
  match Memory.readWord s.mem a with
  | none => .error (.unwrittenRead e a)
  | some v =>
    if s.foreign (some e) a then
      .ok (Config.freeWord s.freeCount,
        { s.intrude (some e) a false with freeCount := s.freeCount + 1 })
    else .ok (v, s)

/-- `MemWrite(a, 1, v)` by engine `e`: it takes effect, and is a hazard where another engine owns the word (R47, R162). -/
def State.engineWrite (e a : Nat) (v : Word) (s : State) : State :=
  let t := if s.foreign (some e) a then s.intrude (some e) a true else s
  { t with mem := Memory.writeWord t.mem a v }

/-- Write an unspecified value, each a fresh free word, to every word of a list (R161, R162, R172). A word no agent
had written counts as written from then on (DESIGN CHOICE, assumption 16). -/
def State.scramble : List Nat → State → State
  | [], s => s
  | a :: rest, s =>
    State.scramble rest
      { s with
        mem := Memory.writeWord s.mem a (Config.freeWord s.freeCount)
        freeCount := s.freeCount + 1 }

/-- The words of the owned range `[lo, hi)` that hold unspecified values once the engine completes: all
of them after a foreign write (R162), else those shared with a command that has completed (R161). -/
def Engine.unspecifiedWords (lo hi : Nat) (g : Engine) : List Nat :=
  (List.range' lo (hi - lo)).filter (fun a =>
    g.spoilt || g.overlaps.any (fun o => o.partnerDone && decide (o.lo ≤ a ∧ a < o.hi)))

/-- The engine learns that the command of engine `e` is over: completed (R161), or abandoned by a reset
(DEDUCED, assumption 8). -/
def Engine.partnerOver (e : Nat) (g : Engine) : Engine :=
  { g with
    overlaps := g.overlaps.map (fun o =>
      if o.partner = e then { o with partnerDone := true } else o) }

/-- `raise <Code>` of a check, or the end of a command that owned nothing: `RESULT`, `ERR_STICKY` and
`PENDING` of the completing engine, and no other effect (R151, R155). -/
def State.raise (r : ResultCode) (s : State) : State :=
  s.modifyEngine s.active (Engine.finish r)

/-- The words left unspecified by the hazards of the command that ran on `[lo, hi)` (R161, R162). -/
def State.settle (lo hi : Nat) (s : State) : State :=
  match s.engines[s.active]? with
  | none => s
  | some g => State.scramble (g.unspecifiedWords lo hi) s

/-- The completion of a command that ran on the owned range `[lo, hi)` with result `OK` (R151). -/
def State.completeOn (lo hi : Nat) (s : State) : State :=
  let t := s.settle lo hi
  { t with
    engines := t.engines.mapIdx (fun j g =>
      if j = t.active then g.finish .ok else g.partnerOver t.active) }

/-- What a command body works with: its engine, the length `N = FFT_LEN`, the latched base, `TWID_MOD`
and the descriptor flags, none of which changes while the command runs (R45, R75, R105). -/
structure Job where
  engine : Nat
  n : Nat
  base : Nat
  twidMod : Nat
  ifft : Bool
  bitrev : Bool
  deriving DecidableEq, Repr

/-- The job of an engine's latched command. -/
def Engine.job (e : Nat) (p : Pending) (g : Engine) : Job :=
  { engine := e, n := g.fftLen.toNat, base := p.base.toNat, twidMod := g.twidMod.toNat,
    ifft := g.ifft, bitrev := g.bitrev }

/-- The active engine and its latched command, if it holds one. -/
def State.latched (s : State) : Option (Engine × Pending) :=
  match s.engines[s.active]? with
  | none => none
  | some g =>
    match g.pending with
    | none => none
    | some p => some (g, p)

/-- `EXEC` and the completion of a buffer-touching command (R151, R153): the checks in their order, then
the body of the command's rule. -/
def State.runBuffer (stage : Option Nat) (body : Job → State → Except Fault State) (s : State) :
    Host.Outcome State Fault Refusal :=
  match s.latched with
  | none => .fault .notEnabled
  | some (g, p) =>
    match g.bufferCheck s.params.memWords stage p.base with
    | .ok =>
      match body (g.job s.active p) s with
      | .error f => .fault f
      | .ok t => .next (t.completeOn p.base.toNat (p.base.toNat + 2 * g.fftLen.toNat))
    | r => .next (s.raise r)

/-- Run a statement for each element of a list, in order, stopping at the first fault (R16). -/
def runEach {α : Type} (f : α → State → Except Fault State) : List α → State → Except Fault State
  | [], s => .ok s
  | x :: rest, s =>
    match f x s with
    | .error r => .error r
    | .ok t => runEach f rest t

/-- `trace.append(ev)` (R41). -/
def State.traceEvent (j : Job) (ev : TraceEvent) (s : State) : State :=
  s.modifyEngine j.engine (fun g => { g with trace := g.trace ++ [ev] })

/-- Read complex sample `i` of the buffer, its real word first (R45, R101). -/
def State.readSample (j : Job) (i : Nat) (s : State) : Except Fault (Cx × State) :=
  match s.engineRead j.engine (reAddr j.base i) with
  | .error f => .error f
  | .ok (x, t) =>
    match t.engineRead j.engine (imAddr j.base i) with
    | .error f => .error f
    | .ok (y, u) => .ok ({ re := x, im := y }, u)

/-- Write complex sample `i` of the buffer, its real word first (R45, R101). -/
def State.writeSample (j : Job) (i : Nat) (v : Cx) (s : State) : State :=
  (s.engineWrite j.engine (reAddr j.base i) v.re).engineWrite j.engine (imAddr j.base i) v.im

/-- Read the four samples of a butterfly in slot order (R101). -/
def State.readQuad (j : Job) (i : Slots) (s : State) : Except Fault (Quad × State) :=
  match s.readSample j i.i0 with
  | .error f => .error f
  | .ok (a, s1) =>
    match s1.readSample j i.i1 with
    | .error f => .error f
    | .ok (b, s2) =>
      match s2.readSample j i.i2 with
      | .error f => .error f
      | .ok (c, s3) =>
        match s3.readSample j i.i3 with
        | .error f => .error f
        | .ok (d, s4) => .ok ({ s0 := a, s1 := b, s2 := c, s3 := d }, s4)

/-- Write the four samples of a butterfly in slot order (R101). -/
def State.writeQuad (j : Job) (i : Slots) (v : Quad) (s : State) : State :=
  (((s.writeSample j i.i0 v.s0).writeSample j i.i1 v.s1).writeSample j i.i2 v.s2).writeSample j i.i3 v.s3

/-- One butterfly: read all eight words, then write all eight (R16). -/
def State.butterfly (j : Job) (f : Nat → Quad → Quad) (p : Place) (s : State) : Except Fault State :=
  match s.readQuad j p.slots with
  | .error r => .error r
  | .ok (v, t) => .ok (t.writeQuad j p.slots (f p.base v))

/-- A whole pass: its trace event, then its butterflies in order (R41, R100, R110, R120). -/
def State.pass (j : Job) (ev : TraceEvent) (f : Nat → Quad → Quad) (places : List Place) (s : State) :
    Except Fault State :=
  runEach (State.butterfly j f) places (s.traceEvent j ev)

/-- `TwRead` as the active command uses it (R49). -/
def State.twRead (s : State) (k : Nat) : Word × Word := readTwiddle s.params.twiddleRom k

end Sys2Proof.Machine
end

