-- ==== Sys2Proof/Machine/Init.lean ====
section
/-! DEFINITION. The initialization entry point, the command `INIT` (45_dispatch.md section 1). -/

namespace Sys2Proof.Machine

open Sys2Proof

/-- The descriptor of a supported length (R138). -/
def Engine.describe (req : Word) (ifft bitrev : Bool) (g : Engine) : Engine :=
  { g with
    initValid := true
    fftLen := req
    ifft := ifft
    bitrev := bitrev
    twidMod := BitVec.ofNat 32 (Config.twidNativeLen / req.toNat)
    bitrevMod := BitVec.ofNat 32 (Config.twidNativeLen / req.toNat)
    oneByFftLen := BitVec.ofNat 32 (2 ^ 31 / req.toNat) }

/-- The cleared descriptor of a failed `INIT` (R139). -/
def Engine.undescribe (g : Engine) : Engine :=
  { g with
    initValid := false
    fftLen := 0
    ifft := false
    bitrev := false
    twidMod := 0
    bitrevMod := 0
    oneByFftLen := 0 }

/-- `INIT` (R138, R139): the only command that writes the descriptor. -/
def execInit (ifft bitrev : Bool) (s : State) : Host.Outcome State Fault Refusal :=
  match s.latched with
  | none => .fault .notEnabled
  | some (_, p) =>
    if supported p.req.toNat then
      .next ((s.modifyEngine s.active (Engine.describe p.req ifft bitrev)).raise .ok)
    else .next ((s.modifyEngine s.active Engine.undescribe).raise .unsupportedLength)

end Sys2Proof.Machine
end

