-- ==== Sys2Proof/Machine/Bitrev.lean ====
section
/-! DEFINITION. The bit-reversal permutation and the command `BITREV` (44_bitrev.md). -/

namespace Sys2Proof.Machine

open Sys2Proof

/-- Swap two complex samples: four reads, then four writes, in the order of R130. -/
def State.swapSamples (j : Job) (p : Nat × Nat) (s : State) : Except Fault State :=
  match s.readSample j p.1 with
  | .error f => .error f
  | .ok (u, s1) =>
    match s1.readSample j p.2 with
    | .error f => .error f
    | .ok (v, s2) => .ok ((s2.writeSample j p.1 v).writeSample j p.2 u)

/-- `BITREV_BODY()`: the pseudocode of R130 after its checks. -/
def bitrevBody (j : Job) (s : State) : Except Fault State :=
  runEach (State.swapSamples j) (swapPairs j.n) (s.traceEvent j .br)

/-- `BITREV` (R130): it permutes whatever the descriptor's `BITREV` flag says. -/
def execBitrev (s : State) : Host.Outcome State Fault Refusal := s.runBuffer none bitrevBody

end Sys2Proof.Machine
end

