-- ==== Sys2Proof/Machine/Last.lean ====
section
/-! DEFINITION. The last-stage butterfly and the commands `LAST_FWD` and `LAST_INV` (43_last.md). -/

namespace Sys2Proof.Machine

open Sys2Proof

/-- The words a group of the forward last stage writes: the wrapping combinations of R95 in the slot
order of R120. -/
def lastFwdQuad (v : Quad) : Quad :=
  let c := combos v
  { s0 := c.sum, s1 := c.alt, s2 := c.qf, s3 := c.qi }

/-- The words a group of the inverse last stage writes with `INV_LAST_SAT = PAIRWISE`: every add and
subtract of the two levels saturates (R122). -/
def lastInvPairwise (v : Quad) : Quad :=
  let r1 := satAdd v.s0.re v.s2.re
  let r2 := satSub v.s0.re v.s2.re
  let s1 := satAdd v.s0.im v.s2.im
  let s2 := satSub v.s0.im v.s2.im
  let t1 := satAdd v.s1.re v.s3.re
  let t2 := satAdd v.s1.im v.s3.im
  let u1 := satSub v.s1.re v.s3.re
  let u2 := satSub v.s1.im v.s3.im
  { s0 := { re := satAdd r1 t1, im := satAdd s1 t2 }
    s1 := { re := satSub r1 t1, im := satSub s1 t2 }
    s2 := { re := satSub r2 u2, im := satAdd s2 u1 }
    s3 := { re := satAdd r2 u2, im := satSub s2 u1 } }

/-- The words a group of the inverse last stage writes with `INV_LAST_SAT = EXACT`: each is `sat32` of the
exact value of the same four-term expression (R122). -/
def lastInvExact (v : Quad) : Quad :=
  let xa := s32 v.s0.re
  let ya := s32 v.s0.im
  let xb := s32 v.s1.re
  let yb := s32 v.s1.im
  let xc := s32 v.s2.re
  let yc := s32 v.s2.im
  let xd := s32 v.s3.re
  let yd := s32 v.s3.im
  { s0 := { re := sat32 (xa + xc + (xb + xd)), im := sat32 (ya + yc + (yb + yd)) }
    s1 := { re := sat32 (xa + xc - (xb + xd)), im := sat32 (ya + yc - (yb + yd)) }
    s2 := { re := sat32 (xa - xc - (yb - yd)), im := sat32 (ya - yc + (xb - xd)) }
    s3 := { re := sat32 (xa - xc + (yb - yd)), im := sat32 (ya - yc - (xb - xd)) } }

/-- The inverse last stage in the structure `INV_LAST_SAT` (R122). -/
def lastInvQuad (mode : SatMode) (v : Quad) : Quad :=
  match mode with
  | .pairwise => lastInvPairwise v
  | .exact => lastInvExact v

/-- The group operation of a direction. -/
def lastQuad (mode : SatMode) (dir : Dir) (v : Quad) : Quad :=
  match dir with
  | .fwd => lastFwdQuad v
  | .inv => lastInvQuad mode v

/-- `LAST_BODY(dir)`: the pseudocode of R120 and R122 after its checks. -/
def lastBody (dir : Dir) (j : Job) (s : State) : Except Fault State :=
  s.pass j (.last dir) (fun _ v => lastQuad s.params.invLastSat dir v) (lastPlaces j.n)

/-- `LAST_FWD` (R120). -/
def execLastFwd (s : State) : Host.Outcome State Fault Refusal := s.runBuffer none (lastBody .fwd)

/-- `LAST_INV` (R122). -/
def execLastInv (s : State) : Host.Outcome State Fault Refusal := s.runBuffer none (lastBody .inv)

end Sys2Proof.Machine
end

