-- ==== Sys2Proof/Machine/Middle.lean ====
section
/-! DEFINITION. The middle-stage butterfly and the commands `MIDDLE_FWD` and `MIDDLE_INV` (42_middle.md). -/

namespace Sys2Proof.Machine

open Sys2Proof

/-- The words `BFLYM` writes, in slot order, for the words it reads (R111): no input shift, the sum
output shifted right by 2, the three rotated outputs shifted right by 1. -/
def middleQuad (tw : Nat → Word × Word) (dir : Dir) (k : Nat) (v : Quad) : Quad :=
  let h := rotated tw dir k (combos v)
  { s0 := mapCx (fun x => asr x 2) h.s0
    s1 := mapCx (fun x => asr x 1) h.s1
    s2 := mapCx (fun x => asr x 1) h.s2
    s3 := mapCx (fun x => asr x 1) h.s3 }

/-- `MIDDLE_BODY(dir, s)`: the pseudocode of R110 and R114 after its checks. -/
def middleBody (dir : Dir) (stage : Nat) (j : Job) (s : State) : Except Fault State :=
  s.pass j (.mid dir stage (modifierAt j.twidMod stage)) (middleQuad s.twRead dir)
    (middlePlaces j.n j.twidMod stage)

/-- `MIDDLE_FWD s` (R110). -/
def execMiddleFwd (stage : Nat) (s : State) : Host.Outcome State Fault Refusal :=
  s.runBuffer (some stage) (middleBody .fwd stage)

/-- `MIDDLE_INV s` (R114). -/
def execMiddleInv (stage : Nat) (s : State) : Host.Outcome State Fault Refusal :=
  s.runBuffer (some stage) (middleBody .inv stage)

end Sys2Proof.Machine
end

