-- ==== Sys2Proof/Machine/Stage1.lean ====
section
/-! DEFINITION. The Stage-1 butterfly and the commands `STAGE1_FWD` and `STAGE1_INV` (41_stage1.md). -/

namespace Sys2Proof.Machine

open Sys2Proof

/-- The words `BFLY1` writes, in slot order, for the words it reads (R101): the inputs shifted right by
4, the three rotated outputs shifted left by 1, the sum output unshifted. -/
def stage1Quad (tw : Nat → Word × Word) (dir : Dir) (k : Nat) (v : Quad) : Quad :=
  let h := rotated tw dir k (combos (mapQuad (fun x => asr x 4) v))
  { s0 := h.s0, s1 := mapCx shl1 h.s1, s2 := mapCx shl1 h.s2, s3 := mapCx shl1 h.s3 }

/-- `STAGE1_BODY(dir)`: the pseudocode of R100 and R104 after its checks. -/
def stage1Body (dir : Dir) (j : Job) (s : State) : Except Fault State :=
  s.pass j (.s1 dir (modifierAt j.twidMod 0)) (stage1Quad s.twRead dir) (stage1Places j.n j.twidMod)

/-- `STAGE1_FWD` (R100). -/
def execStage1Fwd (s : State) : Host.Outcome State Fault Refusal := s.runBuffer none (stage1Body .fwd)

/-- `STAGE1_INV` (R104). -/
def execStage1Inv (s : State) : Host.Outcome State Fault Refusal := s.runBuffer none (stage1Body .inv)

end Sys2Proof.Machine
end

