-- ==== Sys2Proof/Machine/Transform.lean ====
section
/-! DEFINITION. The transform dispatcher, the command `TRANSFORM` (45_dispatch.md section 2). -/

namespace Sys2Proof.Machine

open Sys2Proof

/-- `dir = (IFFT == 1) ? INV : FWD` (R142). -/
def Job.dir (j : Job) : Dir := if j.ifft then .inv else .fwd

/-- One statement after another, stopping at a fault (R16). -/
def andThen (f g : State → Except Fault State) (s : State) : Except Fault State :=
  match f s with
  | .error r => .error r
  | .ok t => g t

/-- `for s in [1, L - 1): MIDDLE_BODY(dir, s)` (R142). -/
def middleBodies (j : Job) (s : State) : Except Fault State :=
  runEach (fun stage t => middleBody j.dir stage j t) (List.range' 1 (log4 j.n - 2)) s

/-- The conditional last statement: `if BITREV == 1: BITREV_BODY()` (R142). -/
def bitrevIfSet (j : Job) (s : State) : Except Fault State :=
  if j.bitrev then bitrevBody j s else .ok s

/-- The phase sequence of `TRANSFORM` (R142). -/
def transformBody (j : Job) (s : State) : Except Fault State :=
  andThen (stage1Body j.dir j) (andThen (middleBodies j) (andThen (lastBody j.dir j) (bitrevIfSet j))) s

/-- `TRANSFORM` (R142). -/
def execTransform (s : State) : Host.Outcome State Fault Refusal := s.runBuffer none transformBody

end Sys2Proof.Machine
end

