-- ==== Sys2Proof/Machine/Dispatch.lean ====
section
/-! DEFINITION. `exec`: one arm for each command. It executes the latched command of the active engine
and completes it (R151). -/

namespace Sys2Proof.Machine

open Sys2Proof

def exec (i : Instr) (s : State) : Host.Outcome State Fault Refusal :=
  match i with
  | .init ifft bitrev => Sys2Proof.Machine.execInit ifft bitrev s
  | .transform => Sys2Proof.Machine.execTransform s
  | .stage1Fwd => Sys2Proof.Machine.execStage1Fwd s
  | .stage1Inv => Sys2Proof.Machine.execStage1Inv s
  | .middleFwd stage => Sys2Proof.Machine.execMiddleFwd stage s
  | .middleInv stage => Sys2Proof.Machine.execMiddleInv stage s
  | .lastFwd => Sys2Proof.Machine.execLastFwd s
  | .lastInv => Sys2Proof.Machine.execLastInv s
  | .bitrev => Sys2Proof.Machine.execBitrev s

end Sys2Proof.Machine
end

