-- ==== Sys2Proof/Machine/HostPort.lean ====
section
/-! DEFINITION. What the outside world does to the machine: host access to registers and data memory,
the acceptance of a command, and the reset of an engine. -/

namespace Sys2Proof.Machine

open Sys2Proof

/-- The register at a word offset of a block (R23); `none` past the sixteenth. -/
def RegName.ofOffset : Nat → Option RegName
  | 0 => some .cmd
  | 1 => some .status
  | 2 => some .bufBase
  | 3 => some .reqLen
  | 4 => some .fftLen
  | 5 => some .descFlags
  | 6 => some .twidMod
  | 7 => some .bitrevMod
  | 8 => some .oneByFftLen
  | n => if n < 16 then some .reserved else none

/-- A host read of a register (R23 to R33): `CMD` and the reserved offsets read 0; no side effect (R34). -/
def Engine.readReg (g : Engine) : RegName → Word
  | .cmd => 0
  | .status => g.statusWord
  | .bufBase => g.bufBase
  | .reqLen => g.reqLen
  | .fftLen => g.fftLen
  | .descFlags => g.descFlagsWord
  | .twidMod => g.twidMod
  | .bitrevMod => g.bitrevMod
  | .oneByFftLen => g.oneByFftLen
  | .reserved => 0

/-- The words two ranges share, or `none` where they are disjoint (R161). -/
def sharedWords (a b : Nat × Nat) : Option (Nat × Nat) :=
  if max a.1 b.1 < min a.2 b.2 then some (max a.1 b.1, min a.2 b.2) else none

/-- The words that the owned range `mine` of engine `e` shares with that of engine `j` (R161). -/
def State.overlapWith (s : State) (e : Nat) (mine : Option (Nat × Nat)) (j : Nat) (g : Engine) :
    Option (Nat × Nat) :=
  if j = e then none
  else
    match mine, g.owned s.params.memWords with
    | some a, some b => sharedWords a b
    | _, _ => none

/-- The entries engine `e` keeps of its overlaps with the busy engines (R161). -/
def State.overlapEntries (s : State) (e : Nat) (mine : Option (Nat × Nat)) : List Overlap :=
  (s.engines.mapIdx (fun j g =>
    match s.overlapWith e mine j g with
    | some r => [{ partner := j, lo := r.1, hi := r.2, partnerDone := false }]
    | none => [])).flatten

/-- The latched copy an accepted `CMD` write makes (R24, R36). -/
def Engine.latch (v : Word) (g : Engine) : Engine :=
  { g with pending := some { cmd := v, base := g.bufBase, req := g.reqLen } }

/-- The engine after its `CMD` write is accepted, with the overlaps found (R24, R36, R161). -/
def Engine.accepted (entries : List Overlap) (g : Engine) : Engine :=
  { g with hazard := g.hazard || !entries.isEmpty, overlaps := entries, spoilt := false }

/-- A busy engine whose owned range `r` of the new command of engine `e` meets (R161). -/
def Engine.met (e : Nat) (r : Nat × Nat) (g : Engine) : Engine :=
  { g with
    hazard := true
    overlaps := { partner := e, lo := r.1, hi := r.2, partnerDone := false } :: g.overlaps }

/-- An accepted `CMD` write (R24): the command, `BUF_BASE` and `REQ_LEN` are latched (R36), and an
overlap with the owned range of another busy engine is a hazard on both (R161). -/
def State.acceptCommand (e : Nat) (v : Word) (g : Engine) (s : State) : State :=
  let g' := g.latch v
  let mine := g'.owned s.params.memWords
  { s with
    engines := s.engines.mapIdx (fun j h =>
      if j = e then g'.accepted (s.overlapEntries e mine)
      else
        match s.overlapWith e mine j h with
        | some r => h.met e r
        | none => h) }

/-- A host write of a register of engine `e`. While busy, a write of `CMD`, `BUF_BASE` or `REQ_LEN` is
ignored and sets `HAZARD` (R160); a write of any other register is always ignored (R33, R34). -/
def State.writeReg (e : Nat) (r : RegName) (v : Word) (s : State) : Host.Outcome State Fault Refusal :=
  match s.engines[e]? with
  | none => .fault (.noSuchEngine e)
  | some g =>
    match r with
    | .cmd => .next (if g.busy then s.modifyEngine e Engine.setHazard else s.acceptCommand e v g)
    | .bufBase =>
      .next (s.modifyEngine e (if g.busy then Engine.setHazard else fun h => { h with bufBase := v }))
    | .reqLen =>
      .next (s.modifyEngine e (if g.busy then Engine.setHazard else fun h => { h with reqLen := v }))
    | .status => .next s
    | .fftLen => .next s
    | .descFlags => .next s
    | .twidMod => .next s
    | .bitrevMod => .next s
    | .oneByFftLen => .next s
    | .reserved => .next s

/-- A host read of a register of engine `e`: the value is what the host gets, and nothing else changes (R34). -/
def State.readReg (e : Nat) (r : RegName) (s : State) : Host.Outcome State Fault Refusal :=
  match s.engines[e]? with
  | none => .fault (.noSuchEngine e)
  | some g => .next { s with hostData := g.readReg r }

/-- The low `width` bytes of a word written from byte address `b` up (R52). -/
def Memory.writeBytes (m : Memory) (b : Nat) (v : Word) : Nat → Memory
  | 0 => m
  | width + 1 => Memory.writeByte (Memory.writeBytes m b v width) (b + width) (byteOf v width)

/-- A byte as a host reads it: where nothing was written, a byte of the free word `free` (R173). -/
def Memory.byteOr (m : Memory) (free : Word) (b n : Nat) : Byte :=
  match Memory.readByte m (b + n) with
  | some v => v
  | none => byteOf free n

/-- The `width` bytes at byte address `b` as a word, zero above them (R52). -/
def Memory.readBytes (m : Memory) (free : Word) (b width : Nat) : Word :=
  let lane := fun n => if n < width then Memory.byteOr m free b n else 0
  wordOf (lane 0) (lane 1) (lane 2) (lane 3)

/-- What a host write of a part of a word finds there: where word `a` holds no value yet, its bytes hold
unspecified ones from then on, so that the word counts as written (DEDUCED, assumption 9). -/
def State.fillWord (a : Nat) (s : State) : State :=
  match Memory.readWord s.mem a with
  | some _ => s
  | none =>
    { s with
      mem := Memory.writeWord s.mem a (Memory.readBytes s.mem (Config.freeWord s.freeCount) (4 * a) 4)
      freeCount := s.freeCount + 1 }

/-- A host write of `width` bytes that lie in one data-memory word (R52, R56, R83): it takes effect, and
is a hazard on every engine that owns the word (R162). -/
def State.hostWrite (b width : Nat) (v : Word) (s : State) : Host.Outcome State Fault Refusal :=
  if b / 4 < s.params.memWords then
    let t := s.intrude none (b / 4) true
    let u := if width < 4 then t.fillWord (b / 4) else t
    .next { u with mem := Memory.writeBytes u.mem b v width }
  else .fault (.noSuchWord (b / 4))

/-- A host read of `width` bytes that lie in one data-memory word (R52, R83): an unspecified word where an
engine owns the word, which is a hazard (R162), and unspecified bytes where nothing was written (R173). -/
def State.hostRead (b width : Nat) (s : State) : Host.Outcome State Fault Refusal :=
  if b / 4 < s.params.memWords then
    let free := Config.freeWord s.freeCount
    let t := s.intrude none (b / 4) false
    .next { t with
      hostData :=
        if s.foreign none (b / 4) then Memory.readBytes [] free b width
        else Memory.readBytes s.mem free b width
      freeCount := s.freeCount + 1 }
  else .fault (.noSuchWord (b / 4))

/-- What a host byte address names (R57). -/
inductive BusTarget where
  | register (engine offset : Nat)
  | memory (offset : Nat)
  deriving DecidableEq, Repr

/-- The engine whose register block of sixteen words holds an address, with the byte offset in the block:
word offset `k` is byte offset `4*k` (DEDUCED, assumption 10). -/
def findBlock (addr : Nat) : List Nat → Nat → Option (Nat × Nat)
  | [], _ => none
  | base :: rest, e =>
    if base ≤ addr ∧ addr < base + 64 then some (e, addr - base) else findBlock addr rest (e + 1)

/-- The address map of R57: the register blocks, and the data memory at its host base. -/
def Params.resolve (p : Params) (addr : Nat) : Option BusTarget :=
  match findBlock addr p.regBlockBase 0 with
  | some r => some (.register r.1 r.2)
  | none =>
    if p.memHostBase ≤ addr ∧ addr < p.memHostBase + 4 * p.memWords then
      some (.memory (addr - p.memHostBase))
    else none

/-- The register a bus access reaches: a whole aligned word or no step at all (R34). -/
def busRegister (offset width : Nat) : Option RegName :=
  if width = 4 ∧ offset % 4 = 0 then RegName.ofOffset (offset / 4) else none

/-- A memory access of a byte-addressed host lies within one sample word (R52; DESIGN CHOICE, assumption 10). -/
def withinWord (offset width : Nat) : Bool := decide (1 ≤ width ∧ offset % 4 + width ≤ 4)

/-- A host write on the bus (R34, R52, R57). -/
def State.busWrite (addr width : Nat) (v : Word) (s : State) : Host.Outcome State Fault Refusal :=
  match Params.resolve s.params addr with
  | none => .fault (.unmapped addr)
  | some (.register e offset) =>
    match busRegister offset width with
    | none => .fault (.registerAccessShape addr width)
    | some r => s.writeReg e r v
  | some (.memory offset) =>
    if withinWord offset width then s.hostWrite offset width v
    else .fault (.memoryAccessShape addr width)

/-- A host read on the bus (R34, R52, R57). -/
def State.busRead (addr width : Nat) (s : State) : Host.Outcome State Fault Refusal :=
  match Params.resolve s.params addr with
  | none => .fault (.unmapped addr)
  | some (.register e offset) =>
    match busRegister offset width with
    | none => .fault (.registerAccessShape addr width)
    | some r => s.readReg e r
  | some (.memory offset) =>
    if withinWord offset width then s.hostRead offset width
    else .fault (.memoryAccessShape addr width)

/-- A reset of engine `e` (R171). While busy it abandons the command, and every word of the range the
engine owned then holds an unspecified value (R172). The memory, the ROMs and the other engines' registers stay. -/
def State.resetEngine (e : Nat) (s : State) : Host.Outcome State Fault Refusal :=
  match s.engines[e]? with
  | none => .fault (.noSuchEngine e)
  | some g =>
    let t :=
      match g.owned s.params.memWords with
      | none => s
      | some r => State.scramble (List.range' r.1 (r.2 - r.1)) s
    .next { t with
      engines := t.engines.mapIdx (fun j h => if j = e then Engine.reset else h.partnerOver e) }

end Sys2Proof.Machine
end

