-- ==== Sys2Proof/Machine/Scheduler.lean ====
section
/-! DEFINITION. One move of the machine: the next entry of the schedule, or, where the schedule is empty,
the completion of the first busy engine (R151: every pending command completes). -/

namespace Sys2Proof.Machine

open Sys2Proof

/-- The completion step of engine `e` (R151): decode the latched word, execute it, complete. A word that
encodes nothing completes with `ILLEGAL_COMMAND` (R154). The step is enabled only while a command is
latched; without one the turn passes and changes nothing but whose turn it was. -/
def State.completionStep (e : Nat) (s : State) : Host.Outcome State Fault Refusal :=
  let t := { s with active := e }
  match t.latched with
  | none => .next s
  | some (_, p) =>
    match decode p.cmd with
    | .ok i => exec i t
    | .error _ => .next (t.raise .illegalCommand)

/-- `WAIT` (R83): a busy engine takes its completion step and the host goes on waiting; the read of
`STATUS` that finds `BUSY = 0` ends the loop. `rest` is the schedule after the `WAIT`. -/
def State.waitStep (e : Nat) (rest : List Action) (s : State) : Host.Outcome State Fault Refusal :=
  match s.engines[e]? with
  | none => .fault (.noSuchEngine e)
  | some g => if g.busy then s.completionStep e else State.readReg e .status { s with schedule := rest }

/-- One move of an agent (R19, R83). `s` still has the whole schedule, `rest` is what follows the move. -/
def State.move (a : Action) (rest : List Action) (s : State) : Host.Outcome State Fault Refusal :=
  let t := { s with schedule := rest }
  match a with
  | .set e r v => t.writeReg e r v
  | .get e r => t.readReg e r
  | .memw w v => t.hostWrite (4 * w) 4 v
  | .memr w => t.hostRead (4 * w) 4
  | .wait e => s.waitStep e rest
  | .busWrite addr width v => t.busWrite addr width v
  | .busRead addr width => t.busRead addr width
  | .complete e => t.completionStep e
  | .reset e => t.resetEngine e

/-- The first busy engine from `e` on. -/
def firstBusy : List Engine → Nat → Option Nat
  | [], _ => none
  | g :: rest, e => if g.busy then some e else firstBusy rest (e + 1)

/-- One step of the machine. With nothing scheduled and no engine busy the machine is idle and stays so (R170). -/
def State.advance (s : State) : Host.Outcome State Fault Refusal :=
  match s.schedule with
  | a :: rest => s.move a rest
  | [] =>
    match firstBusy s.engines 0 with
    | some e => s.completionStep e
    | none => .next s

/-- A command word latched by the active engine as an accepted `CMD` write latches it (R36), its
completion step scheduled next. -/
def State.latchNext (w : Word) (s : State) : State :=
  { s.modifyEngine s.active (Engine.latch w) with schedule := .complete s.active :: s.schedule }

end Sys2Proof.Machine
end

