-- ==== Sys2Proof/Machine/Step.lean ====
section
/-! DEFINITION. The step of the machine. -/

namespace Sys2Proof.Machine

open Sys2Proof

/-- One step: the next scheduled move, or the completion of a busy engine (R151). -/
def step (s : State) : Host.Outcome State Fault Refusal := s.advance

/-- The state in which the very next step executes the command word `w` on the active engine: the word
latched, its completion step scheduled (R24, R36, R151). -/
def State.withFetchWord (s : State) (nbits w : Nat) : State := s.latchNext (tableWord nbits w)

end Sys2Proof.Machine
end

