-- ==== Sys2Proof/Machine/HostProgram.lean ====
section
/-! DEFINITION. The notation of host programs: commands and pseudo-instructions as lists of moves (R82 to R84). -/

namespace Sys2Proof.Machine

open Sys2Proof

/-- A command mnemonic on a line of its own: `SET CMD, <its encoding>` (R83). -/
def issue (e : Nat) (i : Instr) : List Action := [.set e .cmd (encode i)]

/-- `RUN <command>` (R84). -/
def run (e : Nat) (i : Instr) : List Action := issue e i ++ [.wait e]

/-- `CFFT n` with its flags (R84). -/
def cfft (e : Nat) (n : Word) (ifft bitrev : Bool) : List Action :=
  .set e .reqLen n :: (run e (.init ifft bitrev) ++ run e .transform)

/-- The `MEMW` lines of `LOADBUF` from word `a` on (R84). -/
def storeWords (a : Nat) : List Word → List Action
  | [] => []
  | w :: rest => .memw a w :: storeWords (a + 1) rest

/-- `LOADBUF base, w0, w1, …` (R84). -/
def loadBuf (e : Nat) (base : Word) (words : List Word) : List Action :=
  .set e .bufBase base :: storeWords base.toNat words

/-- A token of a command line: a word or a decimal number; commas and comments are gone (R82). -/
inductive Token where
  | name (text : String)
  | number (n : Nat)
  deriving DecidableEq, Repr

/-- The flag words after `INIT`, in any order, each at most once (R82). -/
def initFlags : List Token → Option (Bool × Bool)
  | [] => some (false, false)
  | [.name "ifft"] => some (true, false)
  | [.name "bitrev"] => some (false, true)
  | [.name "ifft", .name "bitrev"] => some (true, true)
  | [.name "bitrev", .name "ifft"] => some (true, true)
  | _ => none

/-- A stage number of the syntax, `0 <= s <= 15` (R82). -/
def stageToken : List Token → Option Nat
  | [.number s] => if s < 16 then some s else none
  | _ => none

/-- The command a line of tokens writes (R82). -/
def assemble : List Token → Option Instr
  | .name "INIT" :: flags => (initFlags flags).map (fun f => .init f.1 f.2)
  | [.name "TRANSFORM"] => some .transform
  | [.name "STAGE1_FWD"] => some .stage1Fwd
  | [.name "STAGE1_INV"] => some .stage1Inv
  | .name "MIDDLE_FWD" :: rest => (stageToken rest).map .middleFwd
  | .name "MIDDLE_INV" :: rest => (stageToken rest).map .middleInv
  | [.name "LAST_FWD"] => some .lastFwd
  | [.name "LAST_INV"] => some .lastInv
  | [.name "BITREV"] => some .bitrev
  | _ => none

end Sys2Proof.Machine
end

