-- ==== Sys2Proof/Safety.lean ====
section
/-! DEFINITION. The terms claims are stated in: the invariant of the machine, a buffer that is ready for a
command, and the samples of a buffer as a claim reads them. -/

namespace Sys2Proof.Machine

open Sys2Proof

/-- The descriptor holds what R28 to R32 say: while `INIT_VALID = 1` a supported length and the values
that go with it, while `INIT_VALID = 0` zeros. -/
abbrev Engine.descriptorOk (g : Engine) : Prop :=
  if g.initValid then
    supported g.fftLen.toNat = true
      ∧ g.twidMod.toNat = Config.twidNativeLen / g.fftLen.toNat
      ∧ g.bitrevMod.toNat = Config.twidNativeLen / g.fftLen.toNat
      ∧ g.oneByFftLen.toNat = 2 ^ 31 / g.fftLen.toNat
  else
    g.fftLen = 0 ∧ g.ifft = false ∧ g.bitrev = false ∧ g.twidMod = 0 ∧ g.bitrevMod = 0
      ∧ g.oneByFftLen = 0

/-- A result other than `OK` has left `ERR_STICKY` set (R25, R151). -/
abbrev Engine.errorsStick (g : Engine) : Prop := g.result = .ok ∨ g.errSticky = true

/-- The invariant of the machine: the parameters lie in their ranges (R12, R37, R57), there are `ENGINE_COUNT`
engines (R169), the memory is in canonical form and lists no byte outside its `MEM_WORDS` words (R39), every
descriptor is a legal one (R28 to R32), and every error has stuck (R151). -/
abbrev State.Inv (s : State) : Prop :=
  s.params.wf ∧ s.engines.length = s.params.engineCount
    ∧ Memory.wf s.mem ∧ (∀ c ∈ s.mem, c.1 < 4 * s.params.memWords)
    ∧ ∀ g ∈ s.engines, g.descriptorOk ∧ g.errorsStick

/-- The two words of complex sample `i` of a buffer at `base`; `none` where one was never written. -/
def State.sampleAt (s : State) (base i : Nat) : Option Cx :=
  match Memory.readWord s.mem (reAddr base i), Memory.readWord s.mem (imAddr base i) with
  | some x, some y => some { re := x, im := y }
  | _, _ => none

/-- The four samples of a butterfly; `none` where a word was never written. -/
def State.quadAt (s : State) (base : Nat) (i : Slots) : Option Quad :=
  match s.sampleAt base i.i0, s.sampleAt base i.i1, s.sampleAt base i.i2, s.sampleAt base i.i3 with
  | some a, some b, some c, some d => some { s0 := a, s1 := b, s2 := c, s3 := d }
  | _, _, _, _ => none

/-- Engine `e` may read the value `v` at word `a`: any word, here a free one, where another engine owns the
word (R162), else the word last written (R46). -/
def State.sees (s : State) (e a : Nat) (v : Word) : Prop :=
  (s.foreign (some e) a = true → ∃ n, v = Config.freeWord n)
    ∧ (s.foreign (some e) a = false → Memory.readWord s.mem a = some v)

/-- The active engine may read `v` at sample `i` of a buffer at `base`. -/
def State.seesSample (s : State) (base i : Nat) (v : Cx) : Prop :=
  s.sees s.active (reAddr base i) v.re ∧ s.sees s.active (imAddr base i) v.im

/-- The active engine may read `v` at the four samples of a butterfly. -/
def State.seesQuad (s : State) (base : Nat) (i : Slots) (v : Quad) : Prop :=
  s.seesSample base i.i0 v.s0 ∧ s.seesSample base i.i1 v.s1 ∧ s.seesSample base i.i2 v.s2
    ∧ s.seesSample base i.i3 v.s3

/-- No engine but the active one owns a word of `[lo, hi)`: no hazard of R162 in the range. -/
def State.exclusive (s : State) (lo hi : Nat) : Prop :=
  ∀ a, lo ≤ a → a < hi → s.foreign (some s.active) a = false

/-- Every word of `[lo, hi)` has been written (R176 f). -/
def State.written (s : State) (lo hi : Nat) : Prop :=
  ∀ a, lo ≤ a → a < hi → (Memory.readWord s.mem a).isSome = true

/-- The last word address of a latched buffer, plus one: `base + 2*FFT_LEN` (R42, R48). -/
def bufferEnd (g : Engine) (p : Pending) : Nat := p.base.toNat + 2 * g.fftLen.toNat

/-- Engine `g` is the active one and holds the latched command `p`. -/
structure State.Latched (s : State) (g : Engine) (p : Pending) : Prop where
  engine : s.engines[s.active]? = some g
  pending : g.pending = some p

/-- The active engine is initialized and its latched buffer fits the memory and has been written: what
R153 and R163 ask for before a buffer-touching command runs. -/
structure State.Runnable (s : State) (g : Engine) (p : Pending) : Prop extends s.Latched g p where
  valid : g.initValid = true
  descriptor : g.descriptorOk
  fits : bufferEnd g p ≤ s.params.memWords
  written : s.written p.base.toNat (bufferEnd g p)

/-- The command also meets no hazard: no other engine owns a word of its buffer, and no agent has
disturbed the buffer since the command was accepted (R161, R162). -/
structure State.Undisturbed (s : State) (g : Engine) (p : Pending) : Prop extends s.Runnable g p where
  alone : s.exclusive p.base.toNat (bufferEnd g p)
  clean : g.spoilt = false
  apart : g.overlaps = []

/-- The active engine after a command that ended with `OK` and appended the events `evs` (R151). -/
def Engine.completed (evs : List TraceEvent) (g : Engine) : Engine :=
  { g with
    result := .ok
    pending := none
    trace := g.trace ++ evs
    spoilt := false
    overlaps := [] }

/-- Two states agree outside the words `[lo, hi)`: every byte there reads the same. -/
def sameOutside (lo hi : Nat) (s t : State) : Prop :=
  ∀ b, b < 4 * lo ∨ 4 * hi ≤ b → Memory.readByte t.mem b = Memory.readByte s.mem b

/-- The registers of the descriptor and the two configuration registers are the same (R105). -/
def Engine.sameRegisters (g h : Engine) : Prop :=
  h.initValid = g.initValid ∧ h.fftLen = g.fftLen ∧ h.ifft = g.ifft ∧ h.bitrev = g.bitrev
    ∧ h.twidMod = g.twidMod ∧ h.bitrevMod = g.bitrevMod ∧ h.oneByFftLen = g.oneByFftLen
    ∧ h.bufBase = g.bufBase ∧ h.reqLen = g.reqLen

/-- What a command of another engine may change of an engine: nothing but the hazard bookkeeping of
R161 and R162, and `HAZARD` only from 0 to 1. -/
def Engine.onlyHazard (g h : Engine) : Prop :=
  g.sameRegisters h ∧ h.result = g.result ∧ h.errSticky = g.errSticky ∧ h.pending = g.pending
    ∧ h.trace = g.trace ∧ (g.hazard = true → h.hazard = true)

/-- The events `TRANSFORM` appends (R142, R143): the direction is `INV` where the flag `IFFT` is 1, else `FWD`. -/
def transformEvents (g : Engine) : List TraceEvent :=
  let dir : Dir := if g.ifft then .inv else .fwd
  [.s1 dir g.twidMod.toNat]
    ++ (List.range' 1 (log4 g.fftLen.toNat - 2)).map (fun k => .mid dir k (g.twidMod.toNat * 4 ^ k))
    ++ [.last dir] ++ (if g.bitrev then [.br] else [])

/-- The component commands that make up `TRANSFORM` (R144): those of `INV` where the flag `IFFT` is 1, else those
of `FWD`. -/
def componentCommands (g : Engine) : List Instr :=
  let stages := List.range' 1 (log4 g.fftLen.toNat - 2)
  (if g.ifft then [.stage1Inv] ++ stages.map .middleInv ++ [.lastInv]
    else [.stage1Fwd] ++ stages.map .middleFwd ++ [.lastFwd])
    ++ (if g.bitrev then [.bitrev] else [])

/-- Execute commands one after another on the active engine, each latched with the word `encode i` and the
base and length of `p` (R36). -/
def execAll (p : Pending) : List Instr → State → Host.Outcome State Fault Refusal
  | [], s => .next s
  | i :: rest, s =>
    match exec i (s.modifyEngine s.active (fun g => { g with pending := some { p with cmd := encode i } })) with
    | .next t => execAll p rest t
    | .fault f => .fault f
    | .refused r => .refused r

end Sys2Proof.Machine
end

