-- ==== Sys2Proof/Certificates/Slice0/Obligations.lean ====
section
/-! DEFINITION. The statements about the machine that are left to be proved, and the integer formulas some
of them are written in. -/

namespace Sys2Proof.Claims

open Sys2Proof Sys2Proof.Machine

/-- Reduction modulo `2^32` into the signed range, on integers (R86). -/
def narrow (v : Int) : Int := (v + 2147483648) % 4294967296 - 2147483648

/-- Clamping to the signed 32-bit range, on integers (R91). -/
def clamp (v : Int) : Int := max (-2147483648) (min v 2147483647)

/-- A complex integer. -/
abbrev Zc := Int × Int

/-- Both words of a sample, read as signed integers. -/
def parts (v : Cx) : Zc := (s32 v.re, s32 v.im)

/-- An integer operation on both parts. -/
def both (f : Int → Int) (z : Zc) : Zc := (f z.1, f z.2)

/-- `a + b + c + d`. -/
def sumZ (a b c d : Zc) : Zc := (a.1 + b.1 + c.1 + d.1, a.2 + b.2 + c.2 + d.2)

/-- `a - b + c - d`. -/
def altZ (a b c d : Zc) : Zc := (a.1 - b.1 + c.1 - d.1, a.2 - b.2 + c.2 - d.2)

/-- `a - j*b - c + j*d`. -/
def minusJ (a b c d : Zc) : Zc := (a.1 + b.2 - c.1 - d.2, a.2 - b.1 - c.2 + d.1)

/-- `a + j*b - c - j*d`. -/
def plusJ (a b c d : Zc) : Zc := (a.1 - b.2 - c.1 + d.2, a.2 + b.1 - c.2 - d.1)

/-- The combination rotated by twiddle `k` (R101). -/
def crossZ (dir : Dir) (a b c d : Zc) : Zc :=
  match dir with
  | .fwd => minusJ a b c d
  | .inv => plusJ a b c d

/-- The combination rotated by twiddle `3k` (R101). -/
def crossZ' (dir : Dir) (a b c d : Zc) : Zc :=
  match dir with
  | .fwd => plusJ a b c d
  | .inv => minusJ a b c d

/-- `floor(x * y / 2^32)` (R90). -/
def upper (x y : Int) : Int := (x * y).fdiv 4294967296

/-- The rotation of R93 and R94 on integers, before it is narrowed. -/
def rotZ (dir : Dir) (z : Zc) (tw : Word × Word) : Zc :=
  match dir with
  | .fwd => (upper z.1 (s32 tw.1) + upper z.2 (s32 tw.2), upper z.2 (s32 tw.1) - upper z.1 (s32 tw.2))
  | .inv => (upper z.1 (s32 tw.1) - upper z.2 (s32 tw.2), upper z.2 (s32 tw.1) + upper z.1 (s32 tw.2))

/-- The state after a command stopped by a check with code `r`: nothing but `RESULT`, `ERR_STICKY` and
`PENDING` of the active engine (and its hazard bookkeeping) changes (R151, R155). -/
def stopped (r : ResultCode) (s : State) : State :=
  { s with
    engines := s.engines.modify s.active (fun g =>
      { g with result := r, errSticky := true, pending := none, spoilt := false, overlaps := [] }) }

/-- The stage operand of a command is legal for the descriptor (R153). -/
def stageOk (i : Instr) (g : Engine) : Prop :=
  ∀ k, i.stageOperand = some k → 1 ≤ k ∧ k ≤ log4 g.fftLen.toNat - 2

/-- The commands of a direction. -/
def stage1Of : Dir → Instr
  | .fwd => .stage1Fwd
  | .inv => .stage1Inv

def middleOf : Dir → Nat → Instr
  | .fwd => .middleFwd
  | .inv => .middleInv

def lastOf : Dir → Instr
  | .fwd => .lastFwd
  | .inv => .lastInv

/-- The samples a pass works on, in loop order. -/
def indicesOf (places : List Place) : List Nat :=
  places.flatMap (fun p => [p.slots.i0, p.slots.i1, p.slots.i2, p.slots.i3])

/-- The two engines share a word of their owned ranges (R161). -/
def shareWord (memWords : Nat) (g h : Engine) : Prop :=
  ∃ a, g.ownsWord memWords a = true ∧ h.ownsWord memWords a = true

/-- The entry `o` lists exactly the words the two engines share, and there are some (R161). -/
def listsShared (memWords : Nat) (g h : Engine) (o : Overlap) : Prop :=
  o.lo < o.hi ∧
    ∀ a, (o.lo ≤ a ∧ a < o.hi) ↔ (g.ownsWord memWords a = true ∧ h.ownsWord memWords a = true)

/-- The overlap entries once the command of engine `e` is over (R161). -/
def withPartnerDone (e : Nat) (os : List Overlap) : List Overlap :=
  os.map (fun o => if o.partner = e then { o with partnerDone := true } else o)

/-- The engines after agent `who` (`none` is a host) accessed word `a`: each owner of the word but the agent
itself has `HAZARD`, and after a write its range is spoilt (R162). -/
def disturbed (who : Option Nat) (a : Nat) (isWrite : Bool) (s : State) : List Engine :=
  s.engines.mapIdx (fun k g =>
    if g.ownsWord s.params.memWords a = true ∧ who ≠ some k then
      { g with hazard := true, spoilt := g.spoilt || isWrite }
    else g)

/-- A buffer-touching command accesses word `a`: every stage pass accesses each word of the buffer (R102, R112,
R121), `BITREV` alone only the words of the samples that move (R132). -/
def accesses (i : Instr) (g : Engine) (p : Pending) (a : Nat) : Prop :=
  p.base.toNat ≤ a ∧ a < bufferEnd g p
    ∧ (i = .bitrev → revBits (log2 g.fftLen.toNat) ((a - p.base.toNat) / 2) ≠ (a - p.base.toNat) / 2)

/-- The samples of a middle stage in loop order, for `m` sub-blocks of `n1` samples (R110). -/
def middleOrder (n1 m : Nat) : List Nat :=
  (List.range (n1 / 4)).flatMap (fun j => (List.range m).flatMap (fun b =>
    [j + b * n1, j + b * n1 + n1 / 4, j + b * n1 + 2 * (n1 / 4), j + b * n1 + 3 * (n1 / 4)]))

/-- The samples a command reads, in the order of its pseudocode (R100, R110, R120, R130); `TRANSFORM` begins with
its Stage-1 pass (R142), which reads every sample. -/
def readOrder (n : Nat) : Instr → List Nat
  | .init _ _ => []
  | .transform => (List.range (n / 4)).flatMap (fun k => [k, k + n / 4, k + 2 * (n / 4), k + 3 * (n / 4)])
  | .stage1Fwd => (List.range (n / 4)).flatMap (fun k => [k, k + n / 4, k + 2 * (n / 4), k + 3 * (n / 4)])
  | .stage1Inv => (List.range (n / 4)).flatMap (fun k => [k, k + n / 4, k + 2 * (n / 4), k + 3 * (n / 4)])
  | .middleFwd k => middleOrder (n / 4 ^ k) (4 ^ k)
  | .middleInv k => middleOrder (n / 4 ^ k) (4 ^ k)
  | .lastFwd => (List.range (n / 4)).flatMap (fun k => [4 * k, 4 * k + 1, 4 * k + 2, 4 * k + 3])
  | .lastInv => (List.range (n / 4)).flatMap (fun k => [4 * k, 4 * k + 1, 4 * k + 2, 4 * k + 3])
  | .bitrev =>
    (List.range n).flatMap (fun i => if i < revBits (log2 n) i then [i, revBits (log2 n) i] else [])

/-- The words a command reads, in order: the real and then the imaginary word of each sample (R101, R130). -/
def readWords (i : Instr) (g : Engine) (p : Pending) : List Nat :=
  (readOrder g.fftLen.toNat i).flatMap (fun k => [p.base.toNat + 2 * k, p.base.toNat + 2 * k + 1])

/-- Word `a` is in no range shared with a command that is already over: an unspoilt engine keeps its results
there (R161). -/
def keepsWord (g : Engine) (a : Nat) : Prop := ∀ o ∈ g.overlaps, o.partnerDone = true → ¬ (o.lo ≤ a ∧ a < o.hi)

/-- What a stage pass makes of a memory `m` with the owners of `s`: each butterfly leaves its function of four
samples the active engine may read in its slots (R101, R111, R120, R162). -/
def passPhase (s : State) (base : Nat) (places : List Place) (f : Nat → Quad → Quad) (m m' : Memory) : Prop :=
  ∀ pl ∈ places, ∃ v, ({ s with mem := m } : State).seesQuad base pl.slots v
    ∧ ({ s with mem := m' } : State).quadAt base pl.slots = some (f pl.base v)

/-- What the bit-reversal pass makes of a memory `m` with the owners of `s`: a sample that moves is one the active
engine may read at the reversed index, and the words of every other sample stay (R130 to R132, R162). -/
def bitrevPhase (s : State) (base n : Nat) (m m' : Memory) : Prop :=
  ∀ k, k < n →
    (revBits (log2 n) k ≠ k →
      ∃ v, ({ s with mem := m } : State).seesSample base (revBits (log2 n) k) v
        ∧ ({ s with mem := m' } : State).sampleAt base k = some v)
    ∧ (revBits (log2 n) k = k →
      ∀ a ∈ [reAddr base k, imAddr base k], Memory.readWord m' a = Memory.readWord m a)

/-- Phases one after another (R142). -/
def chain : List (Memory → Memory → Prop) → Memory → Memory → Prop
  | [], m, m' => m' = m
  | phase :: rest, m, m' => ∃ m1, phase m m1 ∧ chain rest m1 m'

/-- The Stage-1 phase of a direction for engine `g` and the command `p` (R100, R104). -/
def stage1Phase (s : State) (g : Engine) (p : Pending) (dir : Dir) : Memory → Memory → Prop :=
  passPhase s p.base.toNat (stage1Places g.fftLen.toNat g.twidMod.toNat)
    (stage1Quad (readTwiddle s.params.twiddleRom) dir)

/-- The phase of middle stage `k` (R110, R114). -/
def middlePhase (s : State) (g : Engine) (p : Pending) (dir : Dir) (k : Nat) : Memory → Memory → Prop :=
  passPhase s p.base.toNat (middlePlaces g.fftLen.toNat g.twidMod.toNat k)
    (middleQuad (readTwiddle s.params.twiddleRom) dir)

/-- The last-stage phase (R120, R122). -/
def lastPhase (s : State) (g : Engine) (p : Pending) (dir : Dir) : Memory → Memory → Prop :=
  passPhase s p.base.toNat (lastPlaces g.fftLen.toNat) (fun _ => lastQuad s.params.invLastSat dir)

/-- The phases of a command in order; those of `TRANSFORM` are of the direction `IFFT` selects, with the bit
reversal where `BITREV` is 1 (R142). -/
def phasesOf (s : State) (g : Engine) (p : Pending) : Instr → List (Memory → Memory → Prop)
  | .init _ _ => []
  | .transform =>
    let dir : Dir := if g.ifft then .inv else .fwd
    [stage1Phase s g p dir] ++ (List.range' 1 (log4 g.fftLen.toNat - 2)).map (middlePhase s g p dir)
      ++ [lastPhase s g p dir] ++ (if g.bitrev then [bitrevPhase s p.base.toNat g.fftLen.toNat] else [])
  | .stage1Fwd => [stage1Phase s g p .fwd]
  | .stage1Inv => [stage1Phase s g p .inv]
  | .middleFwd k => [middlePhase s g p .fwd k]
  | .middleInv k => [middlePhase s g p .inv k]
  | .lastFwd => [lastPhase s g p .fwd]
  | .lastInv => [lastPhase s g p .inv]
  | .bitrev => [bitrevPhase s p.base.toNat g.fftLen.toNat]

/-- Engine `g` owns the range `[lo, hi)`: it holds a latched command that touches the buffer, which is any but
`INIT`, is initialized, and the command passes its checks (R42). -/
def ownsRange (memWords : Nat) (g : Engine) (lo hi : Nat) : Prop :=
  ∃ p i, g.pending = some p ∧ decode p.cmd = .ok i ∧ (∀ ifft bitrev, i ≠ .init ifft bitrev) ∧ g.initValid = true
    ∧ stageOk i g ∧ bufferEnd g p ≤ memWords ∧ lo = p.base.toNat ∧ hi = bufferEnd g p

/-- Some engine owns word `a` (R162). -/
def owned (s : State) (a : Nat) : Prop := ∃ g ∈ s.engines, g.ownsWord s.params.memWords a = true

/-- Byte `n` of a word, the lowest address first (R52). -/
def laneOf (v : Word) (n : Nat) : Byte := v.extractLsb' (8 * n) 8

end Sys2Proof.Claims

open Sys2Proof Sys2Proof.Machine Sys2Proof.Claims

/-! ### Arithmetic -/

/-- R86. -/
def Obligations.WrapIsReductionModulo2To32 : Prop :=
  ∀ v : Int, s32 (wrap32 v) = (v + 2 ^ 31) % 2 ^ 32 - 2 ^ 31

/-- R87, its corner cases included. -/
def Obligations.AddAndSubtractWrap : Prop :=
  (∀ a b : Word, add32 a b = wrap32 (s32 a + s32 b) ∧ sub32 a b = wrap32 (s32 a - s32 b)
      ∧ s32 (add32 a b) = narrow (s32 a + s32 b) ∧ s32 (sub32 a b) = narrow (s32 a - s32 b)
      ∧ add32 a b = a + b ∧ sub32 a b = a - b)
    ∧ add32 0x7FFFFFFF#32 1#32 = 0x80000000#32
    ∧ sub32 0x80000000#32 1#32 = 0x7FFFFFFF#32
    ∧ sub32 0#32 0x80000000#32 = 0x80000000#32

/-- R88, its corner cases included: the floor, and the sign bit replicated. -/
def Obligations.ShiftRightFloors : Prop :=
  (∀ (a : Word) (n : Nat), s32 (asr a n) = (s32 a).fdiv (2 ^ n) ∧ asr a n = a.sshiftRight n)
    ∧ (∀ n ∈ [1, 2, 4], asr 0xFFFFFFFF#32 n = 0xFFFFFFFF#32)
    ∧ asr 0x80000000#32 4 = 0xF8000000#32
    ∧ asr 0x7FFFFFFF#32 4 = 0x07FFFFFF#32
    ∧ asr (BitVec.ofInt 32 (-17)) 4 = BitVec.ofInt 32 (-2)

/-- R89: the wrapping left shift, and that it goes through the wrapping add. -/
def Obligations.ShiftLeftWraps : Prop :=
  (∀ a : Word, shl1 a = wrap32 (2 * s32 a) ∧ shl1 a = a <<< 1)
    ∧ (∀ p q : Word, shl1 (add32 p q) = add32 (shl1 p) (shl1 q))
    ∧ shl1 0x40000000#32 = 0x80000000#32

/-- R90: the floor, and bits 63:32 of the exact signed 64-bit product; with its corner cases. -/
def Obligations.MulhiIsUpperProductWord : Prop :=
  (∀ a b : Word, s32 (mulhi a b) = (s32 a * s32 b).fdiv (2 ^ 32)
      ∧ mulhi a b = (a.signExtend 64 * b.signExtend 64).extractLsb' 32 32
      ∧ (a.signExtend 64 * b.signExtend 64).toInt = s32 a * s32 b)
    ∧ mulhi 0x80000000#32 0x80000000#32 = 0x40000000#32
    ∧ (∀ x : Word, mulhi x 0#32 = 0#32)
    ∧ mulhi 0xFFFFFFFF#32 1#32 = 0xFFFFFFFF#32
    ∧ mulhi 0x7FFFFFFF#32 0x7FFFFFFF#32 = 0x3FFFFFFF#32

/-- R91, the value of the clamp. -/
def Obligations.SaturationClamps : Prop :=
  ∀ v : Int, s32 (sat32 v) = min (max v (-(2 ^ 31))) (2 ^ 31 - 1)

/-- R95: each combination is the wrapped value of its exact integer sum. -/
def Obligations.CombinationsAreWrappedExactSums : Prop :=
  ∀ v : Quad,
    parts (combos v).sum = both narrow (sumZ (parts v.s0) (parts v.s1) (parts v.s2) (parts v.s3))
      ∧ parts (combos v).alt = both narrow (altZ (parts v.s0) (parts v.s1) (parts v.s2) (parts v.s3))
      ∧ parts (combos v).qf = both narrow (minusJ (parts v.s0) (parts v.s1) (parts v.s2) (parts v.s3))
      ∧ parts (combos v).qi = both narrow (plusJ (parts v.s0) (parts v.s1) (parts v.s2) (parts v.s3))

/-- R101 and R106 (d): what `BFLY1` writes, in integers. No sum and no output shift wraps. -/
def Obligations.Stage1ButterflyValues : Prop :=
  ∀ (tw : Nat → Word × Word) (dir : Dir) (k : Nat) (v : Quad) (a b c d : Zc),
    a = both (fun x => x.fdiv 16) (parts v.s0) → b = both (fun x => x.fdiv 16) (parts v.s1) →
    c = both (fun x => x.fdiv 16) (parts v.s2) → d = both (fun x => x.fdiv 16) (parts v.s3) →
      parts (stage1Quad tw dir k v).s0 = sumZ a b c d
        ∧ parts (stage1Quad tw dir k v).s1
            = both (fun x => 2 * x) (rotZ dir (altZ a b c d) (tw (2 * k)))
        ∧ parts (stage1Quad tw dir k v).s2
            = both (fun x => 2 * x) (rotZ dir (crossZ dir a b c d) (tw k))
        ∧ parts (stage1Quad tw dir k v).s3
            = both (fun x => 2 * x) (rotZ dir (crossZ' dir a b c d) (tw (3 * k)))

/-- R111: what `BFLYM` writes, in integers: the sum wraps before its shift. -/
def Obligations.MiddleButterflyValues : Prop :=
  ∀ (tw : Nat → Word × Word) (dir : Dir) (k : Nat) (v : Quad) (a b c d : Zc),
    a = parts v.s0 → b = parts v.s1 → c = parts v.s2 → d = parts v.s3 →
      parts (middleQuad tw dir k v).s0 = both (fun x => (narrow x).fdiv 4) (sumZ a b c d)
        ∧ parts (middleQuad tw dir k v).s1
            = both (fun x => (narrow x).fdiv 2) (rotZ dir (both narrow (altZ a b c d)) (tw (2 * k)))
        ∧ parts (middleQuad tw dir k v).s2
            = both (fun x => (narrow x).fdiv 2) (rotZ dir (both narrow (crossZ dir a b c d)) (tw k))
        ∧ parts (middleQuad tw dir k v).s3
            = both (fun x => (narrow x).fdiv 2) (rotZ dir (both narrow (crossZ' dir a b c d)) (tw (3 * k)))

/-- R120 and R122: what a group of the last stage writes, in integers: wrapped sums forward, clamped
sums inverse, in either structure of `INV_LAST_SAT`. -/
def Obligations.LastStageGroupValues : Prop :=
  ∀ (mode : SatMode) (v : Quad) (a b c d : Zc),
    a = parts v.s0 → b = parts v.s1 → c = parts v.s2 → d = parts v.s3 →
      (parts (lastQuad mode .fwd v).s0 = both narrow (sumZ a b c d)
        ∧ parts (lastQuad mode .fwd v).s1 = both narrow (altZ a b c d)
        ∧ parts (lastQuad mode .fwd v).s2 = both narrow (minusJ a b c d)
        ∧ parts (lastQuad mode .fwd v).s3 = both narrow (plusJ a b c d))
      ∧ (parts (lastQuad .exact .inv v).s0 = both clamp (sumZ a b c d)
        ∧ parts (lastQuad .exact .inv v).s1 = both clamp (altZ a b c d)
        ∧ parts (lastQuad .exact .inv v).s2 = both clamp (plusJ a b c d)
        ∧ parts (lastQuad .exact .inv v).s3 = both clamp (minusJ a b c d))
      ∧ (parts (lastQuad .pairwise .inv v).s0
            = (clamp (clamp (a.1 + c.1) + clamp (b.1 + d.1)), clamp (clamp (a.2 + c.2) + clamp (b.2 + d.2)))
        ∧ parts (lastQuad .pairwise .inv v).s1
            = (clamp (clamp (a.1 + c.1) - clamp (b.1 + d.1)), clamp (clamp (a.2 + c.2) - clamp (b.2 + d.2)))
        ∧ parts (lastQuad .pairwise .inv v).s2
            = (clamp (clamp (a.1 - c.1) - clamp (b.2 - d.2)), clamp (clamp (a.2 - c.2) + clamp (b.1 - d.1)))
        ∧ parts (lastQuad .pairwise .inv v).s3
            = (clamp (clamp (a.1 - c.1) + clamp (b.2 - d.2)), clamp (clamp (a.2 - c.2) - clamp (b.1 - d.1))))

/-! ### Encoding -/

/-- Decoding the word of a well-formed command gives the command back (R71 to R76). -/
def Obligations.DecodeOfEncode : Prop :=
  ∀ i : Instr, i.wf = true → decode (encode i) = .ok i

/-- A word that decodes is the word of the command it decodes to, and the command is well formed (R76). -/
def Obligations.EncodeOfDecode : Prop :=
  ∀ (w : Word) (i : Instr), decode w = .ok i → i.wf = true ∧ encode i = w

/-- R77, R78 and R80: at most one row encodes a word, a word is a command exactly when a row encodes it,
and every other word is illegal, by the name of the rule that makes it so. -/
def Obligations.EveryWordDecodesOrIsIllegal : Prop :=
  ∀ w : Word,
    (∀ o o' : Opcode, o.encodes w = true → o'.encodes w = true → o = o')
      ∧ ((∃ i, decode w = .ok i) ↔ ∃ o : Opcode, o.encodes w = true)
      ∧ (decode w = .error .reservedOpcode ↔ fieldOpc w = 0 ∨ 10 ≤ fieldOpc w)
      ∧ (decode w = .error .reservedBits ↔
          1 ≤ fieldOpc w ∧ fieldOpc w ≤ 9 ∧ ∀ o : Opcode, o.encodes w = false)

/-- Words written out from the field layout of R71 decode to what they stand for (R76 to R78, R82). -/
def Obligations.SpecWordsDecode : Prop :=
  decode 0b00000000000000000000000000010001#32 = .ok (.init true false)
    ∧ decode 0b00000000000000000000000000100001#32 = .ok (.init false true)
    ∧ decode 0b00000000000000000000000000000010#32 = .ok .transform
    ∧ decode 0b00000000000000000000000000000100#32 = .ok .stage1Inv
    ∧ decode 0b00000000000000000000000100000101#32 = .ok (.middleFwd 1)
    ∧ decode 0b00000000000000000000111100000110#32 = .ok (.middleInv 15)
    ∧ decode 0b00000000000000000000000000001000#32 = .ok .lastInv
    ∧ decode 0b00000000000000000000000000001001#32 = .ok .bitrev
    ∧ decode 0b00000000000000000000000001000001#32 = .error .reservedBits
    ∧ decode 0b10000000000000000000000000001001#32 = .error .reservedBits
    ∧ decode 0b00000000000000000000000000000000#32 = .error .reservedOpcode
    ∧ decode 0b00000000000000000000000000001010#32 = .error .reservedOpcode

/-! ### The step -/

/-- R151: a step that takes the completion step of an engine executes the command its latched word decodes
to, in the state whose active engine is that one; so does a `WAIT` on it, which stays scheduled, and so
does a machine with nothing scheduled, for its first busy engine. Around it: a scheduled completion of an
idle engine only passes the turn, a `WAIT` on an idle engine reads `STATUS` and ends (R83), and a machine with
nothing scheduled and no engine busy stays as it is (R170). The schedule is the model's choice (assumption 5). -/
def Obligations.StepExecutesDecodedCommand : Prop :=
  (∀ (s : State) (e : Nat) (rest : List Action) (g : Engine) (p : Pending) (i : Instr),
      s.engines[e]? = some g → g.pending = some p → decode p.cmd = .ok i →
        (s.schedule = .complete e :: rest → step s = exec i { s with schedule := rest, active := e })
          ∧ (s.schedule = .wait e :: rest → step s = exec i { s with active := e })
          ∧ (s.schedule = [] →
              (∀ (k : Nat) (h : Engine), k < e → s.engines[k]? = some h → h.pending = none) →
              step s = exec i { s with active := e }))
    ∧ (∀ (s : State) (e : Nat) (rest : List Action) (g : Engine),
        s.engines[e]? = some g → g.pending = none →
          (s.schedule = .complete e :: rest → step s = .next { s with schedule := rest })
            ∧ (s.schedule = .wait e :: rest →
                step s = .next { s with schedule := rest, hostData := g.statusWord }))
    ∧ (∀ s : State, s.schedule = [] → (∀ h ∈ s.engines, h.pending = none) → step s = .next s)

/-- R154: the completion step of a word that encodes no command, however it comes up, and the step that takes
it from the schedule. -/
def Obligations.IllegalWordCompletesWithItsCode : Prop :=
  ∀ (s : State) (e : Nat) (g : Engine) (p : Pending) (x : Illegal),
    s.engines[e]? = some g → g.pending = some p → decode p.cmd = .error x →
      State.completionStep e s = .next (stopped .illegalCommand { s with active := e })
        ∧ ∀ rest, s.schedule = .complete e :: rest →
            step s = .next (stopped .illegalCommand { s with schedule := rest, active := e })

/-- The state a host builds to run one word runs exactly it: the word is latched with `BUF_BASE` and
`REQ_LEN`, as an accepted `CMD` write latches it (R36). How a word comes to run is the model's choice (assumption 2). -/
def Obligations.FetchedWordRunsNext : Prop :=
  ∀ (s : State) (nbits w : Nat) (i : Instr) (g : Engine),
    s.engines[s.active]? = some g → decodeTableWord nbits w = some i →
      step (s.withFetchWord nbits w) =
        exec i { s with
          engines := s.engines.modify s.active (fun h =>
            { h with pending := some { cmd := tableWord nbits w, base := h.bufBase, req := h.reqLen } }) }

/-! ### `INIT` -/

/-- R138: the whole effect of `INIT` on a supported length; everything not named is unchanged. -/
def Obligations.InitOfSupportedLength : Prop :=
  ∀ (s : State) (g : Engine) (p : Pending) (ifft bitrev : Bool), s.Latched g p →
    supported p.req.toNat = true →
      exec (.init ifft bitrev) s = .next { s with
        engines := s.engines.modify s.active (fun h =>
          { h with
            initValid := true
            fftLen := p.req
            ifft := ifft
            bitrev := bitrev
            twidMod := BitVec.ofNat 32 (4096 / p.req.toNat)
            bitrevMod := BitVec.ofNat 32 (4096 / p.req.toNat)
            oneByFftLen := BitVec.ofNat 32 (2147483648 / p.req.toNat)
            result := .ok
            pending := none
            spoilt := false
            overlaps := [] }) }

/-- R139: the whole effect of `INIT` on an unsupported length; everything not named is unchanged. The lengths
the rule lists are unsupported: 0, what is no power of 4, 32, 128, 512, 2048, 1, 4, and each power of 4 above `M`. -/
def Obligations.InitOfUnsupportedLength : Prop :=
  (∀ (s : State) (g : Engine) (p : Pending) (ifft bitrev : Bool), s.Latched g p →
    supported p.req.toNat = false →
      exec (.init ifft bitrev) s = .next { s with
        engines := s.engines.modify s.active (fun h =>
          { h with
            initValid := false
            fftLen := 0
            ifft := false
            bitrev := false
            twidMod := 0
            bitrevMod := 0
            oneByFftLen := 0
            result := .unsupportedLength
            errSticky := true
            pending := none
            spoilt := false
            overlaps := [] }) })
    ∧ (∀ n ∈ [0, 32, 128, 512, 2048, 1, 4], supported n = false)
    ∧ (∀ n : Nat, (∀ l, n ≠ 4 ^ l) → supported n = false)
    ∧ ∀ l : Nat, 4096 < 4 ^ l → supported (4 ^ l) = false

/-- R140: a row is `(REQ_LEN, L, middle stages, TWID_MOD, BITREV_MOD, ONEBYFFTLEN)`. -/
def Obligations.InitDescriptorTable : Prop :=
  ∀ row ∈ [(16, 2, 0, 256, 256, 0x08000000), (64, 3, 1, 64, 64, 0x02000000),
      (256, 4, 2, 16, 16, 0x00800000), (1024, 5, 3, 4, 4, 0x00200000), (4096, 6, 4, 1, 1, 0x00080000)],
    ∀ (s : State) (g : Engine) (p : Pending) (ifft bitrev : Bool), s.Latched g p → p.req.toNat = row.1 →
      ∃ t h, exec (.init ifft bitrev) s = .next t ∧ t.engines[s.active]? = some h
        ∧ h.fftLen.toNat = row.1 ∧ log4 row.1 = row.2.1
        ∧ (List.range' 1 (log4 row.1 - 2)).length = row.2.2.1
        ∧ h.twidMod.toNat = row.2.2.2.1 ∧ h.bitrevMod.toNat = row.2.2.2.2.1
        ∧ h.oneByFftLen.toNat = row.2.2.2.2.2

/-- R9: the supported lengths are the powers `4^L` with `L >= 2` up to `M`; the lengths 32, 128, 512 and
2048 are not among them. -/
def Obligations.SupportedLengthsArePowersOf4 : Prop :=
  (∀ n : Nat, supported n = true ↔ ∃ l, 2 ≤ l ∧ 4 ^ l ≤ 4096 ∧ n = 4 ^ l)
    ∧ (∀ n : Nat, supported n = true ↔ n = 16 ∨ n = 64 ∨ n = 256 ∨ n = 1024 ∨ n = 4096)
    ∧ (∀ n : Nat, supported n = true → n = 4 ^ log4 n)

/-- R56: `INIT` applied twice with the same word and `REQ_LEN` leaves the same state as once. -/
def Obligations.InitTwiceIsInitOnce : Prop :=
  ∀ (s t : State) (g : Engine) (p : Pending) (ifft bitrev : Bool), s.Latched g p →
    exec (.init ifft bitrev) s = .next t →
      exec (.init ifft bitrev) { t with
        engines := t.engines.modify t.active (fun h => { h with pending := some p }) } = .next t

/-! ### Checks and completion -/

/-- R48, R153 and R155 for the eight buffer-touching commands: the first failing check ends the command
with its code, before any access and with no other effect. -/
def Obligations.FailedCheckStopsWithItsCode : Prop :=
  ∀ (i : Instr) (s : State) (g : Engine) (p : Pending), i.touchesBuffer = true → s.Latched g p →
    (g.initValid = false → exec i s = .next (stopped .notInitialized s))
      ∧ (g.initValid = true → ¬ stageOk i g → exec i s = .next (stopped .badStage s))
      ∧ (g.initValid = true → stageOk i g → s.params.memWords < p.base.toNat + 2 * g.fftLen.toNat →
          exec i s = .next (stopped .badBuffer s))

/-- R155: each of the eight buffer-touching commands, its checks passed on a written buffer, completes with
`OK`, whatever other engines do at the same time. -/
def Obligations.PassedChecksCompleteWithOk : Prop :=
  ∀ (i : Instr) (s : State) (g : Engine) (p : Pending), i.touchesBuffer = true → s.Runnable g p →
    stageOk i g →
      ∃ t h, exec i s = .next t ∧ t.engines[s.active]? = some h ∧ h.result = .ok ∧ h.pending = none
        ∧ h.errSticky = g.errSticky

/-! ### Results of the passes -/

/-- R100, R104: after `STAGE1_FWD` or `STAGE1_INV` the samples of group `k` are `BFLY1` of the samples
before, at base index `k * TWID_MOD`; one event is appended, and no byte outside the buffer changes. -/
def Obligations.Stage1PassResult : Prop :=
  ∀ (dir : Dir) (s : State) (g : Engine) (p : Pending), s.Undisturbed g p →
    ∃ t, exec (stage1Of dir) s = .next t
      ∧ t.engines[s.active]? = some (g.completed [.s1 dir g.twidMod.toNat])
      ∧ sameOutside p.base.toNat (bufferEnd g p) s t
      ∧ ∀ k, k < g.fftLen.toNat / 4 → ∀ v,
          s.quadAt p.base.toNat (spaced k (g.fftLen.toNat / 4)) = some v →
          t.quadAt p.base.toNat (spaced k (g.fftLen.toNat / 4)) =
            some (stage1Quad (readTwiddle s.params.twiddleRom) dir (k * g.twidMod.toNat) v)

/-- R110, R114: after `MIDDLE_FWD s` or `MIDDLE_INV s` the samples of the butterfly at position `j` of
sub-block `m` are `BFLYM` of the samples before, at base index `j * TWID_MOD * 4^s`. -/
def Obligations.MiddlePassResult : Prop :=
  ∀ (dir : Dir) (stage : Nat) (s : State) (g : Engine) (p : Pending), s.Undisturbed g p →
    1 ≤ stage → stage ≤ log4 g.fftLen.toNat - 2 →
    ∃ t, exec (middleOf dir stage) s = .next t
      ∧ t.engines[s.active]? = some (g.completed [.mid dir stage (g.twidMod.toNat * 4 ^ stage)])
      ∧ sameOutside p.base.toNat (bufferEnd g p) s t
      ∧ ∀ j m, j < g.fftLen.toNat / 4 ^ stage / 4 → m < 4 ^ stage → ∀ v,
          s.quadAt p.base.toNat
              (spaced (j + m * (g.fftLen.toNat / 4 ^ stage)) (g.fftLen.toNat / 4 ^ stage / 4)) = some v →
          t.quadAt p.base.toNat
              (spaced (j + m * (g.fftLen.toNat / 4 ^ stage)) (g.fftLen.toNat / 4 ^ stage / 4)) =
            some (middleQuad (readTwiddle s.params.twiddleRom) dir (j * (g.twidMod.toNat * 4 ^ stage)) v)

/-- R120, R122: after `LAST_FWD` or `LAST_INV` the four samples of each contiguous group are the last-stage
combinations of the samples before, in the structure `INV_LAST_SAT`. -/
def Obligations.LastPassResult : Prop :=
  ∀ (dir : Dir) (s : State) (g : Engine) (p : Pending), s.Undisturbed g p →
    ∃ t, exec (lastOf dir) s = .next t
      ∧ t.engines[s.active]? = some (g.completed [.last dir])
      ∧ sameOutside p.base.toNat (bufferEnd g p) s t
      ∧ ∀ k, k < g.fftLen.toNat / 4 → ∀ v,
          s.quadAt p.base.toNat (spaced (4 * k) 1) = some v →
          t.quadAt p.base.toNat (spaced (4 * k) 1) = some (lastQuad s.params.invLastSat dir v)

/-- R130 to R132: after `BITREV` sample `i` is the sample that was at `rev_b(i)`. Only the samples that are
swapped need to have been written, and the descriptor's `BITREV` flag does not matter. -/
def Obligations.BitrevPassResult : Prop :=
  ∀ (s : State) (g : Engine) (p : Pending), s.Latched g p → g.initValid = true → g.descriptorOk →
    bufferEnd g p ≤ s.params.memWords → s.exclusive p.base.toNat (bufferEnd g p) →
    g.spoilt = false → g.overlaps = [] →
    (∀ i, i < g.fftLen.toNat → revBits (log2 g.fftLen.toNat) i ≠ i →
      (s.sampleAt p.base.toNat i).isSome = true) →
    ∃ t, exec .bitrev s = .next t
      ∧ t.engines[s.active]? = some (g.completed [.br])
      ∧ sameOutside p.base.toNat (bufferEnd g p) s t
      ∧ ∀ i, i < g.fftLen.toNat →
          t.sampleAt p.base.toNat i = s.sampleAt p.base.toNat (revBits (log2 g.fftLen.toNat) i)

/-- R131, R132: bit `t` of `rev_b(i)` is bit `b-1-t` of `i`, and `rev_b` is an involution of `[0, 2^b)`. -/
def Obligations.ReversedIndexIsAnInvolution : Prop :=
  ∀ b i : Nat, i < 2 ^ b →
    revBits b i < 2 ^ b ∧ revBits b (revBits b i) = i
      ∧ ∀ t, t < b → (revBits b i).testBit t = i.testBit (b - 1 - t)

/-! ### `TRANSFORM` -/

/-- R144: `TRANSFORM` leaves the same data memory and the same trace as its component commands, those of `INV`
where `IFFT = 1` and of `FWD` where `IFFT = 0`, executed one after another on the same engine, base and
descriptor. -/
def Obligations.TransformEqualsItsComponents : Prop :=
  ∀ (s : State) (g : Engine) (p : Pending), s.Undisturbed g p →
    ∃ t u, exec .transform s = .next t
      ∧ execAll p (componentCommands g) s = .next u
      ∧ t.mem = u.mem
      ∧ (t.engines[s.active]?).map Engine.trace = (u.engines[s.active]?).map Engine.trace

/-- R142, R143: the events `TRANSFORM` appends, of direction `INV` where `IFFT = 1` and `FWD` where `IFFT = 0`, and that it touches nothing of its engine but `STATUS` and
the trace, nor a byte outside the buffer. -/
def Obligations.TransformTrace : Prop :=
  ∀ (s : State) (g : Engine) (p : Pending), s.Undisturbed g p →
    ∃ t, exec .transform s = .next t
      ∧ t.engines[s.active]? = some (g.completed (transformEvents g))
      ∧ sameOutside p.base.toNat (bufferEnd g p) s t

/-- R145 (c): all-zero input gives all-zero output, in both directions and for every length and ROM. -/
def Obligations.ZeroInputGivesZeroOutput : Prop :=
  ∀ (s : State) (g : Engine) (p : Pending), s.Undisturbed g p →
    (∀ i, i < g.fftLen.toNat → s.sampleAt p.base.toNat i = some { re := 0, im := 0 }) →
    ∃ t, exec .transform s = .next t
      ∧ ∀ i, i < g.fftLen.toNat → t.sampleAt p.base.toNat i = some { re := 0, im := 0 }

/-- R133: two `BITREV` commands on the same buffer restore every byte of the memory. -/
def Obligations.BitrevTwiceRestoresTheBuffer : Prop :=
  ∀ (s : State) (g : Engine) (p : Pending), s.Undisturbed g p →
    ∃ u, execAll p [.bitrev, .bitrev] s = .next u
      ∧ ∀ b, Memory.readByte u.mem b = Memory.readByte s.mem b

/-- R136: `TRANSFORM` with the flag `BITREV` on equals `TRANSFORM` with it off followed by `BITREV`, and
`out_on[k] = out_off[rev_b(k)]`. -/
def Obligations.BitrevFlagPermutesTheOutput : Prop :=
  ∀ (s : State) (g : Engine) (p : Pending), s.Undisturbed g p → g.bitrev = false →
    ∃ t u w, exec .transform s = .next t
      ∧ exec .transform { s with
          engines := s.engines.modify s.active (fun h => { h with bitrev := true }) } = .next u
      ∧ execAll p [.transform, .bitrev] s = .next w ∧ u.mem = w.mem
      ∧ ∀ k, k < g.fftLen.toNat →
          u.sampleAt p.base.toNat k = t.sampleAt p.base.toNat (revBits (log2 g.fftLen.toNat) k)

/-! ### Frames and invariants -/

/-- R47, R105, R115, R123: what a buffer-touching command leaves unchanged, hazards or not: every byte
outside its buffer; of its engine every register but `STATUS`, with `HAZARD` and the past of the trace. R162: a
command that runs to its end sets `HAZARD` on another engine, and spoils its range, exactly where the engine owns a
word the command accesses, and what the engine keeps of its overlaps with the command's is marked over (R161).
Of the other engines nothing else changes, and nothing at all where the command is stopped by a check. The
bookkeeping is assumption 7. -/
def Obligations.BufferCommandFrame : Prop :=
  ∀ (i : Instr) (s t : State) (g : Engine) (p : Pending), i.touchesBuffer = true → s.Latched g p →
    g.descriptorOk → exec i s = .next t →
      t.params = s.params ∧ t.active = s.active ∧ t.schedule = s.schedule ∧ t.hostData = s.hostData
        ∧ t.engines.length = s.engines.length
        ∧ sameOutside p.base.toNat (bufferEnd g p) s t
        ∧ ∃ h evs, t.engines[s.active]? = some h ∧ g.sameRegisters h ∧ h.hazard = g.hazard
            ∧ h.pending = none ∧ h.trace = g.trace ++ evs ∧ h.spoilt = false ∧ h.overlaps = []
            ∧ ∀ k g', k ≠ s.active → s.engines[k]? = some g' →
                (h.result = .ok →
                  ((∃ a, accesses i g p a ∧ g'.ownsWord s.params.memWords a = true) →
                    t.engines[k]? = some { g' with
                      hazard := true, spoilt := true, overlaps := withPartnerDone s.active g'.overlaps })
                  ∧ ((∀ a, accesses i g p a → g'.ownsWord s.params.memWords a = false) →
                    t.engines[k]? = some { g' with overlaps := withPartnerDone s.active g'.overlaps }))
                ∧ (h.result ≠ .ok → t.engines[k]? = some g')

/-- R124 (f), R134: the last stage and the bit reversal do not depend on the twiddle ROM. -/
def Obligations.LastStageAndBitrevIgnoreTwiddles : Prop :=
  ∀ (i : Instr) (rom : TwiddleRom) (s : State) (g : Engine) (p : Pending),
    i = .lastFwd ∨ i = .lastInv ∨ i = .bitrev → s.Undisturbed g p →
    ∃ t u, exec i s = .next t
      ∧ exec i { s with params := { s.params with twiddleRom := rom } } = .next u
      ∧ ∀ b, Memory.readByte u.mem b = Memory.readByte t.mem b

/-- Every step keeps the invariant: parameters in their ranges (R12, R57), a twiddle ROM of the right size (R37),
`ENGINE_COUNT` engines (R169), the canonical memory inside `MEM_WORDS` words, legal descriptors (R28 to R32) and errors that stick (R25). -/
def Obligations.StepKeepsTheInvariant : Prop :=
  ∀ s t : State, s.Inv → step s = .next t → t.Inv

/-- The machine after reset meets the invariant, and so does the machine after power-up with any parameters in
their ranges. -/
def Obligations.ResetMeetsTheInvariant : Prop :=
  State.reset.Inv ∧ ∀ params : Params, params.wf → (State.powerUp params).Inv

/-- R12, R169: no step changes a parameter, the ROM among them (R37), or the number of engines. -/
def Obligations.StepKeepsParametersAndEngines : Prop :=
  ∀ s t : State, step s = .next t → t.params = s.params ∧ t.engines.length = s.engines.length

/-- R25, R159: `ERR_STICKY` and `HAZARD` stay 1 until a reset of their engine. -/
def Obligations.StickyBitsStay : Prop :=
  ∀ (s t : State) (k : Nat) (g : Engine), step s = .next t → s.schedule.head? ≠ some (.reset k) →
    s.engines[k]? = some g →
      ∃ h, t.engines[k]? = some h ∧ (g.errSticky = true → h.errSticky = true)
        ∧ (g.hazard = true → h.hazard = true)

/-! ### The register block -/

/-- R25: the bits of `STATUS` as a host reads it, with R36 for `BUSY` and R152 for the codes. -/
def Obligations.StatusWordFields : Prop :=
  (∀ g : Engine,
      g.statusWord.getLsbD 0 = g.initValid ∧ g.statusWord.getLsbD 1 = g.pending.isSome
        ∧ g.statusWord.getLsbD 2 = false ∧ g.statusWord.getLsbD 3 = false
        ∧ g.statusWord.extractLsb' 4 4 = g.result.code
        ∧ g.statusWord.getLsbD 8 = g.errSticky ∧ g.statusWord.getLsbD 9 = g.hazard
        ∧ ∀ n, 10 ≤ n → g.statusWord.getLsbD n = false)
    ∧ ResultCode.ok.code = 0 ∧ ResultCode.unsupportedLength.code = 1 ∧ ResultCode.illegalCommand.code = 2
    ∧ ResultCode.notInitialized.code = 3 ∧ ResultCode.badStage.code = 4 ∧ ResultCode.badBuffer.code = 5

/-- R23, R24, R29, R34: what a host reads of each register; the read changes nothing else. -/
def Obligations.RegisterReads : Prop :=
  ∀ (s : State) (e : Nat) (rest : List Action) (g : Engine), s.engines[e]? = some g →
    ∀ row ∈ [(RegName.cmd, (0 : Word)), (.status, g.statusWord), (.bufBase, g.bufBase), (.reqLen, g.reqLen),
        (.fftLen, g.fftLen), (.descFlags, BitVec.ofNat 32 (g.ifft.toNat + 2 * g.bitrev.toNat)),
        (.twidMod, g.twidMod), (.bitrevMod, g.bitrevMod), (.oneByFftLen, g.oneByFftLen), (.reserved, 0)],
      s.schedule = .get e row.1 :: rest →
        step s = .next { s with schedule := rest, hostData := row.2 }

/-- R33: offsets 0x9 to 0xF read 0, and a write to one changes no state. -/
def Obligations.ReservedOffsets : Prop :=
  (∀ n, 9 ≤ n → n ≤ 15 → RegName.ofOffset n = some .reserved)
    ∧ ∀ (s : State) (e : Nat) (rest : List Action) (g : Engine) (v : Word), s.engines[e]? = some g →
        (s.schedule = .get e .reserved :: rest → step s = .next { s with schedule := rest, hostData := 0 })
          ∧ (s.schedule = .set e .reserved v :: rest → step s = .next { s with schedule := rest })

/-- R34: a write to a read-only register is ignored, while busy as at any time (R160). -/
def Obligations.ReadOnlyWritesAreIgnored : Prop :=
  ∀ (s : State) (e : Nat) (rest : List Action) (g : Engine) (v : Word) (r : RegName),
    s.engines[e]? = some g →
    r ∈ [RegName.status, .fftLen, .descFlags, .twidMod, .bitrevMod, .oneByFftLen] →
    s.schedule = .set e r v :: rest → step s = .next { s with schedule := rest }

/-- R24, R36: a `CMD` write to an idle engine latches the word with `BUF_BASE` and `REQ_LEN` and so sets
`BUSY`; of the rest of the machine only hazards and their bookkeeping (assumption 7) can change. Where no other
engine is busy the whole next state is given: no hazard, and nothing that disturbs the new command. -/
def Obligations.IdleCommandWriteLatches : Prop :=
  ∀ (s : State) (e : Nat) (rest : List Action) (g : Engine) (v : Word), s.engines[e]? = some g →
    g.pending = none → s.schedule = .set e .cmd v :: rest →
      (∃ t h, step s = .next t ∧ t.engines[e]? = some h
        ∧ h.pending = some { cmd := v, base := g.bufBase, req := g.reqLen } ∧ h.busy = true
        ∧ g.sameRegisters h ∧ h.result = g.result ∧ h.errSticky = g.errSticky ∧ h.trace = g.trace
        ∧ h.spoilt = false ∧ t.engines.length = s.engines.length
        ∧ t.mem = s.mem ∧ t.params = s.params ∧ t.schedule = rest ∧ t.active = s.active
        ∧ t.hostData = s.hostData ∧ t.freeCount = s.freeCount)
      ∧ ((∀ k g', k ≠ e → s.engines[k]? = some g' → g'.pending = none) →
          step s = .next { s with
            schedule := rest
            engines := s.engines.modify e (fun h =>
              { h with
                pending := some { cmd := v, base := h.bufBase, req := h.reqLen }
                spoilt := false
                overlaps := [] }) })

/-- R42: the owned range of an engine, the words in it, and which words are foreign to an agent. R161: a `CMD`
write accepted on an idle engine sets `HAZARD` on it and on a busy engine exactly where the two own a common word,
and each of the two then remembers exactly the words they share, the other's command not yet over (assumption 7).
Nothing else of the other engines changes. -/
def Obligations.OverlappingBuffersSetBothHazards : Prop :=
  (∀ (memWords : Nat) (g : Engine),
      (∀ lo hi, g.owned memWords = some (lo, hi) ↔ ownsRange memWords g lo hi)
        ∧ (∀ a, g.ownsWord memWords a = true ↔ ∃ lo hi, ownsRange memWords g lo hi ∧ lo ≤ a ∧ a < hi))
    ∧ (∀ (s : State) (who : Option Nat) (a : Nat), s.foreign who a = true ↔
        ∃ (k : Nat) (g : Engine), s.engines[k]? = some g ∧ who ≠ some k ∧ g.ownsWord s.params.memWords a = true)
    ∧ ∀ (s : State) (e : Nat) (rest : List Action) (g : Engine) (v : Word), s.engines[e]? = some g →
    g.pending = none → s.schedule = .set e .cmd v :: rest →
      ∃ t h, step s = .next t ∧ t.engines[e]? = some h
        ∧ h.pending = some { cmd := v, base := g.bufBase, req := g.reqLen } ∧ h.spoilt = false
        ∧ (h.hazard = true ↔ g.hazard = true ∨
            ∃ k g', k ≠ e ∧ s.engines[k]? = some g' ∧ shareWord s.params.memWords h g')
        ∧ (∀ o, o ∈ h.overlaps ↔ o.partnerDone = false ∧ o.partner ≠ e
            ∧ ∃ g', s.engines[o.partner]? = some g' ∧ listsShared s.params.memWords h g' o)
        ∧ ∀ k g', k ≠ e → s.engines[k]? = some g' →
            ∃ h', t.engines[k]? = some h' ∧ g'.onlyHazard h' ∧ h'.spoilt = g'.spoilt
              ∧ (h'.hazard = true ↔ g'.hazard = true ∨ shareWord s.params.memWords h g')
              ∧ ∀ o, o ∈ h'.overlaps ↔ o ∈ g'.overlaps
                  ∨ (o.partnerDone = false ∧ o.partner = e ∧ listsShared s.params.memWords h g' o)

/-- R160: a host write of `CMD`, `BUF_BASE` or `REQ_LEN` while busy is ignored and sets `HAZARD`; a write of
any other register while busy is ignored and sets none. -/
def Obligations.BusyWritesAreIgnored : Prop :=
  ∀ (s : State) (e : Nat) (rest : List Action) (g : Engine) (p : Pending) (v : Word) (r : RegName),
    s.engines[e]? = some g → g.pending = some p → s.schedule = .set e r v :: rest →
      (r ∈ [RegName.cmd, .bufBase, .reqLen] →
        step s = .next { s with
          schedule := rest
          engines := s.engines.modify e (fun h => { h with hazard := true }) })
        ∧ (r ∉ [RegName.cmd, .bufBase, .reqLen] → step s = .next { s with schedule := rest })

/-- R26, R27: while idle a write of any value to `BUF_BASE` or `REQ_LEN` changes that register and nothing
else, and the value reads back unchanged. -/
def Obligations.ConfigurationRegistersReadBack : Prop :=
  ∀ (s : State) (e : Nat) (rest : List Action) (g : Engine) (v : Word), s.engines[e]? = some g →
    g.pending = none →
      (s.schedule = .set e .bufBase v :: rest →
        ∃ t, t = { s with schedule := rest, engines := s.engines.modify e (fun h => { h with bufBase := v }) }
          ∧ step s = .next t
          ∧ ∀ later, rest = .get e .bufBase :: later →
              step t = .next { t with schedule := later, hostData := v })
      ∧ (s.schedule = .set e .reqLen v :: rest →
        ∃ t, t = { s with schedule := rest, engines := s.engines.modify e (fun h => { h with reqLen := v }) }
          ∧ step s = .next t
          ∧ ∀ later, rest = .get e .reqLen :: later →
              step t = .next { t with schedule := later, hostData := v })

/-! ### Host access to the data memory -/

/-- R46, R60, R83: a word a host writes outside every owned range reads back. -/
def Obligations.HostWordReadsBack : Prop :=
  ∀ (s : State) (a : Nat) (v : Word) (rest : List Action), a < s.params.memWords →
    s.foreign none a = false → s.schedule = .memw a v :: .memr a :: rest →
      ∃ t u, step s = .next t ∧ step t = .next u ∧ u.hostData = v ∧ t.engines = s.engines
        ∧ u.engines = s.engines

/-- R162, R60 (c), R173: an access to a data-memory word disturbs exactly the engines that own the word, the
accessing engine apart: `HAZARD` after any access, and a spoilt range after a write and not after a read; of the
engines nothing else changes. A read of an owned word gives a free word and any other read the word itself, or,
for a host, a free word where nothing was written; a read changes no memory, a write takes effect. The free words
are assumption 3 and the bookkeeping is assumption 7. -/
def Obligations.OwnedWordAccessSetsHazard : Prop :=
  (∀ (s : State) (a : Nat) (rest : List Action), a < s.params.memWords → s.schedule = .memr a :: rest →
      ∃ v, step s = .next { s with
          schedule := rest, engines := disturbed none a false s, hostData := v, freeCount := s.freeCount + 1 }
        ∧ (owned s a → v = Config.freeWord s.freeCount)
        ∧ (¬ owned s a → ∀ w, Memory.readWord s.mem a = some w → v = w)
        ∧ (¬ owned s a → (∀ n, n < 4 → Memory.readByte s.mem (4 * a + n) = none) →
            v = Config.freeWord s.freeCount))
    ∧ (∀ (s : State) (a : Nat) (v : Word) (rest : List Action), a < s.params.memWords →
        s.schedule = .memw a v :: rest →
        step s = .next { s with
          schedule := rest, engines := disturbed none a true s, mem := Memory.writeWord s.mem a v })
    ∧ (∀ (s : State) (e a : Nat) (w : Word), Memory.readWord s.mem a = some w →
        ((∃ (k : Nat) (g : Engine), k ≠ e ∧ s.engines[k]? = some g ∧ g.ownsWord s.params.memWords a = true) →
          s.engineRead e a = .ok (Config.freeWord s.freeCount,
            { s with engines := disturbed (some e) a false s, freeCount := s.freeCount + 1 }))
        ∧ ((∀ (k : Nat) (g : Engine), k ≠ e → s.engines[k]? = some g → g.ownsWord s.params.memWords a = false) →
          s.engineRead e a = .ok (w, s)))
    ∧ (∀ (s : State) (e a : Nat) (v : Word),
        s.engineWrite e a v =
          { s with engines := disturbed (some e) a true s, mem := Memory.writeWord s.mem a v })

/-- R161 and R162: after a foreign write to the owned range every word of the range holds an unspecified
value once the command has completed; so does every word the range shares with that of a command that has
already completed. Where there was no foreign write, every other word of the range holds what the phases of the
command compute one after another, for every command and whatever ranges overlap (R161: both commands still
execute): on unspecified words in the place of those a phase reads of another engine's range (R162), and on the
stored words elsewhere (R46). So the first of two overlapping commands to complete leaves all its results. The
values are free (assumption 3): the statement holds for every one of them. -/
def Obligations.DisturbedBufferIsUnspecified : Prop :=
  ∀ (i : Instr) (s : State) (g : Engine) (p : Pending), i.touchesBuffer = true → s.Runnable g p →
    stageOk i g →
      ∃ t, exec i s = .next t
        ∧ (g.spoilt = true → ∀ a, p.base.toNat ≤ a → a < bufferEnd g p →
            ∃ n, Memory.readWord t.mem a = some (Config.freeWord n))
        ∧ (∀ o ∈ g.overlaps, o.partnerDone = true →
            ∀ a, o.lo ≤ a → a < o.hi → p.base.toNat ≤ a → a < bufferEnd g p →
              ∃ n, Memory.readWord t.mem a = some (Config.freeWord n))
        ∧ (g.spoilt = false → ∃ m, chain (phasesOf s g p i) s.mem m
            ∧ ∀ a, keepsWord g a → Memory.readWord t.mem a = Memory.readWord m a)

/-- R52: byte `k` of a written word, the lowest address first, is bits `8k+7:8k`; no other byte changes. -/
def Obligations.WordsAreLittleEndian : Prop :=
  ∀ (m : Memory) (a : Nat) (v : Word),
    (∀ k, k < 4 → Memory.readByte (Memory.writeWord m a v) (4 * a + k) = some (v.extractLsb' (8 * k) 8))
      ∧ ∀ b, b < 4 * a ∨ 4 * a + 4 ≤ b →
          Memory.readByte (Memory.writeWord m a v) b = Memory.readByte m b

/-- R34, R52, R57, R173: which bus accesses have no step, and what every other one does. A register access that
is not one whole aligned word has none, which the model makes a fault, nor has one to an address that is neither
in a register block nor in the data memory, nor a memory access that leaves its word. A whole word at byte offset
`4*k` of a block is the `SET` or `GET` of the register at offset `k`. A memory access moves its bytes, the lowest
address first, and disturbs the word's owners (R162). What R34, R52, R53 and R57 leave open is the model's choice: the
byte offsets of registers and accesses across words (assumption 10), that the alignment of a register access and the
words of the memory are measured from the base, whether that base is aligned or not (assumption 17), unmapped
addresses (assumption 12), the other bytes of a word written in part (assumption 9), and the free words
(assumption 3). -/
def Obligations.BusAccessesWithoutAStep : Prop :=
  (∀ (p : Params) (e base addr : Nat), p.regBlockBase[e]? = some base → base ≤ addr → addr < base + 64 →
      (∀ k other, k < e → p.regBlockBase[k]? = some other → ¬ (other ≤ addr ∧ addr < other + 64)) →
        Params.resolve p addr = some (.register e (addr - base)))
    ∧ (∀ (p : Params) (addr : Nat), (∀ base ∈ p.regBlockBase, ¬ (base ≤ addr ∧ addr < base + 64)) →
        (p.memHostBase ≤ addr ∧ addr < p.memHostBase + 4 * p.memWords →
            Params.resolve p addr = some (.memory (addr - p.memHostBase)))
          ∧ (¬ (p.memHostBase ≤ addr ∧ addr < p.memHostBase + 4 * p.memWords) → Params.resolve p addr = none))
    ∧ (List.range 9).map RegName.ofOffset =
        [RegName.cmd, .status, .bufBase, .reqLen, .fftLen, .descFlags, .twidMod, .bitrevMod, .oneByFftLen].map some
    ∧ (∀ (s : State) (addr width : Nat) (v : Word) (rest : List Action) (a : Action),
        a = .busWrite addr width v ∨ a = .busRead addr width → s.schedule = a :: rest →
          (∀ e off, Params.resolve s.params addr = some (.register e off) → (width ≠ 4 ∨ off % 4 ≠ 0) →
              step s = .fault (.registerAccessShape addr width))
            ∧ (∀ off, Params.resolve s.params addr = some (.memory off) →
                (width = 0 ∨ 4 < off % 4 + width) → step s = .fault (.memoryAccessShape addr width))
            ∧ (Params.resolve s.params addr = none → step s = .fault (.unmapped addr)))
    ∧ (∀ (s : State) (addr e k : Nat) (r : RegName) (v : Word) (rest : List Action),
        Params.resolve s.params addr = some (.register e (4 * k)) → RegName.ofOffset k = some r →
          (s.schedule = .busWrite addr 4 v :: rest → step s = step { s with schedule := .set e r v :: rest })
            ∧ (s.schedule = .busRead addr 4 :: rest → step s = step { s with schedule := .get e r :: rest }))
    ∧ (∀ (s : State) (addr off width : Nat) (rest : List Action),
        Params.resolve s.params addr = some (.memory off) → 1 ≤ width → off % 4 + width ≤ 4 →
          s.schedule = .busRead addr width :: rest →
          ∃ v, step s = .next { s with
              schedule := rest, engines := disturbed none (off / 4) false s, hostData := v,
              freeCount := s.freeCount + 1 }
            ∧ (∀ n, width ≤ n → n < 4 → laneOf v n = 0)
            ∧ (owned s (off / 4) → ∀ n, n < width → laneOf v n = laneOf (Config.freeWord s.freeCount) n)
            ∧ (¬ owned s (off / 4) → ∀ n, n < width →
                laneOf v n = (Memory.readByte s.mem (off + n)).getD (laneOf (Config.freeWord s.freeCount) n)))
    ∧ (∀ (s : State) (addr off width : Nat) (v : Word) (rest : List Action),
        Params.resolve s.params addr = some (.memory off) → 1 ≤ width → off % 4 + width ≤ 4 →
          s.schedule = .busWrite addr width v :: rest →
          ∃ m c, step s = .next { s with
              schedule := rest, engines := disturbed none (off / 4) true s, mem := m, freeCount := c }
            ∧ (c = s.freeCount ∨ c = s.freeCount + 1)
            ∧ (∀ n, n < width → Memory.readByte m (off + n) = some (laneOf v n))
            ∧ (∀ b, b / 4 = off / 4 → (b < off ∨ off + width ≤ b) →
                Memory.readByte m b =
                  some ((Memory.readByte s.mem b).getD (laneOf (Config.freeWord s.freeCount) (b % 4))))
            ∧ ∀ b, b / 4 ≠ off / 4 → Memory.readByte m b = Memory.readByte s.mem b)

/-! ### Reset -/

/-- R43, R171: a reset of an engine leaves it with the reset value of every piece of its state, whatever it
was doing; every other engine keeps its registers, its `STATUS`, its command and its trace, and the memory
is unchanged where the engine owned nothing. To the others its command is over (assumption 8). -/
def Obligations.ResetOfAnEngine : Prop :=
  ∀ (s : State) (e : Nat) (rest : List Action) (g : Engine), s.engines[e]? = some g →
    s.schedule = .reset e :: rest →
      ∃ t h, step s = .next t ∧ t.engines[e]? = some h
        ∧ h.statusWord = 0 ∧ h.bufBase = 0 ∧ h.reqLen = 0 ∧ h.fftLen = 0 ∧ h.ifft = false
        ∧ h.bitrev = false ∧ h.twidMod = 0 ∧ h.bitrevMod = 0 ∧ h.oneByFftLen = 0 ∧ h.pending = none
        ∧ h.trace = [] ∧ t.params = s.params ∧ (g.owned s.params.memWords = none → t.mem = s.mem)
        ∧ h.owned s.params.memWords = none ∧ h.spoilt = false ∧ h.overlaps = []
        ∧ ∀ k g', k ≠ e → s.engines[k]? = some g' →
            ∃ h', t.engines[k]? = some h' ∧ g'.onlyHazard h' ∧ h'.hazard = g'.hazard ∧ h'.spoilt = g'.spoilt
              ∧ h'.overlaps = withPartnerDone e g'.overlaps

/-- R172: a reset of a busy engine abandons its command. Where it owned `[lo, hi)`, every word of the range
then has an unspecified (free) value and every byte outside it is unchanged; where it owned nothing, the memory
is unchanged. The free words are assumption 3. That a word of the range no agent had written holds one as well, and so
counts as written, is the model's choice (assumption 16). -/
def Obligations.ResetWhileBusy : Prop :=
  ∀ (s : State) (e : Nat) (rest : List Action) (g : Engine), s.engines[e]? = some g →
    g.pending.isSome = true → s.schedule = .reset e :: rest →
      ∃ t, step s = .next t ∧ t.engines[e]? = some Engine.reset
        ∧ (g.owned s.params.memWords = none → t.mem = s.mem)
        ∧ ∀ lo hi, g.owned s.params.memWords = some (lo, hi) →
            sameOutside lo hi s t ∧ ∀ a, lo ≤ a → a < hi → ∃ n, Memory.readWord t.mem a = some (Config.freeWord n)

/-- R43, R173: every engine after power-up, and a data memory nothing has written. One engine and the other
parameters of `State.reset` are the model's choice (assumption 1); the values hold for every choice. -/
def Obligations.PowerUpValues : Prop :=
  (∀ params : Params,
      (State.powerUp params).engines.length = params.regBlockBase.length ∧ (State.powerUp params).mem = []
        ∧ ∀ g ∈ (State.powerUp params).engines,
            g.statusWord = 0 ∧ g.bufBase = 0 ∧ g.reqLen = 0 ∧ g.fftLen = 0 ∧ g.descFlagsWord = 0
              ∧ g.twidMod = 0 ∧ g.bitrevMod = 0 ∧ g.oneByFftLen = 0 ∧ g.pending = none ∧ g.trace = []
              ∧ g.owned params.memWords = none)
    ∧ State.reset = State.powerUp Params.default ∧ Params.default.regBlockBase.length = 1

/-! ### Geometry and unwritten words -/

/-- R50: every twiddle index a stage of a supported length forms lies in `[0, 3*M/4)`, where `TwRead(k)` is the
pair at place `k` of the ROM (R37, R49), whatever its contents, and for the reference ROM has the sample values of
decision D5. -/
def Obligations.TwiddleIndicesInRange : Prop :=
  (∀ n : Nat, supported n = true →
    (∀ p ∈ stage1Places n (4096 / n), 3 * p.base < 3072 ∧ 2 * p.base < 3072 ∧ p.base < 3072)
      ∧ ∀ stage, 1 ≤ stage → stage ≤ log4 n - 2 → ∀ p ∈ middlePlaces n (4096 / n) stage,
          3 * p.base < 3072 ∧ 2 * p.base < 3072 ∧ p.base < 3072)
    ∧ (∀ (entries : List (Word × Word)) (k : Nat) (h : k < entries.length),
        readTwiddle (.table entries) k = entries[k])
    ∧ [0, 256, 512, 768, 1024, 2048].map (readTwiddle .reference) =
        [(0x7FFFFFFF, 0x00000000), (0x7641AF3D, 0x30FBC54D), (0x5A82799A, 0x5A82799A),
          (0x30FBC54D, 0x7641AF3D), (0x00000000, 0x7FFFFFFF), (0x80000000, 0x00000000)]

/-- R102, R112, R121, R178: the `N/4` butterflies of each pass touch every sample of the buffer once. -/
def Obligations.PassesCoverEverySampleOnce : Prop :=
  ∀ n twidMod : Nat, supported n = true →
    ((stage1Places n twidMod).length = n / 4
        ∧ (indicesOf (stage1Places n twidMod)).Perm (List.range n))
      ∧ (∀ stage, 1 ≤ stage → stage ≤ log4 n - 2 →
          (middlePlaces n twidMod stage).length = n / 4
            ∧ (indicesOf (middlePlaces n twidMod stage)).Perm (List.range n))
      ∧ (lastPlaces n).length = n / 4 ∧ (indicesOf (lastPlaces n)).Perm (List.range n)

/-- R163: a buffer-touching command whose checks pass and that accesses an unwritten word faults, with the
address of an unwritten word it accesses: the first unwritten one in the order in which it reads. -/
def Obligations.UnwrittenBufferFaults : Prop :=
  ∀ (i : Instr) (s : State) (g : Engine) (p : Pending), i.touchesBuffer = true →
    s.Latched g p → g.initValid = true → g.descriptorOk → stageOk i g →
    bufferEnd g p ≤ s.params.memWords →
      (∀ a, accesses i g p a → Memory.readWord s.mem a = none →
        ∃ b, accesses i g p b ∧ Memory.readWord s.mem b = none
          ∧ exec i s = .fault (.unwrittenRead s.active b))
      ∧ ∀ before a after, readWords i g p = before ++ a :: after →
          (∀ b ∈ before, (Memory.readWord s.mem b).isSome = true) → Memory.readWord s.mem a = none →
            exec i s = .fault (.unwrittenRead s.active a)

/-- R163 for `LAST_FWD` and `LAST_INV`, whose reads run through the buffer by rising address: the fault
names the first unwritten word. -/
def Obligations.LastStageFaultsAtTheFirstUnwrittenWord : Prop :=
  ∀ (dir : Dir) (s : State) (g : Engine) (p : Pending) (a : Nat), s.Latched g p → g.initValid = true →
    g.descriptorOk → bufferEnd g p ≤ s.params.memWords → p.base.toNat ≤ a → a < bufferEnd g p →
    Memory.readWord s.mem a = none →
    (∀ b, p.base.toNat ≤ b → b < a → (Memory.readWord s.mem b).isSome = true) →
      exec (lastOf dir) s = .fault (.unwrittenRead s.active a)
end

