-- ==== Sys2Proof/Laws/Memory.lean ====
section
/-! SUPPORT. The laws of the data memory: a read after a write, and that every write keeps the canonical form. -/

namespace Sys2Proof.Machine

open Sys2Proof

@[simp] theorem Memory.readByte_nil (b : Nat) : Memory.readByte [] b = none := rfl

theorem Memory.readByte_cons (c : Host.Cell) (m : Memory) (b : Nat) :
    Memory.readByte (c :: m) b = if c.1 = b then some c.2 else Memory.readByte m b := rfl

/-- A byte reads back what was written to it. -/
@[simp] theorem Memory.readByte_writeByte_same (m : Memory) (b : Nat) (v : Byte) :
    Memory.readByte (Memory.writeByte m b v) b = some v := by
  induction m with
  | nil => simp [Memory.writeByte, Memory.readByte]
  | cons c m ih =>
    unfold Memory.writeByte
    split
    · simp [readByte_cons]
    · split
      · simp [readByte_cons]
      · next h => rw [readByte_cons, if_neg h, ih]

/-- A write leaves every other byte alone. -/
theorem Memory.readByte_writeByte_other (m : Memory) {b b' : Nat} (v : Byte) (h : b' ≠ b) :
    Memory.readByte (Memory.writeByte m b v) b' = Memory.readByte m b' := by
  induction m with
  | nil => simp [Memory.writeByte, Memory.readByte, h.symm]
  | cons c m ih =>
    unfold Memory.writeByte
    split
    · rw [readByte_cons, if_neg h.symm]
    · split
      · next hc => rw [readByte_cons, readByte_cons, if_neg h.symm, hc, if_neg h.symm]
      · rw [readByte_cons, readByte_cons, ih]

theorem Memory.readByte_writeByte (m : Memory) (b b' : Nat) (v : Byte) :
    Memory.readByte (Memory.writeByte m b v) b' = if b' = b then some v else Memory.readByte m b' := by
  split
  · next h => rw [h, readByte_writeByte_same]
  · next h => exact readByte_writeByte_other m v h

/-- The cells of a memory after a write are old cells or the written one. -/
theorem Memory.mem_writeByte {m : Memory} {b : Nat} {v : Byte} {c : Host.Cell}
    (h : c ∈ Memory.writeByte m b v) : c = (b, v) ∨ c ∈ m := by
  induction m with
  | nil => simpa [Memory.writeByte] using h
  | cons d m ih =>
    unfold Memory.writeByte at h
    split at h
    · simpa using h
    · split at h
      · rcases List.mem_cons.1 h with h | h
        · exact .inl h
        · exact .inr (List.mem_cons_of_mem _ h)
      · rcases List.mem_cons.1 h with h | h
        · exact .inr (h ▸ List.mem_cons_self)
        · exact (ih h).imp id (List.mem_cons_of_mem _)

/-- Every write of a byte keeps the canonical form. -/
theorem Memory.wf_writeByte {m : Memory} (h : Memory.wf m) (b : Nat) (v : Byte) :
    Memory.wf (Memory.writeByte m b v) := by
  induction m with
  | nil => simp [Memory.writeByte]
  | cons c m ih =>
    obtain ⟨hc, hm⟩ := List.pairwise_cons.1 h
    unfold Memory.writeByte
    split
    · next hlt =>
      refine List.pairwise_cons.2 ⟨fun d hd => ?_, h⟩
      rcases List.mem_cons.1 hd with rfl | hd
      · exact hlt
      · exact Nat.lt_trans hlt (hc d hd)
    · split
      · next heq => exact List.pairwise_cons.2 ⟨fun d hd => heq ▸ hc d hd, hm⟩
      · next hlt hne =>
        refine List.pairwise_cons.2 ⟨fun d hd => ?_, ih hm⟩
        rcases mem_writeByte hd with rfl | hd
        · show c.1 < b
          omega
        · exact hc d hd

theorem Memory.wf_nil : Memory.wf [] := List.Pairwise.nil

/-- Every write of a word keeps the canonical form. -/
theorem Memory.wf_writeWord {m : Memory} (h : Memory.wf m) (a : Nat) (v : Word) :
    Memory.wf (Memory.writeWord m a v) :=
  wf_writeByte (wf_writeByte (wf_writeByte (wf_writeByte h _ _) _ _) _ _) _ _

/-- Every write of some bytes of a word keeps the canonical form. -/
theorem Memory.wf_writeBytes {m : Memory} (h : Memory.wf m) (b : Nat) (v : Word) (width : Nat) :
    Memory.wf (Memory.writeBytes m b v width) := by
  induction width with
  | zero => exact h
  | succ n ih => exact wf_writeByte ih _ _

/-- A byte after a word write: a byte of the word where the word lies, else the old byte (R52). -/
theorem Memory.readByte_writeWord (m : Memory) (a b : Nat) (v : Word) :
    Memory.readByte (Memory.writeWord m a v) b =
      if b / 4 = a then some (byteOf v (b % 4)) else Memory.readByte m b := by
  unfold Memory.writeWord
  simp only [readByte_writeByte]
  split
  · next h => subst h; simp [show (4 * a + 3) / 4 = a by omega, show (4 * a + 3) % 4 = 3 by omega]
  · split
    · next h => subst h; simp [show (4 * a + 2) / 4 = a by omega, show (4 * a + 2) % 4 = 2 by omega]
    · split
      · next h => subst h; simp [show (4 * a + 1) / 4 = a by omega, show (4 * a + 1) % 4 = 1 by omega]
      · split
        · next h => subst h; simp
        · rw [if_neg (by omega)]

/-- The four bytes of a word put together give the word. -/
theorem Memory.wordOf_byteOf (v : Word) : wordOf (byteOf v 0) (byteOf v 1) (byteOf v 2) (byteOf v 3) = v := by
  unfold wordOf byteOf
  ext i hi
  simp only [BitVec.getElem_append, BitVec.getElem_extractLsb']
  split
  · simp [BitVec.getLsbD_eq_getElem hi]
  · split
    · simp only [← BitVec.getLsbD_eq_getElem hi]
      congr 1
      omega
    · split
      · simp only [← BitVec.getLsbD_eq_getElem hi]
        congr 1
        omega
      · simp only [← BitVec.getLsbD_eq_getElem hi]
        congr 1
        omega

/-- The byte of four bytes put together is the one at its place (R52). -/
theorem Memory.byteOf_wordOf (f : Nat → Byte) {n : Nat} (hn : n < 4) :
    byteOf (wordOf (f 0) (f 1) (f 2) (f 3)) n = f n := by
  unfold wordOf byteOf
  ext i hi
  obtain rfl | rfl | rfl | rfl : n = 0 ∨ n = 1 ∨ n = 2 ∨ n = 3 := by omega
  all_goals
    simp only [BitVec.getElem_extractLsb', BitVec.getLsbD_append]
    simp [hi, show ¬ 8 + i < 8 by omega, show ¬ 16 + i < 8 by omega, show ¬ 24 + i < 8 by omega,
      show 8 + i - 8 = i by omega, show 16 + i - 8 = 8 + i by omega, show 24 + i - 8 = 16 + i by omega]

/-- A byte after some bytes of a word were written: one of them, or the old byte (R52). -/
theorem Memory.readByte_writeBytes (m : Memory) (b width c : Nat) (v : Word) :
    Memory.readByte (Memory.writeBytes m b v width) c =
      if b ≤ c ∧ c < b + width then some (byteOf v (c - b)) else Memory.readByte m c := by
  induction width with
  | zero => rw [if_neg (by omega)]; rfl
  | succ n ih =>
    unfold Memory.writeBytes
    rw [readByte_writeByte, ih]
    split
    · next h => rw [if_pos (by omega), show c - b = n by omega]
    · next h =>
      by_cases h' : b ≤ c ∧ c < b + n
      · rw [if_pos h', if_pos (by omega)]
      · rw [if_neg h', if_neg (by omega)]

/-- A byte as a host reads it, said without a match (R173). -/
theorem Memory.byteOr_eq (m : Memory) (free : Word) (b n : Nat) :
    Memory.byteOr m free b n = (Memory.readByte m (b + n)).getD (byteOf free n) := by
  unfold Memory.byteOr
  cases Memory.readByte m (b + n) <;> rfl

/-- A byte of a word a host reads: the byte of the memory within the width, zero above it (R52, R173). -/
theorem Memory.byteOf_readBytes (m : Memory) (free : Word) (b width : Nat) {n : Nat} (hn : n < 4) :
    byteOf (Memory.readBytes m free b width) n =
      if n < width then (Memory.readByte m (b + n)).getD (byteOf free n) else 0 := by
  rw [← byteOr_eq]
  exact byteOf_wordOf (fun n => if n < width then Memory.byteOr m free b n else 0) hn

/-- A word holds a value exactly when each of its bytes does (R46). -/
theorem Memory.readWord_eq_none {m : Memory} {a : Nat} :
    Memory.readWord m a = none ↔ ∃ n, n < 4 ∧ Memory.readByte m (4 * a + n) = none := by
  unfold Memory.readWord
  constructor
  · intro h
    by_contra hc
    have some : ∀ n, n < 4 → ∃ v, Memory.readByte m (4 * a + n) = some v := fun n hn =>
      Option.ne_none_iff_exists'.1 (fun h' => hc ⟨n, hn, h'⟩)
    obtain ⟨v0, h0⟩ := some 0 (by omega)
    obtain ⟨v1, h1⟩ := some 1 (by omega)
    obtain ⟨v2, h2⟩ := some 2 (by omega)
    obtain ⟨v3, h3⟩ := some 3 (by omega)
    rw [Nat.add_zero] at h0
    simp [h0, h1, h2, h3] at h
  · rintro ⟨n, hn, h⟩
    obtain rfl | rfl | rfl | rfl : n = 0 ∨ n = 1 ∨ n = 2 ∨ n = 3 := by omega
    · rw [Nat.add_zero] at h
      simp [h]
    all_goals simp [h]

/-- A byte of a word that holds a value (R46, R52). -/
theorem Memory.readByte_of_readWord {m : Memory} {a : Nat} {v : Word} (h : Memory.readWord m a = some v)
    {n : Nat} (hn : n < 4) : Memory.readByte m (4 * a + n) = some (byteOf v n) := by
  unfold Memory.readWord at h
  split at h
  · next b0 b1 b2 b3 h0 h1 h2 h3 =>
    obtain rfl := Option.some.inj h
    have lane := fun f => Memory.byteOf_wordOf f hn
    obtain rfl | rfl | rfl | rfl : n = 0 ∨ n = 1 ∨ n = 2 ∨ n = 3 := by omega
    · exact h0.trans (congrArg some (lane (fun | 0 => b0 | 1 => b1 | 2 => b2 | _ => b3)).symm)
    · exact h1.trans (congrArg some (lane (fun | 0 => b0 | 1 => b1 | 2 => b2 | _ => b3)).symm)
    · exact h2.trans (congrArg some (lane (fun | 0 => b0 | 1 => b1 | 2 => b2 | _ => b3)).symm)
    · exact h3.trans (congrArg some (lane (fun | 0 => b0 | 1 => b1 | 2 => b2 | _ => b3)).symm)
  · cases h

/-- A word reads back what was written to it (R46, R47). -/
@[simp] theorem Memory.readWord_writeWord_same (m : Memory) (a : Nat) (v : Word) :
    Memory.readWord (Memory.writeWord m a v) a = some v := by
  unfold Memory.readWord
  simp only [readByte_writeWord]
  simp [show (4 * a + 1) / 4 = a by omega, show (4 * a + 2) / 4 = a by omega,
    show (4 * a + 3) / 4 = a by omega, show (4 * a + 1) % 4 = 1 by omega,
    show (4 * a + 2) % 4 = 2 by omega, show (4 * a + 3) % 4 = 3 by omega, wordOf_byteOf]

/-- Words whose bytes read the same read the same. -/
theorem Memory.readWord_congr {m m' : Memory} {a : Nat}
    (h : ∀ b, 4 * a ≤ b → b < 4 * a + 4 → Memory.readByte m' b = Memory.readByte m b) :
    Memory.readWord m' a = Memory.readWord m a := by
  unfold Memory.readWord
  rw [h (4 * a) (by omega) (by omega), h (4 * a + 1) (by omega) (by omega),
    h (4 * a + 2) (by omega) (by omega), h (4 * a + 3) (by omega) (by omega)]

/-- A word write leaves every other word alone. -/
theorem Memory.readWord_writeWord_other (m : Memory) {a a' : Nat} (v : Word) (h : a' ≠ a) :
    Memory.readWord (Memory.writeWord m a v) a' = Memory.readWord m a' := by
  apply readWord_congr
  intro b h1 h2
  rw [readByte_writeWord, if_neg (by omega)]

theorem Memory.readWord_writeWord (m : Memory) (a a' : Nat) (v : Word) :
    Memory.readWord (Memory.writeWord m a v) a' = if a' = a then some v else Memory.readWord m a' := by
  split
  · next h => rw [h, readWord_writeWord_same]
  · next h => exact readWord_writeWord_other m v h

/-- Two canonical memories that read the same at every byte are the same list. -/
theorem Memory.ext_of_wf {m m' : Memory} (h : Memory.wf m) (h' : Memory.wf m')
    (hr : ∀ b, Memory.readByte m b = Memory.readByte m' b) : m = m' := by
  have below : ∀ {c : Host.Cell} {m : Memory}, Memory.wf (c :: m) → ∀ b, b ≤ c.1 →
      Memory.readByte m b = none := by
    intro c m hw b hb
    obtain ⟨hc, -⟩ := List.pairwise_cons.1 hw
    clear hw
    induction m with
    | nil => rfl
    | cons d m ih =>
      have := hc d List.mem_cons_self
      rw [readByte_cons, if_neg (by omega)]
      exact ih (fun e he => hc e (List.mem_cons_of_mem _ he))
  induction m generalizing m' with
  | nil =>
    cases m' with
    | nil => rfl
    | cons d m' => simpa [readByte_cons] using hr d.1
  | cons c m ih =>
    cases m' with
    | nil => simpa [readByte_cons] using hr c.1
    | cons d m' =>
      have hcd : c.1 = d.1 := by
        by_contra hne
        rcases Nat.lt_or_gt_of_ne hne with hlt | hgt
        · have h1 := hr c.1
          rw [readByte_cons, if_pos rfl, readByte_cons, if_neg (Ne.symm hne),
            below h' c.1 (Nat.le_of_lt hlt)] at h1
          simp at h1
        · have h1 := hr d.1
          rw [readByte_cons, if_neg hne, readByte_cons, if_pos rfl,
            below h d.1 (Nat.le_of_lt hgt)] at h1
          simp at h1
      have hv : c.2 = d.2 := by
        have h1 := hr c.1
        rw [readByte_cons, if_pos rfl, readByte_cons, if_pos hcd.symm] at h1
        exact Option.some.inj h1
      have htail : m = m' := by
        refine ih (List.pairwise_cons.1 h).2 (List.pairwise_cons.1 h').2 (fun b => ?_)
        by_cases hb : b = c.1
        · subst hb
          rw [below h _ (Nat.le_refl _), below h' _ (Nat.le_of_eq hcd)]
        · have h1 := hr b
          rwa [readByte_cons, if_neg (Ne.symm hb), readByte_cons, if_neg (by omega)] at h1
      rw [htail, Prod.ext hcd hv]

/-- In a canonical memory the listed cells are the bytes that read as a value. -/
theorem Memory.mem_iff_readByte {m : Memory} (h : Memory.wf m) (c : Host.Cell) :
    c ∈ m ↔ Memory.readByte m c.1 = some c.2 := by
  induction m with
  | nil => simp
  | cons d m ih =>
    have hd := (List.pairwise_cons.1 h).1
    rw [List.mem_cons, ih (List.pairwise_cons.1 h).2, readByte_cons]
    split
    · next he =>
      constructor
      · rintro (rfl | hc)
        · rfl
        · have := hd c ((ih (List.pairwise_cons.1 h).2).2 hc)
          omega
      · intro hv
        exact .inl (Prod.ext he.symm (Option.some.inj hv).symm)
    · next he =>
      constructor
      · rintro (rfl | hc)
        · exact absurd rfl he
        · exact hc
      · exact .inr

/-- A cell of the written bytes is one of the written ones or was there before. -/
theorem Memory.mem_writeBytes {m : Memory} {b width : Nat} {v : Word} {c : Host.Cell}
    (h : c ∈ Memory.writeBytes m b v width) : (b ≤ c.1 ∧ c.1 < b + width) ∨ c ∈ m := by
  induction width with
  | zero => exact .inr h
  | succ n ih =>
    rcases mem_writeByte h with rfl | h
    · exact .inl ⟨Nat.le_add_right _ _, by show b + n < b + (n + 1); omega⟩
    · rcases ih h with h | h
      · exact .inl ⟨h.1, by omega⟩
      · exact .inr h

/-- A cell of a written word is one of its four bytes or was there before. -/
theorem Memory.mem_writeWord {m : Memory} {a : Nat} {v : Word} {c : Host.Cell}
    (h : c ∈ Memory.writeWord m a v) : c.1 / 4 = a ∨ c ∈ m := by
  have h' : c ∈ Memory.writeBytes m (4 * a) v 4 := h
  rcases mem_writeBytes h' with h' | h'
  · exact .inl (by omega)
  · exact .inr h'

end Sys2Proof.Machine
end

