-- ==== Sys2Proof/Laws/State.lean ====
section
/-! SUPPORT. What each update of the state or of an engine does to each field, one lemma a field. -/

namespace Sys2Proof.Machine

open Sys2Proof

section modifyEngine
variable (e : Nat) (f : Engine → Engine) (s : State)

@[simp] theorem State.modifyEngine_params : (s.modifyEngine e f).params = s.params := rfl
@[simp] theorem State.modifyEngine_engines : (s.modifyEngine e f).engines = s.engines.modify e f := rfl
@[simp] theorem State.modifyEngine_mem : (s.modifyEngine e f).mem = s.mem := rfl
@[simp] theorem State.modifyEngine_active : (s.modifyEngine e f).active = s.active := rfl
@[simp] theorem State.modifyEngine_schedule : (s.modifyEngine e f).schedule = s.schedule := rfl
@[simp] theorem State.modifyEngine_hostData : (s.modifyEngine e f).hostData = s.hostData := rfl
@[simp] theorem State.modifyEngine_freeCount : (s.modifyEngine e f).freeCount = s.freeCount := rfl

end modifyEngine

section intrude
variable (who : Option Nat) (a : Nat) (isWrite : Bool) (s : State)

@[simp] theorem State.intrude_params : (s.intrude who a isWrite).params = s.params := rfl
@[simp] theorem State.intrude_engines : (s.intrude who a isWrite).engines = s.engines.mapIdx (fun j g => if s.foreignOwner who a j g then g.intruded isWrite else g) := rfl
@[simp] theorem State.intrude_mem : (s.intrude who a isWrite).mem = s.mem := rfl
@[simp] theorem State.intrude_active : (s.intrude who a isWrite).active = s.active := rfl
@[simp] theorem State.intrude_schedule : (s.intrude who a isWrite).schedule = s.schedule := rfl
@[simp] theorem State.intrude_hostData : (s.intrude who a isWrite).hostData = s.hostData := rfl
@[simp] theorem State.intrude_freeCount : (s.intrude who a isWrite).freeCount = s.freeCount := rfl

end intrude

section raise
variable (r : ResultCode) (s : State)

@[simp] theorem State.raise_params : (s.raise r).params = s.params := rfl
@[simp] theorem State.raise_engines : (s.raise r).engines = s.engines.modify s.active (Engine.finish r) := rfl
@[simp] theorem State.raise_mem : (s.raise r).mem = s.mem := rfl
@[simp] theorem State.raise_active : (s.raise r).active = s.active := rfl
@[simp] theorem State.raise_schedule : (s.raise r).schedule = s.schedule := rfl
@[simp] theorem State.raise_hostData : (s.raise r).hostData = s.hostData := rfl
@[simp] theorem State.raise_freeCount : (s.raise r).freeCount = s.freeCount := rfl

end raise

section traceEvent
variable (j : Job) (ev : TraceEvent) (s : State)

@[simp] theorem State.traceEvent_params : (s.traceEvent j ev).params = s.params := rfl
@[simp] theorem State.traceEvent_engines : (s.traceEvent j ev).engines = s.engines.modify j.engine (fun g => { g with trace := g.trace ++ [ev] }) := rfl
@[simp] theorem State.traceEvent_mem : (s.traceEvent j ev).mem = s.mem := rfl
@[simp] theorem State.traceEvent_active : (s.traceEvent j ev).active = s.active := rfl
@[simp] theorem State.traceEvent_schedule : (s.traceEvent j ev).schedule = s.schedule := rfl
@[simp] theorem State.traceEvent_hostData : (s.traceEvent j ev).hostData = s.hostData := rfl
@[simp] theorem State.traceEvent_freeCount : (s.traceEvent j ev).freeCount = s.freeCount := rfl

end traceEvent

section latchNext
variable (w : Word) (s : State)

@[simp] theorem State.latchNext_params : (s.latchNext w).params = s.params := rfl
@[simp] theorem State.latchNext_engines : (s.latchNext w).engines = s.engines.modify s.active (Engine.latch w) := rfl
@[simp] theorem State.latchNext_mem : (s.latchNext w).mem = s.mem := rfl
@[simp] theorem State.latchNext_active : (s.latchNext w).active = s.active := rfl
@[simp] theorem State.latchNext_schedule : (s.latchNext w).schedule = .complete s.active :: s.schedule := rfl
@[simp] theorem State.latchNext_hostData : (s.latchNext w).hostData = s.hostData := rfl
@[simp] theorem State.latchNext_freeCount : (s.latchNext w).freeCount = s.freeCount := rfl

end latchNext

section finish
variable (r : ResultCode) (g : Engine)

@[simp] theorem Engine.finish_initValid : (g.finish r).initValid = g.initValid := rfl
@[simp] theorem Engine.finish_result : (g.finish r).result = r := rfl
@[simp] theorem Engine.finish_errSticky : (g.finish r).errSticky = (g.errSticky || (r != .ok)) := rfl
@[simp] theorem Engine.finish_hazard : (g.finish r).hazard = g.hazard := rfl
@[simp] theorem Engine.finish_bufBase : (g.finish r).bufBase = g.bufBase := rfl
@[simp] theorem Engine.finish_reqLen : (g.finish r).reqLen = g.reqLen := rfl
@[simp] theorem Engine.finish_fftLen : (g.finish r).fftLen = g.fftLen := rfl
@[simp] theorem Engine.finish_ifft : (g.finish r).ifft = g.ifft := rfl
@[simp] theorem Engine.finish_bitrev : (g.finish r).bitrev = g.bitrev := rfl
@[simp] theorem Engine.finish_twidMod : (g.finish r).twidMod = g.twidMod := rfl
@[simp] theorem Engine.finish_bitrevMod : (g.finish r).bitrevMod = g.bitrevMod := rfl
@[simp] theorem Engine.finish_oneByFftLen : (g.finish r).oneByFftLen = g.oneByFftLen := rfl
@[simp] theorem Engine.finish_pending : (g.finish r).pending = none := rfl
@[simp] theorem Engine.finish_trace : (g.finish r).trace = g.trace := rfl
@[simp] theorem Engine.finish_spoilt : (g.finish r).spoilt = false := rfl
@[simp] theorem Engine.finish_overlaps : (g.finish r).overlaps = [] := rfl

end finish

section setHazard
variable (g : Engine)

@[simp] theorem Engine.setHazard_initValid : (g.setHazard).initValid = g.initValid := rfl
@[simp] theorem Engine.setHazard_result : (g.setHazard).result = g.result := rfl
@[simp] theorem Engine.setHazard_errSticky : (g.setHazard).errSticky = g.errSticky := rfl
@[simp] theorem Engine.setHazard_hazard : (g.setHazard).hazard = true := rfl
@[simp] theorem Engine.setHazard_bufBase : (g.setHazard).bufBase = g.bufBase := rfl
@[simp] theorem Engine.setHazard_reqLen : (g.setHazard).reqLen = g.reqLen := rfl
@[simp] theorem Engine.setHazard_fftLen : (g.setHazard).fftLen = g.fftLen := rfl
@[simp] theorem Engine.setHazard_ifft : (g.setHazard).ifft = g.ifft := rfl
@[simp] theorem Engine.setHazard_bitrev : (g.setHazard).bitrev = g.bitrev := rfl
@[simp] theorem Engine.setHazard_twidMod : (g.setHazard).twidMod = g.twidMod := rfl
@[simp] theorem Engine.setHazard_bitrevMod : (g.setHazard).bitrevMod = g.bitrevMod := rfl
@[simp] theorem Engine.setHazard_oneByFftLen : (g.setHazard).oneByFftLen = g.oneByFftLen := rfl
@[simp] theorem Engine.setHazard_pending : (g.setHazard).pending = g.pending := rfl
@[simp] theorem Engine.setHazard_trace : (g.setHazard).trace = g.trace := rfl
@[simp] theorem Engine.setHazard_spoilt : (g.setHazard).spoilt = g.spoilt := rfl
@[simp] theorem Engine.setHazard_overlaps : (g.setHazard).overlaps = g.overlaps := rfl

end setHazard

section intruded
variable (isWrite : Bool) (g : Engine)

@[simp] theorem Engine.intruded_initValid : (g.intruded isWrite).initValid = g.initValid := rfl
@[simp] theorem Engine.intruded_result : (g.intruded isWrite).result = g.result := rfl
@[simp] theorem Engine.intruded_errSticky : (g.intruded isWrite).errSticky = g.errSticky := rfl
@[simp] theorem Engine.intruded_hazard : (g.intruded isWrite).hazard = true := rfl
@[simp] theorem Engine.intruded_bufBase : (g.intruded isWrite).bufBase = g.bufBase := rfl
@[simp] theorem Engine.intruded_reqLen : (g.intruded isWrite).reqLen = g.reqLen := rfl
@[simp] theorem Engine.intruded_fftLen : (g.intruded isWrite).fftLen = g.fftLen := rfl
@[simp] theorem Engine.intruded_ifft : (g.intruded isWrite).ifft = g.ifft := rfl
@[simp] theorem Engine.intruded_bitrev : (g.intruded isWrite).bitrev = g.bitrev := rfl
@[simp] theorem Engine.intruded_twidMod : (g.intruded isWrite).twidMod = g.twidMod := rfl
@[simp] theorem Engine.intruded_bitrevMod : (g.intruded isWrite).bitrevMod = g.bitrevMod := rfl
@[simp] theorem Engine.intruded_oneByFftLen : (g.intruded isWrite).oneByFftLen = g.oneByFftLen := rfl
@[simp] theorem Engine.intruded_pending : (g.intruded isWrite).pending = g.pending := rfl
@[simp] theorem Engine.intruded_trace : (g.intruded isWrite).trace = g.trace := rfl
@[simp] theorem Engine.intruded_spoilt : (g.intruded isWrite).spoilt = (g.spoilt || isWrite) := rfl
@[simp] theorem Engine.intruded_overlaps : (g.intruded isWrite).overlaps = g.overlaps := rfl

end intruded

section partnerOver
variable (e : Nat) (g : Engine)

@[simp] theorem Engine.partnerOver_initValid : (g.partnerOver e).initValid = g.initValid := rfl
@[simp] theorem Engine.partnerOver_result : (g.partnerOver e).result = g.result := rfl
@[simp] theorem Engine.partnerOver_errSticky : (g.partnerOver e).errSticky = g.errSticky := rfl
@[simp] theorem Engine.partnerOver_hazard : (g.partnerOver e).hazard = g.hazard := rfl
@[simp] theorem Engine.partnerOver_bufBase : (g.partnerOver e).bufBase = g.bufBase := rfl
@[simp] theorem Engine.partnerOver_reqLen : (g.partnerOver e).reqLen = g.reqLen := rfl
@[simp] theorem Engine.partnerOver_fftLen : (g.partnerOver e).fftLen = g.fftLen := rfl
@[simp] theorem Engine.partnerOver_ifft : (g.partnerOver e).ifft = g.ifft := rfl
@[simp] theorem Engine.partnerOver_bitrev : (g.partnerOver e).bitrev = g.bitrev := rfl
@[simp] theorem Engine.partnerOver_twidMod : (g.partnerOver e).twidMod = g.twidMod := rfl
@[simp] theorem Engine.partnerOver_bitrevMod : (g.partnerOver e).bitrevMod = g.bitrevMod := rfl
@[simp] theorem Engine.partnerOver_oneByFftLen : (g.partnerOver e).oneByFftLen = g.oneByFftLen := rfl
@[simp] theorem Engine.partnerOver_pending : (g.partnerOver e).pending = g.pending := rfl
@[simp] theorem Engine.partnerOver_trace : (g.partnerOver e).trace = g.trace := rfl
@[simp] theorem Engine.partnerOver_spoilt : (g.partnerOver e).spoilt = g.spoilt := rfl
@[simp] theorem Engine.partnerOver_overlaps : (g.partnerOver e).overlaps = g.overlaps.map (fun o => if o.partner = e then { o with partnerDone := true } else o) := rfl

end partnerOver

section describe
variable (req : Word) (ifft bitrev : Bool) (g : Engine)

@[simp] theorem Engine.describe_initValid : (g.describe req ifft bitrev).initValid = true := rfl
@[simp] theorem Engine.describe_result : (g.describe req ifft bitrev).result = g.result := rfl
@[simp] theorem Engine.describe_errSticky : (g.describe req ifft bitrev).errSticky = g.errSticky := rfl
@[simp] theorem Engine.describe_hazard : (g.describe req ifft bitrev).hazard = g.hazard := rfl
@[simp] theorem Engine.describe_bufBase : (g.describe req ifft bitrev).bufBase = g.bufBase := rfl
@[simp] theorem Engine.describe_reqLen : (g.describe req ifft bitrev).reqLen = g.reqLen := rfl
@[simp] theorem Engine.describe_fftLen : (g.describe req ifft bitrev).fftLen = req := rfl
@[simp] theorem Engine.describe_ifft : (g.describe req ifft bitrev).ifft = ifft := rfl
@[simp] theorem Engine.describe_bitrev : (g.describe req ifft bitrev).bitrev = bitrev := rfl
@[simp] theorem Engine.describe_twidMod : (g.describe req ifft bitrev).twidMod = BitVec.ofNat 32 (Config.twidNativeLen / req.toNat) := rfl
@[simp] theorem Engine.describe_bitrevMod : (g.describe req ifft bitrev).bitrevMod = BitVec.ofNat 32 (Config.twidNativeLen / req.toNat) := rfl
@[simp] theorem Engine.describe_oneByFftLen : (g.describe req ifft bitrev).oneByFftLen = BitVec.ofNat 32 (2 ^ 31 / req.toNat) := rfl
@[simp] theorem Engine.describe_pending : (g.describe req ifft bitrev).pending = g.pending := rfl
@[simp] theorem Engine.describe_trace : (g.describe req ifft bitrev).trace = g.trace := rfl
@[simp] theorem Engine.describe_spoilt : (g.describe req ifft bitrev).spoilt = g.spoilt := rfl
@[simp] theorem Engine.describe_overlaps : (g.describe req ifft bitrev).overlaps = g.overlaps := rfl

end describe

section undescribe
variable (g : Engine)

@[simp] theorem Engine.undescribe_initValid : (g.undescribe).initValid = false := rfl
@[simp] theorem Engine.undescribe_result : (g.undescribe).result = g.result := rfl
@[simp] theorem Engine.undescribe_errSticky : (g.undescribe).errSticky = g.errSticky := rfl
@[simp] theorem Engine.undescribe_hazard : (g.undescribe).hazard = g.hazard := rfl
@[simp] theorem Engine.undescribe_bufBase : (g.undescribe).bufBase = g.bufBase := rfl
@[simp] theorem Engine.undescribe_reqLen : (g.undescribe).reqLen = g.reqLen := rfl
@[simp] theorem Engine.undescribe_fftLen : (g.undescribe).fftLen = 0 := rfl
@[simp] theorem Engine.undescribe_ifft : (g.undescribe).ifft = false := rfl
@[simp] theorem Engine.undescribe_bitrev : (g.undescribe).bitrev = false := rfl
@[simp] theorem Engine.undescribe_twidMod : (g.undescribe).twidMod = 0 := rfl
@[simp] theorem Engine.undescribe_bitrevMod : (g.undescribe).bitrevMod = 0 := rfl
@[simp] theorem Engine.undescribe_oneByFftLen : (g.undescribe).oneByFftLen = 0 := rfl
@[simp] theorem Engine.undescribe_pending : (g.undescribe).pending = g.pending := rfl
@[simp] theorem Engine.undescribe_trace : (g.undescribe).trace = g.trace := rfl
@[simp] theorem Engine.undescribe_spoilt : (g.undescribe).spoilt = g.spoilt := rfl
@[simp] theorem Engine.undescribe_overlaps : (g.undescribe).overlaps = g.overlaps := rfl

end undescribe

section latch
variable (v : Word) (g : Engine)

@[simp] theorem Engine.latch_initValid : (g.latch v).initValid = g.initValid := rfl
@[simp] theorem Engine.latch_result : (g.latch v).result = g.result := rfl
@[simp] theorem Engine.latch_errSticky : (g.latch v).errSticky = g.errSticky := rfl
@[simp] theorem Engine.latch_hazard : (g.latch v).hazard = g.hazard := rfl
@[simp] theorem Engine.latch_bufBase : (g.latch v).bufBase = g.bufBase := rfl
@[simp] theorem Engine.latch_reqLen : (g.latch v).reqLen = g.reqLen := rfl
@[simp] theorem Engine.latch_fftLen : (g.latch v).fftLen = g.fftLen := rfl
@[simp] theorem Engine.latch_ifft : (g.latch v).ifft = g.ifft := rfl
@[simp] theorem Engine.latch_bitrev : (g.latch v).bitrev = g.bitrev := rfl
@[simp] theorem Engine.latch_twidMod : (g.latch v).twidMod = g.twidMod := rfl
@[simp] theorem Engine.latch_bitrevMod : (g.latch v).bitrevMod = g.bitrevMod := rfl
@[simp] theorem Engine.latch_oneByFftLen : (g.latch v).oneByFftLen = g.oneByFftLen := rfl
@[simp] theorem Engine.latch_pending : (g.latch v).pending = some { cmd := v, base := g.bufBase, req := g.reqLen } := rfl
@[simp] theorem Engine.latch_trace : (g.latch v).trace = g.trace := rfl
@[simp] theorem Engine.latch_spoilt : (g.latch v).spoilt = g.spoilt := rfl
@[simp] theorem Engine.latch_overlaps : (g.latch v).overlaps = g.overlaps := rfl

end latch

section accepted
variable (entries : List Overlap) (g : Engine)

@[simp] theorem Engine.accepted_initValid : (g.accepted entries).initValid = g.initValid := rfl
@[simp] theorem Engine.accepted_result : (g.accepted entries).result = g.result := rfl
@[simp] theorem Engine.accepted_errSticky : (g.accepted entries).errSticky = g.errSticky := rfl
@[simp] theorem Engine.accepted_hazard : (g.accepted entries).hazard = (g.hazard || !entries.isEmpty) := rfl
@[simp] theorem Engine.accepted_bufBase : (g.accepted entries).bufBase = g.bufBase := rfl
@[simp] theorem Engine.accepted_reqLen : (g.accepted entries).reqLen = g.reqLen := rfl
@[simp] theorem Engine.accepted_fftLen : (g.accepted entries).fftLen = g.fftLen := rfl
@[simp] theorem Engine.accepted_ifft : (g.accepted entries).ifft = g.ifft := rfl
@[simp] theorem Engine.accepted_bitrev : (g.accepted entries).bitrev = g.bitrev := rfl
@[simp] theorem Engine.accepted_twidMod : (g.accepted entries).twidMod = g.twidMod := rfl
@[simp] theorem Engine.accepted_bitrevMod : (g.accepted entries).bitrevMod = g.bitrevMod := rfl
@[simp] theorem Engine.accepted_oneByFftLen : (g.accepted entries).oneByFftLen = g.oneByFftLen := rfl
@[simp] theorem Engine.accepted_pending : (g.accepted entries).pending = g.pending := rfl
@[simp] theorem Engine.accepted_trace : (g.accepted entries).trace = g.trace := rfl
@[simp] theorem Engine.accepted_spoilt : (g.accepted entries).spoilt = false := rfl
@[simp] theorem Engine.accepted_overlaps : (g.accepted entries).overlaps = entries := rfl

end accepted

section met
variable (e : Nat) (r : Nat × Nat) (g : Engine)

@[simp] theorem Engine.met_initValid : (g.met e r).initValid = g.initValid := rfl
@[simp] theorem Engine.met_result : (g.met e r).result = g.result := rfl
@[simp] theorem Engine.met_errSticky : (g.met e r).errSticky = g.errSticky := rfl
@[simp] theorem Engine.met_hazard : (g.met e r).hazard = true := rfl
@[simp] theorem Engine.met_bufBase : (g.met e r).bufBase = g.bufBase := rfl
@[simp] theorem Engine.met_reqLen : (g.met e r).reqLen = g.reqLen := rfl
@[simp] theorem Engine.met_fftLen : (g.met e r).fftLen = g.fftLen := rfl
@[simp] theorem Engine.met_ifft : (g.met e r).ifft = g.ifft := rfl
@[simp] theorem Engine.met_bitrev : (g.met e r).bitrev = g.bitrev := rfl
@[simp] theorem Engine.met_twidMod : (g.met e r).twidMod = g.twidMod := rfl
@[simp] theorem Engine.met_bitrevMod : (g.met e r).bitrevMod = g.bitrevMod := rfl
@[simp] theorem Engine.met_oneByFftLen : (g.met e r).oneByFftLen = g.oneByFftLen := rfl
@[simp] theorem Engine.met_pending : (g.met e r).pending = g.pending := rfl
@[simp] theorem Engine.met_trace : (g.met e r).trace = g.trace := rfl
@[simp] theorem Engine.met_spoilt : (g.met e r).spoilt = g.spoilt := rfl
@[simp] theorem Engine.met_overlaps : (g.met e r).overlaps = { partner := e, lo := r.1, hi := r.2, partnerDone := false } :: g.overlaps := rfl

end met

end Sys2Proof.Machine
end

