-- ==== Sys2Proof/Laws/Ops.lean ====
section
/-! SUPPORT. One lemma for each shared operation that says once what it can do: engine reads and writes,
scrambling, the checks and the completion of a buffer-touching command, and runs over lists. -/

namespace Sys2Proof.Machine

open Sys2Proof

/-! ### Lists of statements -/

@[simp] theorem runEach_nil {α : Type} (f : α → State → Except Fault State) (s : State) :
    runEach f [] s = .ok s := rfl

theorem runEach_cons {α : Type} (f : α → State → Except Fault State) (x : α) (xs : List α) (s : State) :
    runEach f (x :: xs) s = match f x s with | .error r => .error r | .ok t => runEach f xs t := rfl

/-- A run over a list in two parts. -/
theorem runEach_append {α : Type} (f : α → State → Except Fault State) (xs ys : List α) (s : State) :
    runEach f (xs ++ ys) s =
      match runEach f xs s with | .error r => .error r | .ok t => runEach f ys t := by
  induction xs generalizing s with
  | nil => rfl
  | cons x xs ih =>
    simp only [List.cons_append, runEach_cons]
    split
    · rfl
    · exact ih _

/-- A reflexive and transitive relation that every statement keeps is kept by the whole run. -/
theorem runEach_keeps {α : Type} {f : α → State → Except Fault State} {R : State → State → Prop}
    (hrefl : ∀ s, R s s) (htrans : ∀ s t u, R s t → R t u → R s u) {xs : List α}
    (hf : ∀ x ∈ xs, ∀ s t, f x s = .ok t → R s t) {s t : State} (h : runEach f xs s = .ok t) : R s t := by
  induction xs generalizing s with
  | nil =>
    injection h with h
    exact h ▸ hrefl _
  | cons x xs ih =>
    rw [runEach_cons] at h
    split at h
    · cases h
    · next u hu =>
      exact htrans _ _ _ (hf x List.mem_cons_self _ _ hu)
        (ih (fun y hy => hf y (List.mem_cons_of_mem _ hy)) h)

/-! ### Ownership -/

/-- What an engine owns depends on four of its fields only (R161). -/
theorem Engine.owned_congr {g h : Engine} (hp : h.pending = g.pending) (hv : h.initValid = g.initValid)
    (hl : h.fftLen = g.fftLen) (memWords : Nat) : h.owned memWords = g.owned memWords := by
  unfold Engine.owned Engine.bufferCheck
  rw [hp, hv, hl]

theorem Engine.ownsWord_congr {g h : Engine} (hp : h.pending = g.pending) (hv : h.initValid = g.initValid)
    (hl : h.fftLen = g.fftLen) (memWords a : Nat) : h.ownsWord memWords a = g.ownsWord memWords a := by
  unfold Engine.ownsWord
  rw [Engine.owned_congr hp hv hl]

/-- What an engine owns, said without a match: the buffer of a latched command that touches it and passes its
checks (R42). -/
theorem Engine.owned_eq_some {g : Engine} {memWords : Nat} {r : Nat × Nat} :
    g.owned memWords = some r ↔ ∃ p i, g.pending = some p ∧ decode p.cmd = .ok i ∧ i.touchesBuffer = true
      ∧ g.bufferCheck memWords i.stageOperand p.base = .ok ∧ r = (p.base.toNat, bufferEnd g p) := by
  unfold Engine.owned
  constructor
  · intro h
    split at h
    · cases h
    · next p hp =>
      split at h
      · cases h
      · next i hi =>
        split at h
        · next hc => exact ⟨p, i, hp, hi, hc.1, hc.2, (Option.some.inj h).symm⟩
        · cases h
  · rintro ⟨p, i, hp, hi, ht, hc, rfl⟩
    simp only [hp, hi, ht, hc, and_self, if_true]
    rfl

/-- The words an engine owns are those of its owned range (R42). -/
theorem Engine.ownsWord_eq_true {g : Engine} {memWords a : Nat} :
    g.ownsWord memWords a = true ↔ ∃ lo hi, g.owned memWords = some (lo, hi) ∧ lo ≤ a ∧ a < hi := by
  unfold Engine.ownsWord
  cases g.owned memWords with
  | none => simp
  | some r =>
    rw [decide_eq_true_eq]
    exact ⟨fun h => ⟨r.1, r.2, rfl, h⟩, fun ⟨lo, hi, hr, h⟩ => by obtain rfl := Option.some.inj hr; exact h⟩

/-- An idle engine owns nothing (R42). -/
@[simp] theorem Engine.owned_of_idle {g : Engine} (h : g.pending = none) (memWords : Nat) :
    g.owned memWords = none := by
  unfold Engine.owned
  rw [h]

/-- A word is foreign exactly when some engine other than the accessing agent owns it (R162). -/
theorem State.foreign_eq_true {s : State} {who : Option Nat} {a : Nat} :
    s.foreign who a = true ↔
      ∃ (k : Nat) (g : Engine), s.engines[k]? = some g ∧ who ≠ some k ∧ g.ownsWord s.params.memWords a = true := by
  unfold State.foreign State.foreignOwner
  simp only [List.any_eq_true, id_eq, List.mem_mapIdx]
  constructor
  · rintro ⟨b, ⟨k, hk, rfl⟩, hb⟩
    simp only [Bool.and_eq_true, decide_eq_true_eq] at hb
    exact ⟨k, s.engines[k], List.getElem?_eq_getElem hk, hb.1, hb.2⟩
  · rintro ⟨k, g, hk, hw, ho⟩
    obtain ⟨hlt, rfl⟩ := List.getElem?_eq_some_iff.1 hk
    exact ⟨true, ⟨k, hlt, by simp [hw, ho]⟩, rfl⟩

/-- With nobody else owning the word, an access disturbs nobody (R162). -/
theorem State.intrude_of_not_foreign {s : State} {who : Option Nat} {a : Nat} (w : Bool)
    (h : s.foreign who a = false) : s.intrude who a w = s := by
  have hid : s.engines.mapIdx (fun j g => if s.foreignOwner who a j g then g.intruded w else g) = s.engines := by
    apply List.ext_getElem?
    intro k
    rw [List.getElem?_mapIdx]
    cases hk : s.engines[k]? with
    | none => rfl
    | some g =>
      have hf : s.foreignOwner who a k g = false := by
        cases hfo : s.foreignOwner who a k g with
        | false => rfl
        | true =>
          have hc : s.foreign who a = true := by
            refine State.foreign_eq_true.2 ⟨k, g, hk, ?_⟩
            simpa [State.foreignOwner] using hfo
          rw [h] at hc
          cases hc
      simp [hf]
  show { s with engines := _ } = s
  rw [hid]

/-- The engine at each index after an access: disturbed where it owns the word and is not the accessing
agent itself (R162). -/
theorem State.intrude_engine (who : Option Nat) (a : Nat) (w : Bool) (s : State) (k : Nat) :
    (s.intrude who a w).engines[k]? =
      (s.engines[k]?).map (fun g =>
        if who ≠ some k ∧ g.ownsWord s.params.memWords a = true then g.intruded w else g) := by
  rw [State.intrude_engines, List.getElem?_mapIdx]
  unfold State.foreignOwner
  simp only [Bool.and_eq_true, decide_eq_true_eq]

/-! ### Engine reads and writes -/

/-- What an engine read can answer (R46, R162, R163). -/
theorem State.engineRead_ok {e a : Nat} {s t : State} {v : Word} (h : s.engineRead e a = .ok (v, t)) :
    (t = s ∧ Memory.readWord s.mem a = some v ∧ s.foreign (some e) a = false) ∨
      (t = { s.intrude (some e) a false with freeCount := s.freeCount + 1 }
        ∧ v = Config.freeWord s.freeCount ∧ s.foreign (some e) a = true) := by
  unfold State.engineRead at h
  split at h
  · cases h
  · next w hw =>
    split at h
    · next hf =>
      injection h with h
      injection h with h1 h2
      exact .inr ⟨h2.symm, h1.symm, hf⟩
    · next hf =>
      injection h with h
      injection h with h1 h2
      exact .inl ⟨h2.symm, h1 ▸ hw, by simpa using hf⟩

/-- The one fault of an engine read is the unwritten word (R163). -/
theorem State.engineRead_error {e a : Nat} {s : State} {f : Fault} (h : s.engineRead e a = .error f) :
    f = .unwrittenRead e a ∧ Memory.readWord s.mem a = none := by
  unfold State.engineRead at h
  split at h
  · next hw =>
    injection h with h
    exact ⟨h.symm, hw⟩
  · split at h <;> cases h

/-- With nobody else owning the word, an engine read is a plain read (R46). -/
theorem State.engineRead_alone {e a : Nat} {s : State} {v : Word} (hv : Memory.readWord s.mem a = some v)
    (hf : s.foreign (some e) a = false) : s.engineRead e a = .ok (v, s) := by
  unfold State.engineRead
  rw [hv]
  simp [hf]

/-- With nobody else owning the word, an engine write is a plain write (R47). -/
theorem State.engineWrite_alone {e a : Nat} {s : State} (v : Word) (hf : s.foreign (some e) a = false) :
    s.engineWrite e a v = { s with mem := Memory.writeWord s.mem a v } := by
  unfold State.engineWrite
  simp [hf]

/-- An engine write always takes effect (R47, R162). -/
@[simp] theorem State.engineWrite_mem (e a : Nat) (v : Word) (s : State) :
    (s.engineWrite e a v).mem = Memory.writeWord s.mem a v := by
  unfold State.engineWrite
  split <;> rfl

/-- An engine write takes effect and disturbs the other owners of the word, where there are any (R47, R162). -/
theorem State.engineWrite_eq (e a : Nat) (v : Word) (s : State) :
    s.engineWrite e a v = { s.intrude (some e) a true with mem := Memory.writeWord s.mem a v } := by
  unfold State.engineWrite
  cases hf : s.foreign (some e) a with
  | true => rfl
  | false => rw [State.intrude_of_not_foreign true hf]; rfl

/-! ### Scrambling -/

@[simp] theorem State.scramble_params (as : List Nat) (s : State) : (State.scramble as s).params = s.params := by
  induction as generalizing s with
  | nil => rfl
  | cons a as ih => exact ih _

@[simp] theorem State.scramble_engines (as : List Nat) (s : State) :
    (State.scramble as s).engines = s.engines := by
  induction as generalizing s with
  | nil => rfl
  | cons a as ih => exact ih _

@[simp] theorem State.scramble_active (as : List Nat) (s : State) : (State.scramble as s).active = s.active := by
  induction as generalizing s with
  | nil => rfl
  | cons a as ih => exact ih _

@[simp] theorem State.scramble_schedule (as : List Nat) (s : State) :
    (State.scramble as s).schedule = s.schedule := by
  induction as generalizing s with
  | nil => rfl
  | cons a as ih => exact ih _

@[simp] theorem State.scramble_hostData (as : List Nat) (s : State) :
    (State.scramble as s).hostData = s.hostData := by
  induction as generalizing s with
  | nil => rfl
  | cons a as ih => exact ih _

/-- Scrambling writes no byte outside its words. -/
theorem State.scramble_readByte_outside {as : List Nat} {b : Nat} (h : b / 4 ∉ as) (s : State) :
    Memory.readByte (State.scramble as s).mem b = Memory.readByte s.mem b := by
  induction as generalizing s with
  | nil => rfl
  | cons a as ih =>
    obtain ⟨h1, h2⟩ := not_or.1 (fun h' => h (List.mem_cons.2 h'))
    unfold State.scramble
    rw [ih h2, Memory.readByte_writeWord, if_neg h1]

/-- Scrambling keeps the canonical form. -/
theorem State.scramble_wf {as : List Nat} {s : State} (h : Memory.wf s.mem) :
    Memory.wf (State.scramble as s).mem := by
  induction as generalizing s with
  | nil => exact h
  | cons a as ih => exact ih (Memory.wf_writeWord h _ _)

/-- After scrambling, each of its words holds some free word. -/
theorem State.scramble_readWord {as : List Nat} {a : Nat} (h : a ∈ as) (s : State) :
    ∃ k, Memory.readWord (State.scramble as s).mem a = some (Config.freeWord k) := by
  induction as generalizing s with
  | nil => cases h
  | cons c as ih =>
    unfold State.scramble
    by_cases ha : a ∈ as
    · exact ih ha _
    · obtain rfl : a = c := (List.mem_cons.1 h).resolve_right ha
      refine ⟨s.freeCount, ?_⟩
      rw [Memory.readWord_congr (m := Memory.writeWord s.mem a (Config.freeWord s.freeCount)),
        Memory.readWord_writeWord_same]
      intro b h1 h2
      exact State.scramble_readByte_outside (by rwa [show b / 4 = a by omega]) _

/-- Scrambling writes no other word. -/
theorem State.scramble_readWord_other {as : List Nat} {a : Nat} (h : a ∉ as) (s : State) :
    Memory.readWord (State.scramble as s).mem a = Memory.readWord s.mem a :=
  Memory.readWord_congr (fun b h1 h2 =>
    State.scramble_readByte_outside (by rwa [show b / 4 = a by omega]) s)

/-- An unspoilt engine leaves no word unspecified outside the ranges shared with a command that is over (R161, R162). -/
theorem Engine.not_mem_unspecifiedWords {g : Engine} {a : Nat} (hs : g.spoilt = false)
    (ho : ∀ o ∈ g.overlaps, o.partnerDone = true → ¬ (o.lo ≤ a ∧ a < o.hi)) (lo hi : Nat) :
    a ∉ g.unspecifiedWords lo hi := by
  unfold Engine.unspecifiedWords
  intro h
  have ha := (List.mem_filter.1 h).2
  rw [hs, Bool.false_or, List.any_eq_true] at ha
  obtain ⟨o, hm, hd⟩ := ha
  rw [Bool.and_eq_true, decide_eq_true_eq] at hd
  exact ho o hm hd.1 hd.2

/-- Without a hazard no word is left unspecified (R161, R162). -/
theorem Engine.unspecifiedWords_nil {g : Engine} (hs : g.spoilt = false) (ho : g.overlaps = []) (lo hi : Nat) :
    g.unspecifiedWords lo hi = [] := by
  unfold Engine.unspecifiedWords
  simp [hs, ho]

/-- The words left unspecified lie in the owned range. -/
theorem Engine.mem_unspecifiedWords {g : Engine} {lo hi a : Nat} (h : a ∈ g.unspecifiedWords lo hi) :
    lo ≤ a ∧ a < hi := by
  unfold Engine.unspecifiedWords at h
  have := (List.mem_filter.1 h).1
  rw [List.mem_range'_1] at this
  omega

/-! ### The commands that touch the buffer -/

/-- The latched command of a state, read off. -/
theorem State.latched_eq_some {s : State} {g : Engine} {p : Pending} :
    s.latched = some (g, p) ↔ s.Latched g p := by
  unfold State.latched
  constructor
  · intro h
    split at h
    · cases h
    · next g' hg =>
      split at h
      · cases h
      · next p' hp =>
        injection h with h
        injection h with h1 h2
        subst h1 h2
        exact ⟨hg, hp⟩
  · rintro ⟨hg, hp⟩
    simp [hg, hp]

/-- What a buffer-touching command can do: a failed check raises its code and does nothing else, or the
checks pass and the command completes on the buffer with `OK` (R151, R153, R155). -/
theorem State.runBuffer_next {stage : Option Nat} {body : Job → State → Except Fault State} {s t : State}
    (h : s.runBuffer stage body = .next t) :
    ∃ g p, s.Latched g p ∧
      ((g.bufferCheck s.params.memWords stage p.base ≠ .ok
          ∧ t = s.raise (g.bufferCheck s.params.memWords stage p.base)) ∨
        (g.bufferCheck s.params.memWords stage p.base = .ok ∧
          ∃ u, body (g.job s.active p) s = .ok u ∧ t = u.completeOn p.base.toNat (bufferEnd g p))) := by
  unfold State.runBuffer at h
  split at h
  · cases h
  · next g p hl =>
    refine ⟨g, p, State.latched_eq_some.1 hl, ?_⟩
    split at h
    · next hc =>
      split at h
      · cases h
      · next u hu =>
        injection h with h
        exact .inr ⟨hc, u, hu, h.symm⟩
    · next r hne =>
      injection h with h
      exact .inl ⟨hne, h.symm⟩

/-- A command whose checks pass and whose body runs to its end completes on the buffer (R151). -/
theorem State.runBuffer_completes {stage : Option Nat} {body : Job → State → Except Fault State} {s u : State}
    {g : Engine} {p : Pending} (hl : s.Latched g p) (hc : g.bufferCheck s.params.memWords stage p.base = .ok)
    (hb : body (g.job s.active p) s = .ok u) :
    s.runBuffer stage body = .next (u.completeOn p.base.toNat (bufferEnd g p)) := by
  unfold State.runBuffer
  simp only [State.latched_eq_some.2 hl, hc, hb]
  rfl

/-- A command whose check fails raises the code of the check (R153). -/
theorem State.runBuffer_raises {stage : Option Nat} {body : Job → State → Except Fault State} {s : State}
    {g : Engine} {p : Pending} (hl : s.Latched g p) (hc : g.bufferCheck s.params.memWords stage p.base ≠ .ok) :
    s.runBuffer stage body = .next (s.raise (g.bufferCheck s.params.memWords stage p.base)) := by
  unfold State.runBuffer
  simp only [State.latched_eq_some.2 hl]

/-- A command whose checks pass faults where its body faults (R163). -/
theorem State.runBuffer_faults {stage : Option Nat} {body : Job → State → Except Fault State} {s : State}
    {g : Engine} {p : Pending} {f : Fault} (hl : s.Latched g p)
    (hc : g.bufferCheck s.params.memWords stage p.base = .ok) (hb : body (g.job s.active p) s = .error f) :
    s.runBuffer stage body = .fault f := by
  unfold State.runBuffer
  simp only [State.latched_eq_some.2 hl, hc, hb]

/-- The checks pass on a valid descriptor, a legal stage and a buffer that fits (R153). -/
theorem Engine.bufferCheck_ok {g : Engine} {memWords : Nat} {stage : Option Nat} {base : Word} :
    g.bufferCheck memWords stage base = .ok ↔
      g.initValid = true ∧ (∀ k, stage = some k → 1 ≤ k ∧ k ≤ log4 g.fftLen.toNat - 2)
        ∧ base.toNat + 2 * g.fftLen.toNat ≤ memWords := by
  unfold Engine.bufferCheck
  split
  · next h => simp [h]
  · next h1 =>
    have hv : g.initValid = true := by simpa using h1
    split
    · next h2 =>
      obtain ⟨k, rfl, hk⟩ := (Option.any_eq_true _ _).1 h2
      rw [decide_eq_true_eq] at hk
      exact ⟨(fun h => nomatch h), fun h => absurd (h.2.1 k rfl) hk⟩
    · next h2 =>
      have hs : ∀ k, stage = some k → 1 ≤ k ∧ k ≤ log4 g.fftLen.toNat - 2 := by
        rintro k rfl
        by_contra hk
        exact h2 (by simp only [Option.any_some, decide_eq_true_eq]; exact hk)
      split
      · next h3 => exact ⟨(fun h => nomatch h), fun h => by omega⟩
      · next h3 => exact ⟨fun _ => ⟨hv, hs, by omega⟩, fun _ => rfl⟩

/-- The fields a completion does not write. -/
@[simp] theorem State.settle_params (lo hi : Nat) (s : State) : (s.settle lo hi).params = s.params := by
  unfold State.settle
  split <;> simp

@[simp] theorem State.settle_engines (lo hi : Nat) (s : State) : (s.settle lo hi).engines = s.engines := by
  unfold State.settle
  split <;> simp

@[simp] theorem State.settle_active (lo hi : Nat) (s : State) : (s.settle lo hi).active = s.active := by
  unfold State.settle
  split <;> simp

@[simp] theorem State.settle_schedule (lo hi : Nat) (s : State) : (s.settle lo hi).schedule = s.schedule := by
  unfold State.settle
  split <;> simp

@[simp] theorem State.settle_hostData (lo hi : Nat) (s : State) : (s.settle lo hi).hostData = s.hostData := by
  unfold State.settle
  split <;> simp

@[simp] theorem State.completeOn_params (lo hi : Nat) (s : State) : (s.completeOn lo hi).params = s.params :=
  State.settle_params lo hi s

@[simp] theorem State.completeOn_active (lo hi : Nat) (s : State) : (s.completeOn lo hi).active = s.active :=
  State.settle_active lo hi s

@[simp] theorem State.completeOn_schedule (lo hi : Nat) (s : State) :
    (s.completeOn lo hi).schedule = s.schedule := State.settle_schedule lo hi s

@[simp] theorem State.completeOn_hostData (lo hi : Nat) (s : State) :
    (s.completeOn lo hi).hostData = s.hostData := State.settle_hostData lo hi s

@[simp] theorem State.completeOn_mem (lo hi : Nat) (s : State) :
    (s.completeOn lo hi).mem = (s.settle lo hi).mem := rfl

/-- Each engine after a completion: the completing one has finished, every other knows of it (R151, R161). -/
theorem State.completeOn_engine (lo hi : Nat) (s : State) (k : Nat) :
    (s.completeOn lo hi).engines[k]? =
      (s.engines[k]?).map (fun g => if k = s.active then g.finish .ok else g.partnerOver s.active) := by
  show (List.mapIdx _ (s.settle lo hi).engines)[k]? = _
  rw [List.getElem?_mapIdx, State.settle_engines, State.settle_active]

/-- A completion leaves every byte outside the owned range alone. -/
theorem State.settle_outside (lo hi : Nat) (s : State) : sameOutside lo hi s (s.settle lo hi) := by
  intro b hb
  unfold State.settle
  split
  · rfl
  · next g hg =>
    apply State.scramble_readByte_outside
    intro hm
    have := Engine.mem_unspecifiedWords hm
    omega

/-- A completion keeps the canonical form. -/
theorem State.settle_wf {lo hi : Nat} {s : State} (h : Memory.wf s.mem) : Memory.wf (s.settle lo hi).mem := by
  unfold State.settle
  split
  · exact h
  · exact State.scramble_wf h

/-- Without a hazard a completion leaves the memory as the command left it. -/
theorem State.settle_clean {s : State} {g : Engine} (hg : s.engines[s.active]? = some g)
    (hs : g.spoilt = false) (ho : g.overlaps = []) (lo hi : Nat) : s.settle lo hi = s := by
  unfold State.settle
  rw [hg]
  simp [Engine.unspecifiedWords_nil hs ho, State.scramble]

/-- A completion leaves a word as the command left it where no hazard makes it unspecified (R161, R162). -/
theorem State.settle_readWord {s : State} {g : Engine} {a : Nat} (hg : s.engines[s.active]? = some g)
    (hs : g.spoilt = false) (ho : ∀ o ∈ g.overlaps, o.partnerDone = true → ¬ (o.lo ≤ a ∧ a < o.hi))
    (lo hi : Nat) : Memory.readWord (s.settle lo hi).mem a = Memory.readWord s.mem a := by
  unfold State.settle
  rw [hg]
  exact State.scramble_readWord_other (Engine.not_mem_unspecifiedWords hs ho lo hi) s

end Sys2Proof.Machine
end

