-- ==== Sys2Proof/Laws/Frame.lean ====
section
/-! SUPPORT. The frame of a command body: what any body may change of the state it runs on, whatever
hazards it meets, and that each shared operation of a body stays inside that frame. -/

namespace Sys2Proof.Machine

open Sys2Proof

/-- What a body run by one engine may do to an engine; `own` says whether it is that engine itself. -/
structure Engine.Kept (own : Bool) (g h : Engine) : Prop where
  registers : g.sameRegisters h
  result : h.result = g.result
  errSticky : h.errSticky = g.errSticky
  pending : h.pending = g.pending
  overlaps : h.overlaps = g.overlaps
  hazardStays : g.hazard = true → h.hazard = true
  spoiltStays : g.spoilt = true → h.spoilt = true
  trace : ∃ evs, h.trace = g.trace ++ evs ∧ (own = false → evs = [])
  quiet : own = true → h.hazard = g.hazard ∧ h.spoilt = g.spoilt

theorem Engine.sameRegisters_refl (g : Engine) : g.sameRegisters g :=
  ⟨rfl, rfl, rfl, rfl, rfl, rfl, rfl, rfl, rfl⟩

theorem Engine.sameRegisters_trans {g h k : Engine} (h1 : g.sameRegisters h) (h2 : h.sameRegisters k) :
    g.sameRegisters k := by
  obtain ⟨a1, a2, a3, a4, a5, a6, a7, a8, a9⟩ := h1
  obtain ⟨b1, b2, b3, b4, b5, b6, b7, b8, b9⟩ := h2
  exact ⟨b1.trans a1, b2.trans a2, b3.trans a3, b4.trans a4, b5.trans a5, b6.trans a6, b7.trans a7,
    b8.trans a8, b9.trans a9⟩

theorem Engine.Kept.refl (own : Bool) (g : Engine) : g.Kept own g where
  registers := g.sameRegisters_refl
  result := rfl
  errSticky := rfl
  pending := rfl
  overlaps := rfl
  hazardStays := id
  spoiltStays := id
  trace := ⟨[], (List.append_nil _).symm, fun _ => rfl⟩
  quiet := fun _ => ⟨rfl, rfl⟩

theorem Engine.Kept.trans {own : Bool} {g h k : Engine} (h1 : g.Kept own h) (h2 : h.Kept own k) :
    g.Kept own k where
  registers := Engine.sameRegisters_trans h1.registers h2.registers
  result := h2.result.trans h1.result
  errSticky := h2.errSticky.trans h1.errSticky
  pending := h2.pending.trans h1.pending
  overlaps := h2.overlaps.trans h1.overlaps
  hazardStays := fun hh => h2.hazardStays (h1.hazardStays hh)
  spoiltStays := fun hs => h2.spoiltStays (h1.spoiltStays hs)
  trace := by
    obtain ⟨e1, t1, n1⟩ := h1.trace
    obtain ⟨e2, t2, n2⟩ := h2.trace
    exact ⟨e1 ++ e2, by rw [t2, t1, List.append_assoc], fun ho => by rw [n1 ho, n2 ho]; rfl⟩
  quiet := fun ho =>
    ⟨(h2.quiet ho).1.trans (h1.quiet ho).1, (h2.quiet ho).2.trans (h1.quiet ho).2⟩

/-- What a body run by engine `e` on the words of a set `W` may change. -/
structure BodyFrame (e : Nat) (W : Nat → Prop) (s t : State) : Prop where
  params : t.params = s.params
  active : t.active = s.active
  schedule : t.schedule = s.schedule
  hostData : t.hostData = s.hostData
  count : t.engines.length = s.engines.length
  engines : ∀ (k : Nat) (g : Engine), s.engines[k]? = some g → ∃ h : Engine, t.engines[k]? = some h ∧ g.Kept (k == e) h
  outside : ∀ b, ¬ W (b / 4) → Memory.readByte t.mem b = Memory.readByte s.mem b
  canonical : Memory.wf s.mem → Memory.wf t.mem

theorem BodyFrame.refl (e : Nat) (W : Nat → Prop) (s : State) : BodyFrame e W s s where
  params := rfl
  active := rfl
  schedule := rfl
  hostData := rfl
  count := rfl
  engines := fun _ g hg => ⟨g, hg, Engine.Kept.refl _ g⟩
  outside := fun _ _ => rfl
  canonical := id

theorem BodyFrame.trans {e : Nat} {W : Nat → Prop} {s t u : State} (h1 : BodyFrame e W s t)
    (h2 : BodyFrame e W t u) : BodyFrame e W s u where
  params := h2.params.trans h1.params
  active := h2.active.trans h1.active
  schedule := h2.schedule.trans h1.schedule
  hostData := h2.hostData.trans h1.hostData
  count := h2.count.trans h1.count
  engines := fun k g hg => by
    obtain ⟨h, hh, k1⟩ := h1.engines k g hg
    obtain ⟨h', hh', k2⟩ := h2.engines k h hh
    exact ⟨h', hh', k1.trans k2⟩
  outside := fun b hb => (h2.outside b hb).trans (h1.outside b hb)
  canonical := fun hw => h2.canonical (h1.canonical hw)

/-- Ownership does not change while a body runs (R161). -/
theorem BodyFrame.foreign {e : Nat} {W : Nat → Prop} {s t : State} (h : BodyFrame e W s t) (who : Option Nat)
    (a : Nat) : t.foreign who a = s.foreign who a := by
  have owns : ∀ {k : Nat} {g g' : Engine}, g.Kept (k == e) g' → ∀ m, g'.ownsWord m a = g.ownsWord m a :=
    fun hk m => Engine.ownsWord_congr hk.pending hk.registers.1 hk.registers.2.1 m a
  rw [Bool.eq_iff_iff, State.foreign_eq_true, State.foreign_eq_true]
  constructor
  · rintro ⟨k, g', hg', hw, ho⟩
    have hlt : k < s.engines.length := h.count ▸ (List.getElem?_eq_some_iff.1 hg').1
    obtain ⟨g2, hg2, hk⟩ := h.engines k _ (List.getElem?_eq_getElem hlt)
    rw [hg'] at hg2
    injection hg2 with hg2
    subst hg2
    refine ⟨k, _, List.getElem?_eq_getElem hlt, hw, ?_⟩
    rw [owns hk, h.params] at ho
    exact ho
  · rintro ⟨k, g, hg, hw, ho⟩
    obtain ⟨g', hg', hk⟩ := h.engines k g hg
    exact ⟨k, g', hg', hw, by rw [owns hk, h.params]; exact ho⟩

/-- An access disturbs only other engines, and of them only `HAZARD` and the hazard bookkeeping (R162). -/
theorem State.intrude_frame (e a : Nat) (W : Nat → Prop) (w : Bool) (s : State) :
    BodyFrame e W s (s.intrude (some e) a w) where
  params := rfl
  active := rfl
  schedule := rfl
  hostData := rfl
  count := by simp
  engines := by
    intro k g hg
    simp only [State.intrude_engines, List.getElem?_mapIdx, hg, Option.map_some]
    refine ⟨_, rfl, ?_⟩
    split
    · next hf =>
      have hne : (k == e) = false := by
        unfold State.foreignOwner at hf
        simp only [Bool.and_eq_true, decide_eq_true_eq, ne_eq, Option.some.injEq] at hf
        simpa using fun h => hf.1 h.symm
      rw [hne]
      exact {
        registers := ⟨rfl, rfl, rfl, rfl, rfl, rfl, rfl, rfl, rfl⟩
        result := rfl
        errSticky := rfl
        pending := rfl
        overlaps := rfl
        hazardStays := fun _ => rfl
        spoiltStays := fun hs => by rw [Engine.intruded_spoilt, hs, Bool.true_or]
        trace := ⟨[], (List.append_nil _).symm, fun _ => rfl⟩
        quiet := fun h => nomatch h }
    · exact Engine.Kept.refl _ g
  outside := fun _ _ => rfl
  canonical := id

theorem State.engineRead_frame {e a : Nat} {W : Nat → Prop} {s t : State} {v : Word}
    (h : s.engineRead e a = .ok (v, t)) : BodyFrame e W s t ∧ t.mem = s.mem := by
  rcases State.engineRead_ok h with ⟨rfl, -, -⟩ | ⟨rfl, -, -⟩
  · exact ⟨BodyFrame.refl _ _ _, rfl⟩
  · have hf := State.intrude_frame e a W false s
    exact ⟨⟨hf.params, hf.active, hf.schedule, hf.hostData, hf.count, hf.engines, hf.outside, hf.canonical⟩, rfl⟩

theorem State.engineWrite_frame {e a : Nat} {W : Nat → Prop} (v : Word) (s : State) (ha : W a) :
    BodyFrame e W s (s.engineWrite e a v) := by
  have base : BodyFrame e W s (if s.foreign (some e) a then s.intrude (some e) a true else s) := by
    split
    · exact State.intrude_frame _ _ _ _ _
    · exact BodyFrame.refl _ _ _
  refine ⟨base.params, base.active, base.schedule, base.hostData, base.count, base.engines, ?_, ?_⟩
  · intro b hb
    rw [State.engineWrite_mem, Memory.readByte_writeWord, if_neg (fun h : b / 4 = a => hb (h ▸ ha))]
  · intro hw
    rw [State.engineWrite_mem]
    exact Memory.wf_writeWord hw _ _

/-- A trace event is the engine's own (R41). -/
theorem State.traceEvent_frame (j : Job) (ev : TraceEvent) (W : Nat → Prop) (s : State) :
    BodyFrame j.engine W s (s.traceEvent j ev) where
  params := rfl
  active := rfl
  schedule := rfl
  hostData := rfl
  count := by simp
  engines := by
    intro k g hg
    rw [State.traceEvent_engines, List.getElem?_modify, hg]
    refine ⟨_, rfl, ?_⟩
    by_cases hk : j.engine = k
    · subst hk
      simp only [if_true, beq_self_eq_true]
      exact {
        registers := ⟨rfl, rfl, rfl, rfl, rfl, rfl, rfl, rfl, rfl⟩
        result := rfl
        errSticky := rfl
        pending := rfl
        overlaps := rfl
        hazardStays := id
        spoiltStays := id
        trace := ⟨[ev], rfl, fun h => nomatch h⟩
        quiet := fun _ => ⟨rfl, rfl⟩ }
    · simp only [if_neg hk]
      exact Engine.Kept.refl _ g
  outside := fun _ _ => rfl
  canonical := id

/-- The words of the buffer of a job (R42). -/
def Job.words (j : Job) (a : Nat) : Prop := j.base ≤ a ∧ a < j.base + 2 * j.n

/-- Both words of sample `i` of a job's buffer are in a set. -/
def Job.covers (j : Job) (W : Nat → Prop) (i : Nat) : Prop := W (reAddr j.base i) ∧ W (imAddr j.base i)

theorem Job.covers_words {j : Job} {i : Nat} (h : i < j.n) : j.covers j.words i := by
  unfold Job.covers Job.words reAddr imAddr
  omega

/-- The sample indices of a butterfly, in slot order. -/
def Slots.list (i : Slots) : List Nat := [i.i0, i.i1, i.i2, i.i3]

/-- The four sample indices of a butterfly lie in a buffer of `n` samples. -/
def Slots.within (i : Slots) (n : Nat) : Prop := i.i0 < n ∧ i.i1 < n ∧ i.i2 < n ∧ i.i3 < n

theorem Slots.within_of_list {i : Slots} {n : Nat} (h : ∀ k ∈ i.list, k < n) : i.within n := by
  simpa [Slots.list, Slots.within] using h

theorem Slots.list_of_within {i : Slots} {n : Nat} (h : i.within n) : ∀ k ∈ i.list, k < n := by
  simpa [Slots.list, Slots.within] using h

section Samples

variable {j : Job} {W : Nat → Prop} {s t : State}

theorem State.readSample_frame {i : Nat} {v : Cx} (h : s.readSample j i = .ok (v, t)) :
    BodyFrame j.engine W s t := by
  unfold State.readSample at h
  split at h
  · cases h
  · next h1 =>
    split at h
    · cases h
    · next h2 =>
      injection h with h
      injection h with _ h
      exact h ▸ (State.engineRead_frame h1).1.trans (State.engineRead_frame h2).1

theorem State.writeSample_frame {i : Nat} (v : Cx) (s : State) (hi : j.covers W i) :
    BodyFrame j.engine W s (s.writeSample j i v) :=
  (State.engineWrite_frame v.re s hi.1).trans (State.engineWrite_frame v.im _ hi.2)

theorem State.readQuad_frame {i : Slots} {v : Quad} (h : s.readQuad j i = .ok (v, t)) :
    BodyFrame j.engine W s t := by
  unfold State.readQuad at h
  split at h
  · cases h
  · next h0 =>
    split at h
    · cases h
    · next h1 =>
      split at h
      · cases h
      · next h2 =>
        split at h
        · cases h
        · next h3 =>
          injection h with h
          injection h with _ h
          exact h ▸ (State.readSample_frame h0).trans ((State.readSample_frame h1).trans
            ((State.readSample_frame h2).trans (State.readSample_frame h3)))

theorem State.writeQuad_frame {i : Slots} (v : Quad) (s : State) (hi : ∀ k ∈ i.list, j.covers W k) :
    BodyFrame j.engine W s (s.writeQuad j i v) :=
  (State.writeSample_frame v.s0 s (hi _ (by simp [Slots.list]))).trans
    ((State.writeSample_frame v.s1 _ (hi _ (by simp [Slots.list]))).trans
      ((State.writeSample_frame v.s2 _ (hi _ (by simp [Slots.list]))).trans
        (State.writeSample_frame v.s3 _ (hi _ (by simp [Slots.list])))))

/-- One butterfly changes nothing but the words of its samples and what hazards bring. -/
theorem State.butterfly_frame {f : Nat → Quad → Quad} {p : Place} (hi : ∀ k ∈ p.slots.list, j.covers W k)
    (h : State.butterfly j f p s = .ok t) : BodyFrame j.engine W s t := by
  unfold State.butterfly at h
  split at h
  · cases h
  · next v u hu =>
    injection h with h
    exact h ▸ (State.readQuad_frame hu).trans (State.writeQuad_frame _ u hi)

/-- A whole pass changes nothing but the words of its samples, its trace event and what hazards bring. -/
theorem State.pass_frame {ev : TraceEvent} {f : Nat → Quad → Quad} {places : List Place}
    (hi : ∀ p ∈ places, ∀ k ∈ p.slots.list, j.covers W k) (h : s.pass j ev f places = .ok t) :
    BodyFrame j.engine W s t :=
  (State.traceEvent_frame j ev _ s).trans
    (runEach_keeps (BodyFrame.refl _ _) (fun _ _ _ => BodyFrame.trans)
      (fun p hp _ _ hb => State.butterfly_frame (hi p hp) hb) h)

/-- One swap changes nothing but the words of its two samples and what hazards bring. -/
theorem State.swapSamples_frame {p : Nat × Nat} (h1 : j.covers W p.1) (h2 : j.covers W p.2)
    (h : State.swapSamples j p s = .ok t) : BodyFrame j.engine W s t := by
  unfold State.swapSamples at h
  split at h
  · cases h
  · next hu =>
    split at h
    · cases h
    · next hv =>
      injection h with h
      exact h ▸ (State.readSample_frame hu).trans ((State.readSample_frame hv).trans
        ((State.writeSample_frame _ _ h1).trans (State.writeSample_frame _ _ h2)))

/-- A bit-reversal pass changes nothing but the words of its swaps, its trace event and what hazards bring. -/
theorem bitrevBody_frame (hi : ∀ p ∈ swapPairs j.n, j.covers W p.1 ∧ j.covers W p.2)
    (h : bitrevBody j s = .ok t) : BodyFrame j.engine W s t :=
  (State.traceEvent_frame j .br _ s).trans
    (runEach_keeps (BodyFrame.refl _ _) (fun _ _ _ => BodyFrame.trans)
      (fun p hp _ _ hb => State.swapSamples_frame (hi p hp).1 (hi p hp).2 hb) h)

/-- A body in two parts. -/
theorem andThen_ok {f g : State → Except Fault State} {s t : State} (h : andThen f g s = .ok t) :
    ∃ u, f s = .ok u ∧ g u = .ok t := by
  unfold andThen at h
  split at h
  · cases h
  · next u hu => exact ⟨u, hu, h⟩

/-- The dispatcher changes no more than its phases do, whatever samples they work on. -/
theorem transformBody_frame (hi : ∀ i, j.covers W i) (h : transformBody j s = .ok t) :
    BodyFrame j.engine W s t := by
  obtain ⟨u1, h1, h⟩ := andThen_ok h
  obtain ⟨u2, h2, h⟩ := andThen_ok h
  obtain ⟨u3, h3, h⟩ := andThen_ok h
  refine (State.pass_frame (fun p _ k _ => hi k) h1).trans (BodyFrame.trans ?_
    ((State.pass_frame (fun p _ k _ => hi k) h3).trans ?_))
  · exact runEach_keeps (BodyFrame.refl _ _) (fun _ _ _ => BodyFrame.trans)
      (fun _ _ _ _ hb => State.pass_frame (fun p _ k _ => hi k) hb) h2
  · unfold bitrevIfSet at h
    split at h
    · exact bitrevBody_frame (fun p _ => ⟨hi _, hi _⟩) h
    · injection h with h
      exact h ▸ BodyFrame.refl _ _ _

end Samples

/-- The slots of a Stage-1 butterfly lie in the buffer (R102). -/
theorem stage1Places_within {n twidMod : Nat} {p : Place} (h : p ∈ stage1Places n twidMod) :
    p.slots.within n := by
  obtain ⟨g, hg, rfl⟩ := List.mem_map.1 h
  have := List.mem_range.1 hg
  show _ ∧ _ ∧ _ ∧ _
  simp only [spaced]
  omega

/-- The slots of a group of the last stage lie in the buffer (R121). -/
theorem lastPlaces_within {n : Nat} {p : Place} (h : p ∈ lastPlaces n) : p.slots.within n := by
  obtain ⟨g, hg, rfl⟩ := List.mem_map.1 h
  have := List.mem_range.1 hg
  show _ ∧ _ ∧ _ ∧ _
  simp only [spaced]
  omega

/-- The supported lengths of this hardware (R9). -/
theorem supported_cases {n : Nat} (h : supported n = true) :
    n = 16 ∨ n = 64 ∨ n = 256 ∨ n = 1024 ∨ n = 4096 := by
  have hl : supportedLengths = [16, 64, 256, 1024, 4096] := by decide
  unfold supported at h
  rw [hl] at h
  simpa using h

theorem log4_eval : log4 16 = 2 ∧ log4 64 = 3 ∧ log4 256 = 4 ∧ log4 1024 = 5 ∧ log4 4096 = 6 := by decide

/-- The slots of a middle-stage butterfly lie in the buffer (R112). -/
theorem middlePlaces_within {n twidMod s : Nat} (hn : supported n = true) (hs : s ≤ log4 n - 2) {p : Place}
    (h : p ∈ middlePlaces n twidMod s) : p.slots.within n := by
  unfold middlePlaces stepRange at h
  obtain ⟨jj, hj, h⟩ := List.mem_flatMap.1 h
  obtain ⟨i0, hi0, rfl⟩ := List.mem_map.1 h
  obtain ⟨m, hm, rfl⟩ := List.mem_map.1 hi0
  have hj := List.mem_range.1 hj
  have hm := List.mem_range.1 hm
  clear h hi0
  obtain ⟨l0, l1, l2, l3, l4⟩ := log4_eval
  have hs4 : s ≤ 4 := by
    rcases supported_cases hn with rfl | rfl | rfl | rfl | rfl <;> omega
  have main : ∀ q : Nat, 0 < q → n = 4 * q * (n / (4 * q)) → n / 4 ^ s = 4 * q →
      (jj + m * (n / 4 ^ s)) + 3 * (n / 4 ^ s / 4) < n := by
    intro q hq hdiv hq1
    rw [hq1] at hj hm ⊢
    rw [Nat.mul_div_cancel_left _ (by omega : 0 < 4)] at hj ⊢
    have hm2 : m * (4 * q) < n - jj := by
      have h1 : m + 1 ≤ (n - jj + 4 * q - 1) / (4 * q) := hm
      have h2 := (Nat.le_div_iff_mul_le (by omega : 0 < 4 * q)).1 h1
      rw [Nat.succ_mul] at h2
      omega
    generalize n / (4 * q) = r at hdiv
    have hmr : m < r := by
      by_contra hc
      have : r * (4 * q) ≤ m * (4 * q) := Nat.mul_le_mul_right _ (by omega)
      rw [Nat.mul_comm r] at this
      omega
    have : (m + 1) * (4 * q) ≤ r * (4 * q) := Nat.mul_le_mul_right _ hmr
    rw [Nat.succ_mul, Nat.mul_comm r] at this
    omega
  have bound : (jj + m * (n / 4 ^ s)) + 3 * (n / 4 ^ s / 4) < n := by
    apply main (n / 4 ^ s / 4)
    all_goals
      rcases supported_cases hn with rfl | rfl | rfl | rfl | rfl <;>
        interval_cases s <;> first | decide | omega
  show _ ∧ _ ∧ _ ∧ _
  simp only [spaced]
  omega

end Sys2Proof.Machine
end

