-- ==== Sys2Proof/Laws/Alone.lean ====
section
/-! SUPPORT. What a pass computes on a buffer no other engine owns: the samples of every butterfly after
the pass are its function of the samples before, and no other sample changes. -/

namespace Sys2Proof.Machine

open Sys2Proof

/-- The state with another memory. -/
def State.withMem (s : State) (m : Memory) : State := { s with mem := m }

@[simp] theorem State.withMem_mem (s : State) (m : Memory) : (s.withMem m).mem = m := rfl
@[simp] theorem State.withMem_params (s : State) (m : Memory) : (s.withMem m).params = s.params := rfl
@[simp] theorem State.withMem_engines (s : State) (m : Memory) : (s.withMem m).engines = s.engines := rfl
@[simp] theorem State.withMem_active (s : State) (m : Memory) : (s.withMem m).active = s.active := rfl
@[simp] theorem State.withMem_self (s : State) : s.withMem s.mem = s := rfl
@[simp] theorem State.withMem_withMem (s : State) (m m' : Memory) : (s.withMem m).withMem m' = s.withMem m' := rfl

/-- Ownership does not look at the memory. -/
@[simp] theorem State.foreign_withMem (s : State) (m : Memory) (who : Option Nat) (a : Nat) :
    (s.withMem m).foreign who a = s.foreign who a := rfl

/-- The two words of a sample, as one value of the memory. -/
def Memory.sample (m : Memory) (base i : Nat) : Option Cx :=
  match Memory.readWord m (reAddr base i), Memory.readWord m (imAddr base i) with
  | some x, some y => some { re := x, im := y }
  | _, _ => none

theorem State.sampleAt_eq (s : State) (base i : Nat) : s.sampleAt base i = Memory.sample s.mem base i := rfl

/-- Write the two words of a sample. -/
def Memory.writeSample (m : Memory) (base i : Nat) (v : Cx) : Memory :=
  Memory.writeWord (Memory.writeWord m (reAddr base i) v.re) (imAddr base i) v.im

theorem Memory.wf_writeSample {m : Memory} (h : Memory.wf m) (base i : Nat) (v : Cx) :
    Memory.wf (Memory.writeSample m base i v) :=
  Memory.wf_writeWord (Memory.wf_writeWord h _ _) _ _

/-- A sample after a sample write. -/
theorem Memory.sample_writeSample (m : Memory) (base i i' : Nat) (v : Cx) :
    Memory.sample (Memory.writeSample m base i v) base i' =
      if i' = i then some v else Memory.sample m base i' := by
  unfold Memory.sample Memory.writeSample
  simp only [Memory.readWord_writeWord, reAddr, imAddr]
  by_cases h : i' = i
  · subst h
    simp
  · rw [if_neg h, if_neg (by omega), if_neg (by omega), if_neg (by omega), if_neg (by omega)]

/-- A sample write stays inside the words of the sample. -/
theorem Memory.readByte_writeSample_outside (m : Memory) {base i n b : Nat} (v : Cx) (hi : i < n)
    (hb : b < 4 * base ∨ 4 * (base + 2 * n) ≤ b) :
    Memory.readByte (Memory.writeSample m base i v) b = Memory.readByte m b := by
  unfold Memory.writeSample reAddr imAddr
  rw [Memory.readByte_writeWord, if_neg (by omega), Memory.readByte_writeWord, if_neg (by omega)]

section Job

variable {j : Job} {s : State}

/-- No other engine owns a word of the job's buffer. -/
def Job.alone (j : Job) (s : State) : Prop :=
  ∀ a, j.base ≤ a → a < j.base + 2 * j.n → s.foreign (some j.engine) a = false

theorem Job.alone_withMem (m : Memory) (h : j.alone s) : j.alone (s.withMem m) := h

theorem State.readSample_alone {i : Nat} {v : Cx} (h : j.alone s) (hi : i < j.n)
    (hv : Memory.sample s.mem j.base i = some v) : s.readSample j i = .ok (v, s) := by
  unfold Memory.sample at hv
  split at hv
  · next x y hx hy =>
    injection hv with hv
    subst hv
    unfold State.readSample
    simp only [State.engineRead_alone hx (h _ (by unfold reAddr; omega) (by unfold reAddr; omega)),
      State.engineRead_alone hy (h _ (by unfold imAddr; omega) (by unfold imAddr; omega))]
  · cases hv

theorem State.writeSample_alone {i : Nat} (v : Cx) (h : j.alone s) (hi : i < j.n) :
    s.writeSample j i v = s.withMem (Memory.writeSample s.mem j.base i v) := by
  unfold State.writeSample
  rw [State.engineWrite_alone v.re (h _ (by unfold reAddr; omega) (by unfold reAddr; omega)),
    State.engineWrite_alone v.im]
  · rfl
  · exact h _ (by unfold imAddr; omega) (by unfold imAddr; omega)

/-- The four samples of a butterfly in a memory. -/
def Memory.quad (m : Memory) (base : Nat) (i : Slots) : Option Quad :=
  match Memory.sample m base i.i0, Memory.sample m base i.i1, Memory.sample m base i.i2,
    Memory.sample m base i.i3 with
  | some a, some b, some c, some d => some { s0 := a, s1 := b, s2 := c, s3 := d }
  | _, _, _, _ => none

theorem State.quadAt_eq (s : State) (base : Nat) (i : Slots) : s.quadAt base i = Memory.quad s.mem base i := rfl

theorem Memory.quad_eq_some {m : Memory} {base : Nat} {i : Slots} {v : Quad} :
    Memory.quad m base i = some v ↔
      Memory.sample m base i.i0 = some v.s0 ∧ Memory.sample m base i.i1 = some v.s1
        ∧ Memory.sample m base i.i2 = some v.s2 ∧ Memory.sample m base i.i3 = some v.s3 := by
  unfold Memory.quad
  constructor
  · intro h
    split at h
    · next h0 h1 h2 h3 =>
      injection h with h
      subst h
      exact ⟨h0, h1, h2, h3⟩
    · cases h
  · rintro ⟨h0, h1, h2, h3⟩
    rw [h0, h1, h2, h3]

/-- Write the four samples of a butterfly. -/
def Memory.writeQuad (m : Memory) (base : Nat) (i : Slots) (v : Quad) : Memory :=
  Memory.writeSample (Memory.writeSample (Memory.writeSample (Memory.writeSample m base i.i0 v.s0)
    base i.i1 v.s1) base i.i2 v.s2) base i.i3 v.s3

theorem Memory.wf_writeQuad {m : Memory} (h : Memory.wf m) (base : Nat) (i : Slots) (v : Quad) :
    Memory.wf (Memory.writeQuad m base i v) := by
  unfold Memory.writeQuad
  exact Memory.wf_writeSample (Memory.wf_writeSample (Memory.wf_writeSample
    (Memory.wf_writeSample h _ _ _) _ _ _) _ _ _) _ _ _

/-- A butterfly writes no byte outside the buffer. -/
theorem Memory.readByte_writeQuad_outside (m : Memory) {base n b : Nat} {i : Slots} (v : Quad)
    (hi : i.within n) (hb : b < 4 * base ∨ 4 * (base + 2 * n) ≤ b) :
    Memory.readByte (Memory.writeQuad m base i v) b = Memory.readByte m b := by
  obtain ⟨h0, h1, h2, h3⟩ := hi
  unfold Memory.writeQuad
  rw [Memory.readByte_writeSample_outside _ _ h3 hb, Memory.readByte_writeSample_outside _ _ h2 hb,
    Memory.readByte_writeSample_outside _ _ h1 hb, Memory.readByte_writeSample_outside _ _ h0 hb]

theorem State.readQuad_alone {i : Slots} {v : Quad} (h : j.alone s) (hi : i.within j.n)
    (hv : Memory.quad s.mem j.base i = some v) : s.readQuad j i = .ok (v, s) := by
  obtain ⟨h0, h1, h2, h3⟩ := hi
  obtain ⟨v0, v1, v2, v3⟩ := Memory.quad_eq_some.1 hv
  unfold State.readQuad
  simp only [State.readSample_alone h h0 v0, State.readSample_alone h h1 v1,
    State.readSample_alone h h2 v2, State.readSample_alone h h3 v3]

theorem State.writeQuad_alone {i : Slots} (v : Quad) (h : j.alone s) (hi : i.within j.n) :
    s.writeQuad j i v = s.withMem (Memory.writeQuad s.mem j.base i v) := by
  obtain ⟨h0, h1, h2, h3⟩ := hi
  unfold State.writeQuad
  rw [State.writeSample_alone v.s0 h h0, State.writeSample_alone v.s1 (Job.alone_withMem _ h) h1,
    State.withMem_withMem, State.writeSample_alone v.s2 (Job.alone_withMem _ h) h2,
    State.withMem_withMem, State.writeSample_alone v.s3 (Job.alone_withMem _ h) h3,
    State.withMem_withMem]
  simp only [State.withMem_mem]
  unfold Memory.writeQuad
  rfl

/-- One butterfly on a buffer no other engine owns. -/
theorem State.butterfly_alone {f : Nat → Quad → Quad} {p : Place} {v : Quad} (h : j.alone s)
    (hi : p.slots.within j.n) (hv : Memory.quad s.mem j.base p.slots = some v) :
    State.butterfly j f p s = .ok (s.withMem (Memory.writeQuad s.mem j.base p.slots (f p.base v))) := by
  unfold State.butterfly
  simp only [State.readQuad_alone h hi hv, State.writeQuad_alone _ h hi]

/-- A sample outside a butterfly's slots is not written by it. -/
theorem Memory.sample_writeQuad_other {m : Memory} {base i : Nat} {sl : Slots} {v : Quad}
    (h : i ∉ sl.list) : Memory.sample (Memory.writeQuad m base sl v) base i = Memory.sample m base i := by
  simp only [Slots.list, List.mem_cons, List.not_mem_nil, or_false, not_or] at h
  obtain ⟨h0, h1, h2, h3⟩ := h
  unfold Memory.writeQuad
  simp only [Memory.sample_writeSample, if_neg h0, if_neg h1, if_neg h2, if_neg h3]

/-- Four distinct slots read back what the butterfly wrote to them. -/
theorem Memory.quad_writeQuad_same {m : Memory} {base : Nat} {sl : Slots} (v : Quad) (h : sl.list.Nodup) :
    Memory.quad (Memory.writeQuad m base sl v) base sl = some v := by
  simp only [Slots.list, List.nodup_cons, List.mem_cons, List.not_mem_nil, or_false, not_or,
    not_false_eq_true, List.nodup_nil, and_true] at h
  obtain ⟨⟨h01, h02, h03⟩, ⟨h12, h13⟩, h23⟩ := h
  refine Memory.quad_eq_some.2 ?_
  unfold Memory.writeQuad
  simp only [Memory.sample_writeSample]
  simp [h01, h02, h03, h12, h13, h23]

/-- The slots of all butterflies of a pass, in loop order. -/
def slotsOf (places : List Place) : List Nat := places.flatMap (fun p => p.slots.list)

/-- A butterfly leaves its values in its slots and every other sample alone. -/
theorem Memory.sample_writeQuad_cases (m : Memory) (base : Nat) {sl : Slots} (v : Quad) (h : sl.list.Nodup)
    (i : Nat) :
    (i ∈ sl.list ∧ (Memory.sample (Memory.writeQuad m base sl v) base i).isSome = true) ∨
      (i ∉ sl.list ∧ Memory.sample (Memory.writeQuad m base sl v) base i = Memory.sample m base i) := by
  by_cases hi : i ∈ sl.list
  · refine .inl ⟨hi, ?_⟩
    obtain ⟨q0, q1, q2, q3⟩ := Memory.quad_eq_some.1 (Memory.quad_writeQuad_same (m := m) (base := base) v h)
    simp only [Slots.list, List.mem_cons, List.not_mem_nil, or_false] at hi
    rcases hi with rfl | rfl | rfl | rfl
    · rw [q0]; rfl
    · rw [q1]; rfl
    · rw [q2]; rfl
    · rw [q3]; rfl
  · exact .inr ⟨hi, Memory.sample_writeQuad_other hi⟩

/-- A quad whose slots another memory reads the same is the same there. -/
theorem Memory.quad_congr {m m' : Memory} {base : Nat} {sl : Slots} {v : Quad}
    (h : ∀ i ∈ sl.list, Memory.sample m' base i = Memory.sample m base i)
    (hv : Memory.quad m base sl = some v) : Memory.quad m' base sl = some v := by
  obtain ⟨q0, q1, q2, q3⟩ := Memory.quad_eq_some.1 hv
  refine Memory.quad_eq_some.2 ⟨?_, ?_, ?_, ?_⟩
  · rw [h _ (by simp [Slots.list]), q0]
  · rw [h _ (by simp [Slots.list]), q1]
  · rw [h _ (by simp [Slots.list]), q2]
  · rw [h _ (by simp [Slots.list]), q3]

/-- Four written samples make a written quad. -/
theorem Memory.quad_of_written {m : Memory} {base n : Nat} {sl : Slots} (hi : sl.within n)
    (hw : ∀ i, i < n → (Memory.sample m base i).isSome = true) : ∃ v, Memory.quad m base sl = some v := by
  obtain ⟨h0, h1, h2, h3⟩ := hi
  obtain ⟨a, ha⟩ := Option.isSome_iff_exists.1 (hw _ h0)
  obtain ⟨b, hb⟩ := Option.isSome_iff_exists.1 (hw _ h1)
  obtain ⟨c, hc⟩ := Option.isSome_iff_exists.1 (hw _ h2)
  obtain ⟨d, hd⟩ := Option.isSome_iff_exists.1 (hw _ h3)
  exact ⟨{ s0 := a, s1 := b, s2 := c, s3 := d }, Memory.quad_eq_some.2 ⟨ha, hb, hc, hd⟩⟩

/-- What a pass leaves of the memory it ran on. -/
structure PassResult (base n : Nat) (f : Nat → Quad → Quad) (places : List Place) (m m' : Memory) : Prop where
  canonical : Memory.wf m → Memory.wf m'
  outside : ∀ b, b < 4 * base ∨ 4 * (base + 2 * n) ≤ b → Memory.readByte m' b = Memory.readByte m b
  others : ∀ i, i ∉ slotsOf places → Memory.sample m' base i = Memory.sample m base i
  written : ∀ i, i < n → (Memory.sample m' base i).isSome = true
  quads : ∀ p ∈ places, ∀ v, Memory.quad m base p.slots = some v →
    Memory.quad m' base p.slots = some (f p.base v)

/-- A butterfly before a pass that shares no sample with it. -/
theorem PassResult.cons {base n : Nat} {f : Nat → Quad → Quad} {p : Place} {places : List Place}
    {m m' : Memory} {v : Quad} (hv : Memory.quad m base p.slots = some v) (hwi : p.slots.within n)
    (hnd : p.slots.list.Nodup) (hdis : ∀ i ∈ p.slots.list, i ∉ slotsOf places)
    (h : PassResult base n f places (Memory.writeQuad m base p.slots (f p.base v)) m') :
    PassResult base n f (p :: places) m m' where
  canonical := fun hm => h.canonical (Memory.wf_writeQuad hm base p.slots (f p.base v))
  outside := fun b hb =>
    (h.outside b hb).trans (Memory.readByte_writeQuad_outside m (f p.base v) hwi hb)
  others := fun i hi => by
    have hi' : i ∉ p.slots.list ∧ i ∉ slotsOf places := by
      rwa [show slotsOf (p :: places) = p.slots.list ++ slotsOf places from List.flatMap_cons,
        List.mem_append, not_or] at hi
    exact (h.others i hi'.2).trans (Memory.sample_writeQuad_other hi'.1)
  written := h.written
  quads := by
    intro q hq w hw
    rcases List.mem_cons.1 hq with rfl | hq
    · obtain rfl : v = w := Option.some.inj (hv.symm.trans hw)
      exact Memory.quad_congr (fun i hi => h.others i (hdis i hi))
        (Memory.quad_writeQuad_same (m := m) (base := base) (f q.base v) hnd)
    · refine h.quads q hq w (Memory.quad_congr (fun i hi => ?_) hw)
      exact Memory.sample_writeQuad_other
        (fun hi' => hdis i hi' (List.mem_flatMap.2 ⟨q, hq, hi⟩))

/-- The pass law. On a written buffer that no other engine owns, butterflies that share no sample run to
the end; each leaves its function of the samples before the pass in its slots, samples in no slot are
unchanged, and nothing but the memory inside the buffer changes (R59, R102, R112). -/
theorem runEach_butterflies {f : Nat → Quad → Quad} {places : List Place} (h : j.alone s)
    (hin : ∀ i ∈ slotsOf places, i < j.n) (hnd : (slotsOf places).Nodup)
    (hw : ∀ i, i < j.n → (Memory.sample s.mem j.base i).isSome = true) :
    ∃ m, runEach (State.butterfly j f) places s = .ok (s.withMem m)
      ∧ PassResult j.base j.n f places s.mem m := by
  induction places generalizing s with
  | nil =>
    exact ⟨s.mem, rfl,
      { canonical := id
        outside := fun _ _ => rfl
        others := fun _ _ => rfl
        written := hw
        quads := fun p hp => nomatch hp }⟩
  | cons p places ih =>
    have hl : slotsOf (p :: places) = p.slots.list ++ slotsOf places := List.flatMap_cons
    rw [hl] at hin hnd
    obtain ⟨hnd1, hnd2, hdis⟩ := List.nodup_append.1 hnd
    have hwi : p.slots.within j.n :=
      Slots.within_of_list (fun k hk => hin k (List.mem_append_left _ hk))
    obtain ⟨v, hv⟩ := Memory.quad_of_written hwi hw
    have hw' : ∀ i, i < j.n →
        (Memory.sample (Memory.writeQuad s.mem j.base p.slots (f p.base v)) j.base i).isSome = true := by
      intro i hi
      rcases Memory.sample_writeQuad_cases s.mem j.base (f p.base v) hnd1 i with ⟨-, hm⟩ | ⟨-, hm⟩
      · exact hm
      · rw [hm]
        exact hw i hi
    obtain ⟨m, hrun, hres⟩ :=
      ih (s := s.withMem (Memory.writeQuad s.mem j.base p.slots (f p.base v))) (Job.alone_withMem _ h)
        (fun i hi => hin i (List.mem_append_right _ hi)) hnd2
        (by rw [State.withMem_mem]; exact hw')
    rw [State.withMem_mem] at hres
    refine ⟨m, ?_, hres.cons hv hwi hnd1 (fun i hi hi' => hdis i hi i hi' rfl)⟩
    rw [State.withMem_withMem] at hrun
    rw [runEach_cons, State.butterfly_alone h hwi hv]
    simp only [hrun]

/-- One swap on a buffer no other engine owns (R132). -/
theorem State.swapSamples_alone {p : Nat × Nat} {u v : Cx} (h : j.alone s) (h1 : p.1 < j.n) (h2 : p.2 < j.n)
    (hu : Memory.sample s.mem j.base p.1 = some u) (hv : Memory.sample s.mem j.base p.2 = some v) :
    State.swapSamples j p s = .ok (s.withMem
      (Memory.writeSample (Memory.writeSample s.mem j.base p.1 v) j.base p.2 u)) := by
  unfold State.swapSamples
  simp only [State.readSample_alone h h1 hu, State.readSample_alone h h2 hv,
    State.writeSample_alone v h h1]
  rw [State.writeSample_alone u (Job.alone_withMem _ h) h2, State.withMem_withMem, State.withMem_mem]

/-- The samples of all swaps of a list. -/
def swapped (pairs : List (Nat × Nat)) : List Nat := pairs.flatMap (fun p => [p.1, p.2])

/-- The swap law. On a written buffer that no other engine owns, swaps that share no sample run to the end;
each exchanges its two samples, samples in no swap are unchanged, and nothing but the memory inside the
buffer changes (R132). -/
theorem runEach_swaps {pairs : List (Nat × Nat)} (h : j.alone s) (hin : ∀ i ∈ swapped pairs, i < j.n)
    (hnd : (swapped pairs).Nodup)
    (hw : ∀ i ∈ swapped pairs, (Memory.sample s.mem j.base i).isSome = true) :
    ∃ m, runEach (State.swapSamples j) pairs s = .ok (s.withMem m)
      ∧ (Memory.wf s.mem → Memory.wf m)
      ∧ (∀ b, b < 4 * j.base ∨ 4 * (j.base + 2 * j.n) ≤ b → Memory.readByte m b = Memory.readByte s.mem b)
      ∧ (∀ i, i ∉ swapped pairs → Memory.sample m j.base i = Memory.sample s.mem j.base i)
      ∧ (∀ p ∈ pairs, Memory.sample m j.base p.1 = Memory.sample s.mem j.base p.2
          ∧ Memory.sample m j.base p.2 = Memory.sample s.mem j.base p.1) := by
  induction pairs generalizing s with
  | nil => exact ⟨s.mem, rfl, id, fun _ _ => rfl, fun _ _ => rfl, fun p hp => nomatch hp⟩
  | cons p pairs ih =>
    have hl : swapped (p :: pairs) = [p.1, p.2] ++ swapped pairs := List.flatMap_cons
    rw [hl] at hin hnd hw ⊢
    obtain ⟨hnd1, hnd2, hdis⟩ := List.nodup_append.1 hnd
    have hne : p.1 ≠ p.2 := by simpa using hnd1
    have h1 : p.1 < j.n := hin _ (by simp)
    have h2 : p.2 < j.n := hin _ (by simp)
    obtain ⟨u, hu⟩ := Option.isSome_iff_exists.1 (hw p.1 (by simp))
    obtain ⟨v, hv⟩ := Option.isSome_iff_exists.1 (hw p.2 (by simp))
    have hmid : ∀ i, Memory.sample (Memory.writeSample (Memory.writeSample s.mem j.base p.1 v) j.base p.2 u)
        j.base i = if i = p.2 then some u else if i = p.1 then some v else Memory.sample s.mem j.base i := by
      intro i
      rw [Memory.sample_writeSample, Memory.sample_writeSample]
    have away : ∀ i ∈ swapped pairs, i ≠ p.1 ∧ i ≠ p.2 := fun i hi =>
      ⟨fun he => hdis p.1 (by simp) i hi he.symm, fun he => hdis p.2 (by simp) i hi he.symm⟩
    obtain ⟨m, hrun, hwf, hout, hrest, hswaps⟩ :=
      ih (s := s.withMem (Memory.writeSample (Memory.writeSample s.mem j.base p.1 v) j.base p.2 u)) (Job.alone_withMem _ h)
        (fun i hi => hin i (List.mem_append_right _ hi)) hnd2
        (fun i hi => by
          rw [State.withMem_mem, hmid, if_neg (away i hi).2, if_neg (away i hi).1]
          exact hw i (List.mem_append_right _ hi))
    simp only [State.withMem_mem] at hwf hout hrest hswaps
    refine ⟨m, ?_, ?_, ?_, ?_, ?_⟩
    · rw [State.withMem_withMem] at hrun
      rw [runEach_cons, State.swapSamples_alone h h1 h2 hu hv]
      simp only [hrun]
    · intro hm
      exact hwf (Memory.wf_writeSample (Memory.wf_writeSample hm _ _ _) _ _ _)
    · intro b hb
      rw [hout b hb, Memory.readByte_writeSample_outside _ _ h2 hb,
        Memory.readByte_writeSample_outside _ _ h1 hb]
    · intro i hi
      rw [List.mem_append, not_or] at hi
      obtain ⟨n1, n2⟩ : i ≠ p.1 ∧ i ≠ p.2 := by simpa using hi.1
      rw [hrest i hi.2, hmid, if_neg n2, if_neg n1]
    · intro q hq
      rcases List.mem_cons.1 hq with rfl | hq
      · have n1 : q.1 ∉ swapped pairs := fun hi => hdis q.1 (by simp) q.1 hi rfl
        have n2 : q.2 ∉ swapped pairs := fun hi => hdis q.2 (by simp) q.2 hi rfl
        rw [hrest _ n1, hrest _ n2, hmid, hmid, if_neg hne, if_pos rfl, if_pos rfl]
        exact ⟨hv.symm, hu.symm⟩
      · have m1 : q.1 ∈ swapped pairs := List.mem_flatMap.2 ⟨q, hq, by simp⟩
        have m2 : q.2 ∈ swapped pairs := List.mem_flatMap.2 ⟨q, hq, by simp⟩
        obtain ⟨e1, e2⟩ := hswaps q hq
        rw [e1, e2, hmid, hmid, if_neg (away _ m1).2, if_neg (away _ m1).1, if_neg (away _ m2).2,
          if_neg (away _ m2).1]
        exact ⟨rfl, rfl⟩

end Job

end Sys2Proof.Machine
end

