-- ==== Sys2Proof/Laws/Runs.lean ====
section
/-! SUPPORT. On a buffer whose words have all been written no body faults, whatever hazards it meets
(R163); and every buffer-touching command is its body run behind the shared checks. -/

namespace Sys2Proof.Machine

open Sys2Proof

/-- The body of a buffer-touching command; of `INIT`, which has none, the empty one. -/
def bodyOf : Instr → Job → State → Except Fault State
  | .init _ _ => fun _ s => .ok s
  | .transform => transformBody
  | .stage1Fwd => stage1Body .fwd
  | .stage1Inv => stage1Body .inv
  | .middleFwd k => middleBody .fwd k
  | .middleInv k => middleBody .inv k
  | .lastFwd => lastBody .fwd
  | .lastInv => lastBody .inv
  | .bitrev => bitrevBody

/-- A buffer-touching command is its body behind the shared checks. -/
theorem exec_eq_runBuffer {i : Instr} (h : i.touchesBuffer = true) (s : State) :
    exec i s = s.runBuffer i.stageOperand (bodyOf i) := by
  cases i with
  | init => cases h
  | _ => rfl

/-- A run over a list never faults where each statement runs and keeps what the statements need. -/
theorem runEach_total {α : Type} {f : α → State → Except Fault State} {P : State → Prop} {xs : List α}
    (hf : ∀ x ∈ xs, ∀ s, P s → ∃ t, f x s = .ok t ∧ P t) {s : State} (hs : P s) :
    ∃ t, runEach f xs s = .ok t ∧ P t := by
  induction xs generalizing s with
  | nil => exact ⟨s, rfl, hs⟩
  | cons x xs ih =>
    obtain ⟨t, ht, hp⟩ := hf x List.mem_cons_self s hs
    obtain ⟨u, hu, hq⟩ := ih (fun y hy => hf y (List.mem_cons_of_mem _ hy)) hp
    refine ⟨u, ?_, hq⟩
    rw [runEach_cons, ht]
    exact hu

/-- Every word of a job's buffer has been written. -/
def Job.ready (j : Job) (s : State) : Prop :=
  ∀ a, j.words a → (Memory.readWord s.mem a).isSome = true

section Ready

variable {j : Job} {s t : State}

theorem State.engineRead_total {e a : Nat} (h : (Memory.readWord s.mem a).isSome = true) :
    ∃ v t, s.engineRead e a = .ok (v, t) := by
  obtain ⟨v, hv⟩ := Option.isSome_iff_exists.1 h
  unfold State.engineRead
  rw [hv]
  dsimp only
  split
  · exact ⟨_, _, rfl⟩
  · exact ⟨_, _, rfl⟩

theorem Job.ready_of_mem (h : j.ready s) (hm : t.mem = s.mem) : j.ready t := by
  intro a ha
  rw [hm]
  exact h a ha

theorem Job.ready_engineWrite (h : j.ready s) (e a : Nat) (v : Word) : j.ready (s.engineWrite e a v) := by
  intro b hb
  rw [State.engineWrite_mem, Memory.readWord_writeWord]
  split
  · rfl
  · exact h b hb

theorem State.readSample_total (h : j.ready s) {i : Nat} (hi : i < j.n) :
    ∃ v t, s.readSample j i = .ok (v, t) ∧ j.ready t := by
  obtain ⟨w1, w2⟩ := Job.covers_words (j := j) hi
  obtain ⟨x, u, hx⟩ := State.engineRead_total (e := j.engine) (h _ w1)
  have hu : j.ready u := Job.ready_of_mem h (State.engineRead_frame (W := j.words) hx).2
  obtain ⟨y, w, hy⟩ := State.engineRead_total (e := j.engine) (hu _ w2)
  refine ⟨{ re := x, im := y }, w, ?_, Job.ready_of_mem hu (State.engineRead_frame (W := j.words) hy).2⟩
  unfold State.readSample
  simp only [hx, hy]

theorem Job.ready_writeSample (h : j.ready s) (i : Nat) (v : Cx) : j.ready (s.writeSample j i v) :=
  Job.ready_engineWrite (Job.ready_engineWrite h _ _ _) _ _ _

theorem Job.ready_traceEvent (h : j.ready s) (ev : TraceEvent) : j.ready (s.traceEvent j ev) := h

theorem State.readQuad_total (h : j.ready s) {i : Slots} (hi : i.within j.n) :
    ∃ v t, s.readQuad j i = .ok (v, t) ∧ j.ready t := by
  obtain ⟨i0, i1, i2, i3⟩ := hi
  obtain ⟨a, s1, h0, r1⟩ := State.readSample_total h i0
  obtain ⟨b, s2, h1, r2⟩ := State.readSample_total r1 i1
  obtain ⟨c, s3, h2, r3⟩ := State.readSample_total r2 i2
  obtain ⟨d, s4, h3, r4⟩ := State.readSample_total r3 i3
  refine ⟨{ s0 := a, s1 := b, s2 := c, s3 := d }, s4, ?_, r4⟩
  unfold State.readQuad
  simp only [h0, h1, h2, h3]

theorem State.butterfly_total (h : j.ready s) (f : Nat → Quad → Quad) {p : Place} (hi : p.slots.within j.n) :
    ∃ t, State.butterfly j f p s = .ok t ∧ j.ready t := by
  obtain ⟨v, u, hu, hr⟩ := State.readQuad_total h hi
  refine ⟨u.writeQuad j p.slots (f p.base v), ?_, ?_⟩
  · unfold State.butterfly
    simp only [hu]
  · exact Job.ready_writeSample (Job.ready_writeSample (Job.ready_writeSample
      (Job.ready_writeSample hr _ _) _ _) _ _) _ _

/-- A pass over butterflies inside a written buffer runs to its end. -/
theorem State.pass_total (h : j.ready s) (ev : TraceEvent) (f : Nat → Quad → Quad) {places : List Place}
    (hi : ∀ p ∈ places, p.slots.within j.n) : ∃ t, s.pass j ev f places = .ok t ∧ j.ready t :=
  runEach_total (fun p hp _ hs => State.butterfly_total hs f (hi p hp)) (Job.ready_traceEvent h ev)

theorem State.swapSamples_total (h : j.ready s) {p : Nat × Nat} (h1 : p.1 < j.n) (h2 : p.2 < j.n) :
    ∃ t, State.swapSamples j p s = .ok t ∧ j.ready t := by
  obtain ⟨u, s1, hu, r1⟩ := State.readSample_total h h1
  obtain ⟨v, s2, hv, r2⟩ := State.readSample_total r1 h2
  refine ⟨(s2.writeSample j p.1 v).writeSample j p.2 u, ?_, ?_⟩
  · unfold State.swapSamples
    simp only [hu, hv]
  · exact Job.ready_writeSample (Job.ready_writeSample r2 _ _) _ _

end Ready

/-- A bit-reversed index of `b` bits is below `2^b`. -/
theorem revBits_lt (b i : Nat) : revBits b i < 2 ^ b := by
  induction b generalizing i with
  | zero => simp [revBits]
  | succ b ih =>
    have h1 := ih (i / 2)
    have h2 : i % 2 * 2 ^ b ≤ 1 * 2 ^ b := Nat.mul_le_mul_right _ (by omega)
    unfold revBits
    rw [Nat.pow_succ]
    omega

/-- A supported length is the power of 2 that its `log2` says. -/
theorem supported_pow {n : Nat} (h : supported n = true) : n = 2 ^ log2 n := by
  rcases supported_cases h with rfl | rfl | rfl | rfl | rfl <;> decide

/-- The samples of a swap lie in the buffer (R132). -/
theorem swapPairs_within {n : Nat} (h : supported n = true) {p : Nat × Nat} (hp : p ∈ swapPairs n) :
    p.1 < n ∧ p.2 < n := by
  unfold swapPairs at hp
  obtain ⟨i, hi, rfl⟩ := List.mem_map.1 (List.mem_filter.1 hp).1
  refine ⟨List.mem_range.1 hi, ?_⟩
  show revBits (log2 n) i < n
  calc revBits (log2 n) i < 2 ^ log2 n := revBits_lt _ _
    _ = n := (supported_pow h).symm

theorem bitrevBody_total {j : Job} {s : State} (hn : supported j.n = true) (h : j.ready s) :
    ∃ t, bitrevBody j s = .ok t ∧ j.ready t :=
  runEach_total
    (fun _ hp _ hs => State.swapSamples_total hs (swapPairs_within hn hp).1 (swapPairs_within hn hp).2)
    (Job.ready_traceEvent h .br)

theorem stage1Body_total {j : Job} {s : State} (dir : Dir) (h : j.ready s) :
    ∃ t, stage1Body dir j s = .ok t ∧ j.ready t :=
  State.pass_total h _ _ (fun _ hp => stage1Places_within hp)

theorem middleBody_total {j : Job} {s : State} (dir : Dir) {k : Nat} (hn : supported j.n = true)
    (hk : k ≤ log4 j.n - 2) (h : j.ready s) : ∃ t, middleBody dir k j s = .ok t ∧ j.ready t :=
  State.pass_total h _ _ (fun _ hp => middlePlaces_within hn hk hp)

theorem lastBody_total {j : Job} {s : State} (dir : Dir) (h : j.ready s) :
    ∃ t, lastBody dir j s = .ok t ∧ j.ready t :=
  State.pass_total h _ _ (fun _ hp => lastPlaces_within hp)

theorem transformBody_total {j : Job} {s : State} (hn : supported j.n = true) (h : j.ready s) :
    ∃ t, transformBody j s = .ok t ∧ j.ready t := by
  obtain ⟨u1, h1, r1⟩ := stage1Body_total j.dir h
  have hmid : ∃ t, middleBodies j u1 = .ok t ∧ j.ready t :=
    runEach_total (fun k hk _ hs => middleBody_total j.dir hn (by
      have := List.mem_range'_1.1 hk
      omega) hs) r1
  obtain ⟨u2, h2, r2⟩ := hmid
  obtain ⟨u3, h3, r3⟩ := lastBody_total j.dir r2
  have hlast : ∃ t, bitrevIfSet j u3 = .ok t ∧ j.ready t := by
    unfold bitrevIfSet
    split
    · exact bitrevBody_total hn r3
    · exact ⟨u3, rfl, r3⟩
  obtain ⟨u4, h4, r4⟩ := hlast
  refine ⟨u4, ?_, r4⟩
  unfold transformBody andThen
  simp only [h1, h2, h3, h4]

end Sys2Proof.Machine
end

