-- ==== Sys2Proof/Laws/Accesses.lean ====
section
/-! SUPPORT. The words a command body reads and writes, in order, whoever owns them: which word stops it
(R163), which engines it disturbs (R162), and what it computes from what it reads. -/

namespace Sys2Proof.Machine

open Sys2Proof

/-! ### Which engines are disturbed -/

/-- An engine after another agent read the words `R` and wrote the words `W` (R162). -/
def Engine.accessed (memWords : Nat) (R W : List Nat) (g : Engine) : Engine :=
  { g with
    hazard := g.hazard || (R ++ W).any (fun a => g.ownsWord memWords a)
    spoilt := g.spoilt || W.any (fun a => g.ownsWord memWords a) }

theorem Engine.accessed_nil (memWords : Nat) (g : Engine) : g.accessed memWords [] [] = g := by
  unfold Engine.accessed
  simp

theorem Engine.accessed_append (memWords : Nat) (R R' W W' : List Nat) (g : Engine) :
    (g.accessed memWords R W).accessed memWords R' W' = g.accessed memWords (R ++ R') (W ++ W') := by
  have owns : ∀ a, (g.accessed memWords R W).ownsWord memWords a = g.ownsWord memWords a :=
    fun a => Engine.ownsWord_congr rfl rfl rfl memWords a
  conv_lhs => unfold Engine.accessed
  simp only [Engine.accessed, List.any_append]
  congr 1 <;> ac_rfl

/-- Accesses to words the engine does not own are no hazard (R162). -/
theorem Engine.accessed_of_not_owned {memWords : Nat} {R W : List Nat} {g : Engine}
    (hr : ∀ a ∈ R, g.ownsWord memWords a = false) (hw : ∀ a ∈ W, g.ownsWord memWords a = false) :
    g.accessed memWords R W = g := by
  have none : ∀ {L : List Nat}, (∀ a ∈ L, g.ownsWord memWords a = false) →
      L.any (fun a => g.ownsWord memWords a) = false := fun h => by simpa using h
  unfold Engine.accessed
  rw [List.any_append, none hr, none hw]
  simp

/-- Words both read and written, one of which the engine owns (R162). -/
theorem Engine.accessed_of_owned {memWords a : Nat} {W : List Nat} {g : Engine} (ha : a ∈ W)
    (ho : g.ownsWord memWords a = true) :
    g.accessed memWords W W = { g with hazard := true, spoilt := true } := by
  have some : W.any (fun a => g.ownsWord memWords a) = true := List.any_eq_true.2 ⟨a, ha, ho⟩
  unfold Engine.accessed
  rw [List.any_append, some]
  simp

/-- Every engine but `e` after `e` read the words `R` and wrote the words `W`. -/
structure Disturbs (e : Nat) (R W : List Nat) (s t : State) : Prop where
  params : t.params = s.params
  active : t.active = s.active
  engines : ∀ (k : Nat) (g : Engine), k ≠ e → s.engines[k]? = some g →
    t.engines[k]? = some (g.accessed s.params.memWords R W)

theorem Disturbs.refl (e : Nat) (s : State) : Disturbs e [] [] s s where
  params := rfl
  active := rfl
  engines := fun _ g _ hg => by rw [Engine.accessed_nil, hg]

theorem Disturbs.trans {e : Nat} {R R' W W' : List Nat} {s t u : State} (h : Disturbs e R W s t)
    (h' : Disturbs e R' W' t u) : Disturbs e (R ++ R') (W ++ W') s u where
  params := h'.params.trans h.params
  active := h'.active.trans h.active
  engines := fun k g hk hg => by
    rw [h'.engines k _ hk (h.engines k g hk hg), h.params, Engine.accessed_append]

/-- One access of engine `e`. -/
theorem State.intrude_disturbs (e a : Nat) (w : Bool) (s : State) :
    Disturbs e (if w then [] else [a]) (if w then [a] else []) s (s.intrude (some e) a w) where
  params := rfl
  active := rfl
  engines := fun k g hk hg => by
    rw [State.intrude_engine, hg, Option.map_some]
    have hne : some e ≠ some k := fun h => hk (Option.some.inj h).symm
    cases ho : g.ownsWord s.params.memWords a <;> cases w <;>
      simp [Engine.accessed, Engine.intruded, ho, hne]

theorem State.engineRead_disturbs {e a : Nat} {s t : State} {v : Word} (h : s.engineRead e a = .ok (v, t)) :
    Disturbs e [a] [] s t := by
  have hi := State.intrude_disturbs e a false s
  rcases State.engineRead_ok h with ⟨rfl, -, hf⟩ | ⟨rfl, -, -⟩
  · rwa [State.intrude_of_not_foreign false hf] at hi
  · exact ⟨hi.params, hi.active, hi.engines⟩

theorem State.engineWrite_disturbs (e a : Nat) (v : Word) (s : State) :
    Disturbs e [] [a] s (s.engineWrite e a v) := by
  have hi := State.intrude_disturbs e a true s
  rw [State.engineWrite_eq]
  exact ⟨hi.params, hi.active, hi.engines⟩

/-! ### Reading -/

/-- Some word of a list is the first that fails a test, or all pass it. -/
theorem first_failing {P : Nat → Prop} (A : List Nat) :
    (∀ a ∈ A, P a) ∨ ∃ pre a post, A = pre ++ a :: post ∧ (∀ b ∈ pre, P b) ∧ ¬ P a := by
  induction A with
  | nil => exact .inl (fun _ h => nomatch h)
  | cons x A ih =>
    by_cases hx : P x
    · rcases ih with h | ⟨pre, a, post, rfl, hp, ha⟩
      · exact .inl (fun a ha => (List.mem_cons.1 ha).elim (· ▸ hx) (h a))
      · exact .inr ⟨x :: pre, a, post, rfl,
          fun b hb => (List.mem_cons.1 hb).elim (· ▸ hx) (hp b), ha⟩
    · exact .inr ⟨[], x, A, rfl, (fun _ h => nomatch h), hx⟩

/-- A word some agent has written (R46). -/
def State.isWritten (s : State) (a : Nat) : Prop := (Memory.readWord s.mem a).isSome = true

theorem State.not_isWritten {s : State} {a : Nat} : ¬ s.isWritten a ↔ Memory.readWord s.mem a = none := by
  unfold State.isWritten
  cases Memory.readWord s.mem a <;> simp

/-- A first word that is not written lies in the one part of a list or in the other. -/
theorem append_split {A B pre post : List Nat} {a : Nat} (h : A ++ B = pre ++ a :: post) :
    (∃ mid, A = pre ++ a :: mid) ∨ ∃ mid, pre = A ++ mid ∧ B = mid ++ a :: post := by
  rcases List.append_eq_append_iff.1 h with ⟨mid, rfl, hb⟩ | ⟨mid, ha, hb⟩
  · exact .inr ⟨mid, rfl, hb⟩
  · cases mid with
    | nil => exact .inr ⟨[], by simpa using ha.symm, by simpa using hb.symm⟩
    | cons x mid =>
      obtain ⟨rfl, -⟩ := List.cons.inj hb
      exact .inl ⟨mid, ha⟩

/-- Everything a read of the words `A` by engine `e`, in that order, can do. -/
structure Reads {α : Type} (e : Nat) (A : List Nat) (r : State → Except Fault (α × State)) : Prop where
  runs : ∀ s, (∀ a ∈ A, s.isWritten a) → ∃ v t, r s = .ok (v, t)
  faults : ∀ s pre a post, A = pre ++ a :: post → (∀ b ∈ pre, s.isWritten b) → ¬ s.isWritten a →
    r s = .error (.unwrittenRead e a)
  keeps : ∀ s v t, r s = .ok (v, t) → t.mem = s.mem
  disturbs : ∀ s v t, r s = .ok (v, t) → Disturbs e A [] s t

/-- One read after another. -/
def bindRead {α β : Type} (r : State → Except Fault (α × State)) (k : α → State → Except Fault (β × State))
    (s : State) : Except Fault (β × State) :=
  match r s with
  | .error f => .error f
  | .ok (x, t) => k x t

theorem Reads.pure {α : Type} (e : Nat) (x : α) : Reads e [] (fun s => .ok (x, s)) where
  runs := fun s _ => ⟨x, s, rfl⟩
  faults := fun _ pre a post h => by cases pre <;> cases h
  keeps := fun s v t h => by
    obtain ⟨-, rfl⟩ := Prod.mk.inj (Except.ok.inj h)
    rfl
  disturbs := fun s v t h => by
    obtain ⟨-, rfl⟩ := Prod.mk.inj (Except.ok.inj h)
    exact Disturbs.refl e s

theorem bindRead_ok {α β : Type} {r : State → Except Fault (α × State)}
    {k : α → State → Except Fault (β × State)} {s u : State} {y : β} (h : bindRead r k s = .ok (y, u)) :
    ∃ x t, r s = .ok (x, t) ∧ k x t = .ok (y, u) := by
  unfold bindRead at h
  split at h
  · cases h
  · next x t ht => exact ⟨x, t, ht, h⟩

theorem State.isWritten_of_mem {s t : State} (h : t.mem = s.mem) (a : Nat) : t.isWritten a ↔ s.isWritten a := by
  unfold State.isWritten
  rw [h]

theorem Reads.bind {α β : Type} {e : Nat} {A B : List Nat} {r : State → Except Fault (α × State)}
    {k : α → State → Except Fault (β × State)} (hr : Reads e A r) (hk : ∀ x, Reads e B (k x)) :
    Reads e (A ++ B) (bindRead r k) where
  runs := fun s h => by
    obtain ⟨x, t, ht⟩ := hr.runs s (fun a ha => h a (List.mem_append_left _ ha))
    obtain ⟨y, u, hu⟩ := (hk x).runs t
      (fun b hb => (State.isWritten_of_mem (hr.keeps s x t ht) b).2 (h b (List.mem_append_right _ hb)))
    exact ⟨y, u, by unfold bindRead; rw [ht]; exact hu⟩
  faults := fun s pre a post hl hp ha => by
    unfold bindRead
    rcases append_split hl with ⟨mid, rfl⟩ | ⟨mid, rfl, rfl⟩
    · rw [hr.faults s pre a mid rfl hp ha]
    · obtain ⟨x, t, ht⟩ := hr.runs s (fun b hb => hp b (List.mem_append_left _ hb))
      have hm := State.isWritten_of_mem (hr.keeps s x t ht)
      rw [ht]
      exact (hk x).faults t mid a post rfl (fun b hb => (hm b).2 (hp b (List.mem_append_right _ hb)))
        (fun h => ha ((hm a).1 h))
  keeps := fun s y u h => by
    obtain ⟨x, t, ht, hu⟩ := bindRead_ok h
    exact ((hk x).keeps t y u hu).trans (hr.keeps s x t ht)
  disturbs := fun s y u h => by
    obtain ⟨x, t, ht, hu⟩ := bindRead_ok h
    exact (hr.disturbs s x t ht).trans ((hk x).disturbs t y u hu)

theorem State.engineRead_reads (e a : Nat) : Reads e [a] (State.engineRead e a) where
  runs := fun s h => State.engineRead_total (h a List.mem_cons_self)
  faults := fun s pre b post hl hp hb => by
    cases pre with
    | nil =>
      obtain ⟨rfl, -⟩ := List.cons.inj hl
      unfold State.engineRead
      rw [State.not_isWritten.1 hb]
    | cons x pre => cases pre <;> cases hl
  keeps := fun s v t h => (State.engineRead_frame (W := fun _ => True) h).2
  disturbs := fun s v t h => State.engineRead_disturbs h

/-- The words of samples, each with its real word first (R45). -/
def sampleWords (base : Nat) (is : List Nat) : List Nat :=
  is.flatMap (fun i => [reAddr base i, imAddr base i])

theorem mem_sampleWords {base a : Nat} {is : List Nat} :
    a ∈ sampleWords base is ↔ ∃ i ∈ is, a = reAddr base i ∨ a = imAddr base i := by
  unfold sampleWords
  simp

theorem sampleWords_append (base : Nat) (is js : List Nat) :
    sampleWords base (is ++ js) = sampleWords base is ++ sampleWords base js := List.flatMap_append

theorem State.readSample_reads (j : Job) (i : Nat) :
    Reads j.engine (sampleWords j.base [i]) (State.readSample j i) := by
  have h : State.readSample j i = bindRead (State.engineRead j.engine (reAddr j.base i)) (fun x =>
      bindRead (State.engineRead j.engine (imAddr j.base i)) (fun y s => .ok ({ re := x, im := y }, s))) := by
    funext s
    unfold State.readSample bindRead
    rcases State.engineRead _ _ s with _ | ⟨_, t⟩
    · rfl
    · dsimp only
      rcases State.engineRead _ _ t with _ | _ <;> rfl
  rw [h]
  exact (State.engineRead_reads _ _).bind (fun _ => (State.engineRead_reads _ _).bind (fun _ => Reads.pure _ _))

theorem State.readQuad_reads (j : Job) (i : Slots) :
    Reads j.engine (sampleWords j.base i.list) (State.readQuad j i) := by
  have h : State.readQuad j i = bindRead (State.readSample j i.i0) (fun a =>
      bindRead (State.readSample j i.i1) (fun b => bindRead (State.readSample j i.i2) (fun c =>
        bindRead (State.readSample j i.i3) (fun d s => .ok ({ s0 := a, s1 := b, s2 := c, s3 := d }, s))))) := by
    funext s
    unfold State.readQuad bindRead
    rcases State.readSample _ _ s with _ | ⟨_, s1⟩
    · rfl
    · dsimp only
      rcases State.readSample _ _ s1 with _ | ⟨_, s2⟩
      · rfl
      · dsimp only
        rcases State.readSample _ _ s2 with _ | ⟨_, s3⟩
        · rfl
        · dsimp only
          rcases State.readSample _ _ s3 with _ | _ <;> rfl
  rw [h]
  exact (State.readSample_reads j _).bind (fun _ => (State.readSample_reads j _).bind (fun _ =>
    (State.readSample_reads j _).bind (fun _ => (State.readSample_reads j _).bind (fun _ => Reads.pure _ _))))

/-! ### Statements that read and then write the same words -/

/-- Everything a statement that reads the words `A`, in that order, and writes no other word can do. -/
structure Accesses (e : Nat) (A : List Nat) (f : State → Except Fault State) : Prop where
  runs : ∀ s, (∀ a ∈ A, s.isWritten a) → ∃ t, f s = .ok t
  faults : ∀ s pre a post, A = pre ++ a :: post → (∀ b ∈ pre, s.isWritten b) → ¬ s.isWritten a →
    f s = .error (.unwrittenRead e a)
  keeps : ∀ s t, f s = .ok t → ∀ a, t.isWritten a ↔ s.isWritten a
  disturbs : ∀ s t, f s = .ok t → Disturbs e A A s t

/-- A statement that runs to its end has found each of its words written (R163). -/
theorem Accesses.written {e : Nat} {A : List Nat} {f : State → Except Fault State} (h : Accesses e A f)
    {s t : State} (ht : f s = .ok t) : ∀ a ∈ A, s.isWritten a := by
  rcases first_failing (P := s.isWritten) A with hw | ⟨pre, a, post, hl, hp, ha⟩
  · exact hw
  · rw [h.faults s pre a post hl hp ha] at ht
    cases ht

theorem Accesses.done (e : Nat) : Accesses e [] (fun s => .ok s) where
  runs := fun s _ => ⟨s, rfl⟩
  faults := fun _ pre a post h => by cases pre <;> cases h
  keeps := fun s t h a => by
    obtain rfl := Except.ok.inj h
    exact Iff.rfl
  disturbs := fun s t h => by
    obtain rfl := Except.ok.inj h
    exact Disturbs.refl e s

theorem Accesses.seq {e : Nat} {A B : List Nat} {f g : State → Except Fault State} (hf : Accesses e A f)
    (hg : Accesses e B g) : Accesses e (A ++ B) (andThen f g) where
  runs := fun s h => by
    obtain ⟨t, ht⟩ := hf.runs s (fun a ha => h a (List.mem_append_left _ ha))
    obtain ⟨u, hu⟩ := hg.runs t (fun b hb => (hf.keeps s t ht b).2 (h b (List.mem_append_right _ hb)))
    exact ⟨u, by unfold andThen; rw [ht]; exact hu⟩
  faults := fun s pre a post hl hp ha => by
    unfold andThen
    rcases append_split hl with ⟨mid, rfl⟩ | ⟨mid, rfl, rfl⟩
    · rw [hf.faults s pre a mid rfl hp ha]
    · obtain ⟨t, ht⟩ := hf.runs s (fun b hb => hp b (List.mem_append_left _ hb))
      rw [ht]
      exact hg.faults t mid a post rfl
        (fun b hb => (hf.keeps s t ht b).2 (hp b (List.mem_append_right _ hb)))
        (fun h => ha ((hf.keeps s t ht a).1 h))
  keeps := fun s u h a => by
    obtain ⟨t, ht, hu⟩ := andThen_ok h
    exact (hg.keeps t u hu a).trans (hf.keeps s t ht a)
  disturbs := fun s u h => by
    obtain ⟨t, ht, hu⟩ := andThen_ok h
    exact (hf.disturbs s t ht).trans (hg.disturbs t u hu)

theorem Accesses.each {α : Type} {e : Nat} {A : α → List Nat} {f : α → State → Except Fault State}
    (h : ∀ x, Accesses e (A x) (f x)) (xs : List α) : Accesses e (xs.flatMap A) (runEach f xs) := by
  induction xs with
  | nil => exact Accesses.done e
  | cons x xs ih =>
    have hc : runEach f (x :: xs) = andThen (f x) (runEach f xs) := by
      funext s
      rfl
    rw [List.flatMap_cons, hc]
    exact (h x).seq ih

/-- A read of the words `A` before a write of the same words. -/
theorem Reads.write {α : Type} {e : Nat} {A : List Nat} {r : State → Except Fault (α × State)}
    {w : α → State → State} {f : State → Except Fault State} (hr : Reads e A r)
    (hf : ∀ s, f s = match r s with | .error x => .error x | .ok (v, t) => .ok (w v t))
    (hw : ∀ v s, Disturbs e [] A s (w v s))
    (hm : ∀ v s a, (w v s).isWritten a ↔ s.isWritten a ∨ a ∈ A) : Accesses e A f := by
  have ok : ∀ s u, f s = .ok u → ∃ v t, r s = .ok (v, t) ∧ u = w v t := by
    intro s u h
    rw [hf] at h
    split at h
    · cases h
    · next v t ht => exact ⟨v, t, ht, (Except.ok.inj h).symm⟩
  have faults : ∀ s pre a post, A = pre ++ a :: post → (∀ b ∈ pre, s.isWritten b) → ¬ s.isWritten a →
      f s = .error (.unwrittenRead e a) := by
    intro s pre a post hl hp ha
    rw [hf, hr.faults s pre a post hl hp ha]
  refine ⟨?_, faults, ?_, ?_⟩
  · intro s h
    obtain ⟨v, t, ht⟩ := hr.runs s h
    exact ⟨w v t, by rw [hf, ht]⟩
  · intro s u h a
    obtain ⟨v, t, ht, rfl⟩ := ok s u h
    rw [hm, State.isWritten_of_mem (hr.keeps s v t ht)]
    refine or_iff_left_of_imp (fun hA => ?_)
    rcases first_failing (P := s.isWritten) A with hall | ⟨pre, b, post, hl, hp, hb⟩
    · exact hall a hA
    · rw [faults s pre b post hl hp hb] at h
      cases h
  · intro s u h
    obtain ⟨v, t, ht, rfl⟩ := ok s u h
    simpa using (hr.disturbs s v t ht).trans (hw v t)

theorem State.engineWrite_isWritten (e a : Nat) (v : Word) (s : State) (b : Nat) :
    (s.engineWrite e a v).isWritten b ↔ s.isWritten b ∨ b = a := by
  unfold State.isWritten
  rw [State.engineWrite_mem, Memory.readWord_writeWord]
  split
  · next h => simp [h]
  · next h => simp [h]

section Bodies

variable (j : Job)

theorem State.writeSample_disturbs (i : Nat) (v : Cx) (s : State) :
    Disturbs j.engine [] (sampleWords j.base [i]) s (s.writeSample j i v) :=
  (State.engineWrite_disturbs _ _ _ s).trans (State.engineWrite_disturbs _ _ _ _)

theorem State.writeSample_isWritten (i : Nat) (v : Cx) (s : State) (a : Nat) :
    (s.writeSample j i v).isWritten a ↔ s.isWritten a ∨ a ∈ sampleWords j.base [i] := by
  unfold State.writeSample
  rw [State.engineWrite_isWritten, State.engineWrite_isWritten, mem_sampleWords, or_assoc]
  simp

/-- A butterfly reads the words of its samples in slot order and writes them (R101). -/
theorem State.butterfly_accesses (f : Nat → Quad → Quad) (p : Place) :
    Accesses j.engine (sampleWords j.base p.slots.list) (State.butterfly j f p) :=
  (State.readQuad_reads j p.slots).write (w := fun v t => t.writeQuad j p.slots (f p.base v))
    (fun s => by
      unfold State.butterfly
      rcases State.readQuad _ _ s with _ | _ <;> rfl)
    (fun v s =>
      (State.writeSample_disturbs j _ _ s).trans ((State.writeSample_disturbs j _ _ _).trans
        ((State.writeSample_disturbs j _ _ _).trans (State.writeSample_disturbs j _ _ _))))
    (fun v s a => by
      unfold State.writeQuad
      simp only [State.writeSample_isWritten, mem_sampleWords, Slots.list]
      simp [or_assoc])

/-- A swap reads the words of its two samples, the lower first, and writes them (R130). -/
theorem State.swapSamples_accesses (p : Nat × Nat) :
    Accesses j.engine (sampleWords j.base [p.1, p.2]) (State.swapSamples j p) := by
  have hr : Reads j.engine (sampleWords j.base [p.1, p.2]) (bindRead (State.readSample j p.1) (fun u =>
      bindRead (State.readSample j p.2) (fun v s => .ok ((u, v), s)))) :=
    (State.readSample_reads j _).bind (fun _ => (State.readSample_reads j _).bind (fun _ => Reads.pure _ _))
  refine hr.write (w := fun q t => (t.writeSample j p.1 q.2).writeSample j p.2 q.1) (fun s => ?_)
    (fun q s => (State.writeSample_disturbs j _ _ s).trans (State.writeSample_disturbs j _ _ _))
    (fun q s a => ?_)
  · unfold State.swapSamples bindRead
    rcases State.readSample _ _ s with _ | ⟨_, t⟩
    · rfl
    · dsimp only
      rcases State.readSample _ _ t with _ | _ <;> rfl
  · simp only [State.writeSample_isWritten, mem_sampleWords]
    simp [or_assoc]

/-- A trace event reads and writes no word (R41). -/
theorem Accesses.afterEvent {A : List Nat} {f : State → Except Fault State} (h : Accesses j.engine A f)
    (ev : TraceEvent) : Accesses j.engine A (fun s => f (s.traceEvent j ev)) where
  runs := fun s hs => h.runs _ hs
  faults := fun s => h.faults (s.traceEvent j ev)
  keeps := fun s => h.keeps (s.traceEvent j ev)
  disturbs := fun s t ht => by
    have hd := h.disturbs _ t ht
    refine ⟨hd.params, hd.active, fun k g hk hg => hd.engines k g hk ?_⟩
    rw [State.traceEvent_engines, List.getElem?_modify, hg]
    simp [Ne.symm hk]

/-- A pass reads and writes the words of its butterflies in loop order (R100, R110, R120). -/
theorem State.pass_accesses (ev : TraceEvent) (f : Nat → Quad → Quad) (places : List Place) :
    Accesses j.engine (sampleWords j.base (slotsOf places)) (State.pass j ev f places) := by
  have h := (Accesses.each (State.butterfly_accesses j f) places).afterEvent j ev
  have hl : places.flatMap (fun p => sampleWords j.base p.slots.list) = sampleWords j.base (slotsOf places) := by
    unfold sampleWords slotsOf
    rw [List.flatMap_assoc]
  rwa [hl] at h

/-- The bit-reversal pass reads and writes the words of its swaps in loop order (R130). -/
theorem bitrevBody_accesses : Accesses j.engine (sampleWords j.base (swapped (swapPairs j.n))) (bitrevBody j) := by
  have h := (Accesses.each (State.swapSamples_accesses j) (swapPairs j.n)).afterEvent j .br
  have hl : (swapPairs j.n).flatMap (fun p => sampleWords j.base [p.1, p.2])
      = sampleWords j.base (swapped (swapPairs j.n)) := by
    unfold sampleWords swapped
    rw [List.flatMap_assoc]
  rwa [hl] at h

/-- A statement that takes a parameter from the state it runs on. -/
theorem Accesses.ofState {α : Type} {e : Nat} {A : List Nat} {f : α → State → Except Fault State}
    (h : ∀ x, Accesses e A (f x)) (F : State → α) : Accesses e A (fun s => f (F s) s) where
  runs := fun s => (h (F s)).runs s
  faults := fun s => (h (F s)).faults s
  keeps := fun s => (h (F s)).keeps s
  disturbs := fun s => (h (F s)).disturbs s

theorem stage1Body_accesses (dir : Dir) :
    Accesses j.engine (sampleWords j.base (slotsOf (stage1Places j.n j.twidMod))) (stage1Body dir j) :=
  Accesses.ofState (fun f => State.pass_accesses j _ f _) (fun s => stage1Quad s.twRead dir)

theorem middleBody_accesses (dir : Dir) (stage : Nat) :
    Accesses j.engine (sampleWords j.base (slotsOf (middlePlaces j.n j.twidMod stage))) (middleBody dir stage j) :=
  Accesses.ofState (fun f => State.pass_accesses j _ f _) (fun s => middleQuad s.twRead dir)

theorem lastBody_accesses (dir : Dir) :
    Accesses j.engine (sampleWords j.base (slotsOf (lastPlaces j.n))) (lastBody dir j) :=
  Accesses.ofState (fun f => State.pass_accesses j _ f _) (fun s => fun _ => lastQuad s.params.invLastSat dir)

/-- The samples `TRANSFORM` accesses after its Stage-1 pass, in order (R142). -/
def laterSamples (j : Job) : List Nat :=
  (List.range' 1 (log4 j.n - 2)).flatMap (fun k => slotsOf (middlePlaces j.n j.twidMod k))
    ++ (slotsOf (lastPlaces j.n) ++ if j.bitrev then swapped (swapPairs j.n) else [])

theorem transformBody_accesses :
    Accesses j.engine (sampleWords j.base (slotsOf (stage1Places j.n j.twidMod) ++ laterSamples j))
      (transformBody j) := by
  have hm : Accesses j.engine (sampleWords j.base
      ((List.range' 1 (log4 j.n - 2)).flatMap (fun k => slotsOf (middlePlaces j.n j.twidMod k))))
      (middleBodies j) := by
    have h := Accesses.each (fun k => middleBody_accesses j j.dir k) (List.range' 1 (log4 j.n - 2))
    unfold sampleWords at h ⊢
    rwa [List.flatMap_assoc]
  have hb : Accesses j.engine (sampleWords j.base (if j.bitrev then swapped (swapPairs j.n) else []))
      (bitrevIfSet j) := by
    cases hj : j.bitrev with
    | true =>
      have hf : bitrevIfSet j = bitrevBody j := by
        funext s
        unfold bitrevIfSet
        rw [hj]
        rfl
      rw [hf]
      exact bitrevBody_accesses j
    | false =>
      have hf : bitrevIfSet j = fun s => .ok s := by
        funext s
        unfold bitrevIfSet
        rw [hj]
        rfl
      rw [hf]
      exact Accesses.done _
  unfold laterSamples
  simp only [sampleWords_append]
  exact (stage1Body_accesses j j.dir).seq (hm.seq ((lastBody_accesses j j.dir).seq hb))

end Bodies

/-- The samples the body of a command reads and writes, in order. -/
def bodySamples (j : Job) : Instr → List Nat
  | .init _ _ => []
  | .transform => slotsOf (stage1Places j.n j.twidMod) ++ laterSamples j
  | .stage1Fwd => slotsOf (stage1Places j.n j.twidMod)
  | .stage1Inv => slotsOf (stage1Places j.n j.twidMod)
  | .middleFwd k => slotsOf (middlePlaces j.n j.twidMod k)
  | .middleInv k => slotsOf (middlePlaces j.n j.twidMod k)
  | .lastFwd => slotsOf (lastPlaces j.n)
  | .lastInv => slotsOf (lastPlaces j.n)
  | .bitrev => swapped (swapPairs j.n)

/-- Which words each body accesses, and in which order it reads them. -/
theorem bodyOf_accesses (i : Instr) (j : Job) :
    Accesses j.engine (sampleWords j.base (bodySamples j i)) (bodyOf i j) := by
  cases i with
  | init => exact Accesses.done _
  | transform => exact transformBody_accesses j
  | stage1Fwd => exact stage1Body_accesses j _
  | stage1Inv => exact stage1Body_accesses j _
  | middleFwd k => exact middleBody_accesses j _ k
  | middleInv k => exact middleBody_accesses j _ k
  | lastFwd => exact lastBody_accesses j _
  | lastInv => exact lastBody_accesses j _
  | bitrev => exact bitrevBody_accesses j

/-! ### What a pass computes, whoever owns its words -/

theorem State.sees_congr {s t : State} {e a : Nat} {v : Word}
    (hf : t.foreign (some e) a = s.foreign (some e) a)
    (hm : Memory.readWord t.mem a = Memory.readWord s.mem a) : t.sees e a v ↔ s.sees e a v := by
  unfold State.sees
  rw [hf, hm]

theorem State.engineRead_sees {e a : Nat} {s t : State} {v : Word} (h : s.engineRead e a = .ok (v, t)) :
    s.sees e a v := by
  rcases State.engineRead_ok h with ⟨-, hv, hf⟩ | ⟨-, rfl, hf⟩
  · exact ⟨fun h' => (Bool.false_ne_true (hf.symm.trans h')).elim, fun _ => hv⟩
  · exact ⟨fun _ => ⟨_, rfl⟩, fun h' => (Bool.false_ne_true (h'.symm.trans hf)).elim⟩

/-- Two states in which an engine may read the same of a sample: the engine, the ownership and the two words
are the same. -/
structure SameSample (base i : Nat) (s t : State) : Prop where
  active : t.active = s.active
  foreign : ∀ a, t.foreign (some s.active) a = s.foreign (some s.active) a
  real : Memory.readWord t.mem (reAddr base i) = Memory.readWord s.mem (reAddr base i)
  imag : Memory.readWord t.mem (imAddr base i) = Memory.readWord s.mem (imAddr base i)

theorem SameSample.sees {base i : Nat} {s t : State} (h : SameSample base i s t) {v : Cx} :
    t.seesSample base i v ↔ s.seesSample base i v := by
  unfold State.seesSample
  rw [h.active, State.sees_congr (h.foreign _) h.real, State.sees_congr (h.foreign _) h.imag]

section Passes

variable {j : Job} {s t : State}

theorem BodyFrame.sameSample {W : Nat → Prop} (h : BodyFrame j.engine W s t)
    {i : Nat} (hr : Memory.readWord t.mem (reAddr j.base i) = Memory.readWord s.mem (reAddr j.base i))
    (hi : Memory.readWord t.mem (imAddr j.base i) = Memory.readWord s.mem (imAddr j.base i)) :
    SameSample j.base i s t :=
  ⟨h.active, fun a => h.foreign _ a, hr, hi⟩

/-- A trace event changes nothing a sample read sees (R41). -/
theorem State.traceEvent_sameSample (j : Job) (ev : TraceEvent) (base i : Nat) (s : State) :
    SameSample base i s (s.traceEvent j ev) where
  active := rfl
  foreign := fun a => (State.traceEvent_frame j ev (fun _ => True) s).foreign _ a
  real := rfl
  imag := rfl

/-- A sample read keeps the memory, and answers what the engine may read there (R46, R162). -/
theorem State.readSample_sees (hj : j.engine = s.active) {i : Nat} {v : Cx}
    (h : s.readSample j i = .ok (v, t)) :
    s.seesSample j.base i v ∧ t.mem = s.mem ∧ BodyFrame j.engine (fun _ => True) s t := by
  have hm := (State.readSample_reads j i).keeps s v t h
  refine ⟨?_, hm, State.readSample_frame h⟩
  unfold State.readSample at h
  split at h
  · cases h
  · next x u hx =>
    split at h
    · cases h
    · next y w hy =>
      obtain ⟨rfl, -⟩ := Prod.mk.inj (Except.ok.inj h)
      have hu := State.engineRead_frame (W := fun _ => True) hx
      have hs := State.engineRead_sees hy
      rw [State.sees_congr (hu.1.foreign _ _) (by rw [hu.2])] at hs
      exact ⟨hj ▸ State.engineRead_sees hx, hj ▸ hs⟩

/-- Reads change nothing that another read of a sample sees. -/
theorem sameSample_of_mem {W : Nat → Prop} (h : BodyFrame j.engine W s t)
    (hm : t.mem = s.mem) (i : Nat) : SameSample j.base i s t :=
  h.sameSample (by rw [hm]) (by rw [hm])

theorem State.readQuad_sees (hj : j.engine = s.active) {i : Slots} {v : Quad}
    (h : s.readQuad j i = .ok (v, t)) : s.seesQuad j.base i v ∧ t.mem = s.mem := by
  refine ⟨?_, (State.readQuad_reads j i).keeps s v t h⟩
  unfold State.readQuad at h
  split at h
  · cases h
  · next a s1 h0 =>
    obtain ⟨v0, m0, f0⟩ := State.readSample_sees hj h0
    split at h
    · cases h
    · next b s2 h1 =>
      obtain ⟨v1, m1, f1⟩ := State.readSample_sees (hj.trans f0.active.symm) h1
      have g1 := f0.trans f1
      split at h
      · cases h
      · next c s3 h2 =>
        obtain ⟨v2, m2, f2⟩ := State.readSample_sees (hj.trans g1.active.symm) h2
        have g2 := g1.trans f2
        split at h
        · cases h
        · next d s4 h3 =>
          obtain ⟨v3, -, -⟩ := State.readSample_sees (hj.trans g2.active.symm) h3
          obtain ⟨rfl, -⟩ := Prod.mk.inj (Except.ok.inj h)
          exact ⟨v0, (sameSample_of_mem f0 m0 _).sees.1 v1,
            (sameSample_of_mem g1 (m1.trans m0) _).sees.1 v2,
            (sameSample_of_mem g2 (m2.trans (m1.trans m0)) _).sees.1 v3⟩

/-- A sample written by an engine, whoever owns it. -/
theorem State.writeSample_mem (i : Nat) (v : Cx) (s : State) :
    (s.writeSample j i v).mem = Memory.writeSample s.mem j.base i v := by
  unfold State.writeSample Memory.writeSample
  rw [State.engineWrite_mem, State.engineWrite_mem]

/-- A butterfly writes its function of what it may read (R101, R162). -/
theorem State.butterfly_sees (hj : j.engine = s.active) {f : Nat → Quad → Quad} {p : Place}
    (h : State.butterfly j f p s = .ok t) :
    ∃ v, s.seesQuad j.base p.slots v ∧ t.mem = Memory.writeQuad s.mem j.base p.slots (f p.base v) := by
  unfold State.butterfly at h
  split at h
  · cases h
  · next v u hu =>
    obtain rfl := Except.ok.inj h
    obtain ⟨hv, hm⟩ := State.readQuad_sees hj hu
    refine ⟨v, hv, ?_⟩
    unfold State.writeQuad Memory.writeQuad
    simp only [State.writeSample_mem, hm]

/-- The words of a sample, read off the sample. -/
theorem Memory.readWord_of_sample_eq {m m' : Memory} {base i : Nat}
    (hr : Memory.readWord m' (reAddr base i) = Memory.readWord m (reAddr base i))
    (hi : Memory.readWord m' (imAddr base i) = Memory.readWord m (imAddr base i)) :
    Memory.sample m' base i = Memory.sample m base i := by
  unfold Memory.sample
  rw [hr, hi]

theorem Memory.words_writeSample_other {m : Memory} {base i i' : Nat} (v : Cx) (h : i' ≠ i) :
    Memory.readWord (Memory.writeSample m base i v) (reAddr base i') = Memory.readWord m (reAddr base i')
      ∧ Memory.readWord (Memory.writeSample m base i v) (imAddr base i') = Memory.readWord m (imAddr base i') := by
  unfold Memory.writeSample
  simp only [Memory.readWord_writeWord, reAddr, imAddr]
  rw [if_neg (by omega), if_neg (by omega), if_neg (by omega), if_neg (by omega)]
  exact ⟨rfl, rfl⟩

theorem Memory.words_writeQuad_other {m : Memory} {base i : Nat} {sl : Slots} (v : Quad) (h : i ∉ sl.list) :
    Memory.readWord (Memory.writeQuad m base sl v) (reAddr base i) = Memory.readWord m (reAddr base i)
      ∧ Memory.readWord (Memory.writeQuad m base sl v) (imAddr base i) = Memory.readWord m (imAddr base i) := by
  simp only [Slots.list, List.mem_cons, List.not_mem_nil, or_false, not_or] at h
  obtain ⟨h0, h1, h2, h3⟩ := h
  unfold Memory.writeQuad
  simp only [Memory.words_writeSample_other _ h3, Memory.words_writeSample_other _ h2,
    Memory.words_writeSample_other _ h1, Memory.words_writeSample_other _ h0, and_self]

/-- The pass law without a condition on ownership: butterflies that share no sample each leave their function
of what the engine may read in their slots, and samples in no slot are unchanged (R102, R112, R162). -/
theorem runEach_butterflies_sees {f : Nat → Quad → Quad} {places : List Place} (hj : j.engine = s.active)
    (hnd : (slotsOf places).Nodup) (h : runEach (State.butterfly j f) places s = .ok t) :
    (∀ i, i ∉ slotsOf places → SameSample j.base i s t) ∧ ∀ p ∈ places, ∃ v, s.seesQuad j.base p.slots v
      ∧ Memory.quad t.mem j.base p.slots = some (f p.base v) := by
  induction places generalizing s with
  | nil =>
    obtain rfl := Except.ok.inj h
    exact ⟨fun i _ => ⟨rfl, fun _ => rfl, rfl, rfl⟩, fun p hp => nomatch hp⟩
  | cons p places ih =>
    have hl : slotsOf (p :: places) = p.slots.list ++ slotsOf places := List.flatMap_cons
    rw [hl] at hnd
    obtain ⟨hnd1, hnd2, hdis⟩ := List.nodup_append.1 hnd
    rw [runEach_cons] at h
    split at h
    · cases h
    · next u hu =>
      have fr := State.butterfly_frame (W := fun _ => True) (fun k _ => ⟨trivial, trivial⟩) hu
      obtain ⟨v, hv, hm⟩ := State.butterfly_sees hj hu
      have first : ∀ i, i ∉ p.slots.list → SameSample j.base i s u := by
        intro i hi
        have hw := Memory.words_writeQuad_other (m := s.mem) (base := j.base) (f p.base v) hi
        exact fr.sameSample (by rw [hm, hw.1]) (by rw [hm, hw.2])
      obtain ⟨rest, quads⟩ := ih (hj.trans fr.active.symm) hnd2 h
      refine ⟨?_, ?_⟩
      · intro i hi
        rw [hl, List.mem_append, not_or] at hi
        have h1 := first i hi.1
        have h2 := rest i hi.2
        exact ⟨h2.active.trans h1.active, fun a => by rw [← h1.foreign a, ← h1.active, h2.foreign a],
          h2.real.trans h1.real, h2.imag.trans h1.imag⟩
      · intro q hq
        rcases List.mem_cons.1 hq with rfl | hq
        · refine ⟨v, hv, Memory.quad_congr (m := u.mem) (fun i hi => ?_) ?_⟩
          · have h2 := rest i (fun hi' => hdis i hi i hi' rfl)
            exact Memory.readWord_of_sample_eq h2.real h2.imag
          · rw [hm]
            exact Memory.quad_writeQuad_same (f q.base v) hnd1
        · obtain ⟨w, ⟨w0, w1, w2, w3⟩, hw⟩ := quads q hq
          have away : ∀ i ∈ q.slots.list, SameSample j.base i s u := fun i hi =>
            first i (fun hi' => hdis i hi' i (List.mem_flatMap.2 ⟨q, hq, hi⟩) rfl)
          exact ⟨w, ⟨(away _ (by simp [Slots.list])).sees.1 w0, (away _ (by simp [Slots.list])).sees.1 w1,
            (away _ (by simp [Slots.list])).sees.1 w2, (away _ (by simp [Slots.list])).sees.1 w3⟩, hw⟩

theorem State.swapSamples_sees (hj : j.engine = s.active) {p : Nat × Nat}
    (h : State.swapSamples j p s = .ok t) :
    ∃ u v, s.seesSample j.base p.1 u ∧ s.seesSample j.base p.2 v
      ∧ t.mem = Memory.writeSample (Memory.writeSample s.mem j.base p.1 v) j.base p.2 u := by
  unfold State.swapSamples at h
  split at h
  · cases h
  · next u s1 h1 =>
    obtain ⟨v1, m1, f1⟩ := State.readSample_sees hj h1
    split at h
    · cases h
    · next v s2 h2 =>
      obtain ⟨v2, m2, -⟩ := State.readSample_sees (hj.trans f1.active.symm) h2
      obtain rfl := Except.ok.inj h
      refine ⟨u, v, v1, (sameSample_of_mem f1 m1 _).sees.1 v2, ?_⟩
      rw [State.writeSample_mem, State.writeSample_mem, m2, m1]

/-- The swap law without a condition on ownership: each swap leaves in either sample what the engine may read
at the other, and samples in no swap are unchanged (R132, R162). -/
theorem runEach_swaps_sees {pairs : List (Nat × Nat)} (hj : j.engine = s.active) (hnd : (swapped pairs).Nodup)
    (h : runEach (State.swapSamples j) pairs s = .ok t) :
    (∀ i, i ∉ swapped pairs → SameSample j.base i s t) ∧ ∀ p ∈ pairs, ∃ u v, s.seesSample j.base p.1 u
      ∧ s.seesSample j.base p.2 v ∧ Memory.sample t.mem j.base p.1 = some v
      ∧ Memory.sample t.mem j.base p.2 = some u := by
  induction pairs generalizing s with
  | nil =>
    obtain rfl := Except.ok.inj h
    exact ⟨fun i _ => ⟨rfl, fun _ => rfl, rfl, rfl⟩, fun p hp => nomatch hp⟩
  | cons p pairs ih =>
    have hl : swapped (p :: pairs) = [p.1, p.2] ++ swapped pairs := List.flatMap_cons
    rw [hl] at hnd
    obtain ⟨hnd1, hnd2, hdis⟩ := List.nodup_append.1 hnd
    have hne : p.1 ≠ p.2 := by simpa using hnd1
    rw [runEach_cons] at h
    split at h
    · cases h
    · next w hw =>
      have fr := State.swapSamples_frame (W := fun _ => True) ⟨trivial, trivial⟩ ⟨trivial, trivial⟩ hw
      obtain ⟨u, v, hu, hv, hm⟩ := State.swapSamples_sees hj hw
      have first : ∀ i, i ≠ p.1 → i ≠ p.2 → SameSample j.base i s w := by
        intro i n1 n2
        have w1 := Memory.words_writeSample_other (m := s.mem) (base := j.base) v n1
        have w2 := Memory.words_writeSample_other (m := Memory.writeSample s.mem j.base p.1 v) (base := j.base) u n2
        exact fr.sameSample (by rw [hm, w2.1, w1.1]) (by rw [hm, w2.2, w1.2])
      obtain ⟨rest, swaps⟩ := ih (hj.trans fr.active.symm) hnd2 h
      refine ⟨?_, ?_⟩
      · intro i hi
        rw [hl, List.mem_append, not_or] at hi
        obtain ⟨n1, n2⟩ : i ≠ p.1 ∧ i ≠ p.2 := by simpa using hi.1
        have h1 := first i n1 n2
        have h2 := rest i hi.2
        exact ⟨h2.active.trans h1.active, fun a => by rw [← h1.foreign a, ← h1.active, h2.foreign a],
          h2.real.trans h1.real, h2.imag.trans h1.imag⟩
      · intro q hq
        rcases List.mem_cons.1 hq with rfl | hq
        · have r1 := rest q.1 (fun hi => hdis q.1 (by simp) q.1 hi rfl)
          have r2 := rest q.2 (fun hi => hdis q.2 (by simp) q.2 hi rfl)
          refine ⟨u, v, hu, hv, ?_, ?_⟩
          · rw [Memory.readWord_of_sample_eq r1.real r1.imag, hm, Memory.sample_writeSample, if_neg hne,
              Memory.sample_writeSample, if_pos rfl]
          · rw [Memory.readWord_of_sample_eq r2.real r2.imag, hm, Memory.sample_writeSample, if_pos rfl]
        · obtain ⟨u', v', hu', hv', ha, hb⟩ := swaps q hq
          have away : ∀ i ∈ [q.1, q.2], SameSample j.base i s w := fun i hi =>
            have hi' : i ∈ swapped pairs := List.mem_flatMap.2 ⟨q, hq, hi⟩
            first i (fun he => hdis p.1 (by simp) i hi' he.symm) (fun he => hdis p.2 (by simp) i hi' he.symm)
          exact ⟨u', v', (away _ (by simp)).sees.1 hu', (away _ (by simp)).sees.1 hv', ha, hb⟩

/-- The pass law for a whole pass (R41, R102, R112, R162). -/
theorem State.pass_sees {ev : TraceEvent} {f : Nat → Quad → Quad} {places : List Place}
    (hj : j.engine = s.active) (hnd : (slotsOf places).Nodup) (h : s.pass j ev f places = .ok t) :
    ∀ p ∈ places, ∃ v, s.seesQuad j.base p.slots v ∧ t.quadAt j.base p.slots = some (f p.base v) := by
  intro p hp
  obtain ⟨v, ⟨v0, v1, v2, v3⟩, hv⟩ := (runEach_butterflies_sees (s := s.traceEvent j ev) hj hnd h).2 p hp
  have same := fun i => State.traceEvent_sameSample j ev j.base i s
  exact ⟨v, ⟨(same _).sees.1 v0, (same _).sees.1 v1, (same _).sees.1 v2, (same _).sees.1 v3⟩, hv⟩

/-- The swap law for the whole bit-reversal pass (R41, R132, R162). -/
theorem bitrevBody_sees (hj : j.engine = s.active) (hnd : (swapped (swapPairs j.n)).Nodup)
    (h : bitrevBody j s = .ok t) :
    (∀ i, i ∉ swapped (swapPairs j.n) → SameSample j.base i s t) ∧ ∀ p ∈ swapPairs j.n, ∃ u v,
      s.seesSample j.base p.1 u ∧ s.seesSample j.base p.2 v ∧ t.sampleAt j.base p.1 = some v
        ∧ t.sampleAt j.base p.2 = some u := by
  obtain ⟨rest, swaps⟩ := runEach_swaps_sees (s := s.traceEvent j .br) hj hnd h
  have same := fun i => State.traceEvent_sameSample j .br j.base i s
  refine ⟨fun i hi => ?_, fun p hp => ?_⟩
  · have h2 := rest i hi
    exact ⟨h2.active, fun a => (h2.foreign a).trans ((same i).foreign a), h2.real, h2.imag⟩
  · obtain ⟨u, v, hu, hv, h1, h2⟩ := swaps p hp
    exact ⟨u, v, (same _).sees.1 hu, (same _).sees.1 hv, h1, h2⟩

end Passes

/-! ### The commands -/

section Exec

variable {i : Instr} {s t : State} {g : Engine} {p : Pending}

/-- A command whose checks pass faults at the first unwritten word it would read (R163). -/
theorem exec_faults (hi : i.touchesBuffer = true) (hl : s.Latched g p)
    (hc : g.bufferCheck s.params.memWords i.stageOperand p.base = .ok) {pre post : List Nat} {a : Nat}
    (ho : sampleWords p.base.toNat (bodySamples (g.job s.active p) i) = pre ++ a :: post)
    (hp : ∀ b ∈ pre, s.isWritten b) (ha : ¬ s.isWritten a) :
    exec i s = .fault (.unwrittenRead s.active a) := by
  rw [exec_eq_runBuffer hi]
  exact State.runBuffer_faults hl hc ((bodyOf_accesses i (g.job s.active p)).faults s pre a post ho hp ha)

/-- Every other engine after a command that ran to its end: disturbed by the command's accesses, and told
that the command is over (R161, R162). -/
theorem exec_others (hi : i.touchesBuffer = true) (hl : s.Latched g p)
    (hc : g.bufferCheck s.params.memWords i.stageOperand p.base = .ok) (ht : exec i s = .next t) {k : Nat}
    {h : Engine} (hk : k ≠ s.active) (hh : s.engines[k]? = some h) :
    t.engines[k]? = some ((h.accessed s.params.memWords
        (sampleWords p.base.toNat (bodySamples (g.job s.active p) i))
        (sampleWords p.base.toNat (bodySamples (g.job s.active p) i))).partnerOver s.active) := by
  rw [exec_eq_runBuffer hi] at ht
  obtain ⟨g', p', hl', hcase⟩ := State.runBuffer_next ht
  obtain rfl := Option.some.inj (hl.engine.symm.trans hl'.engine)
  obtain rfl := Option.some.inj (hl.pending.symm.trans hl'.pending)
  rcases hcase with ⟨hn, -⟩ | ⟨-, u, hu, rfl⟩
  · exact absurd hc hn
  · have acc := bodyOf_accesses i (g.job s.active p)
    have hd := acc.disturbs s u hu
    rw [State.completeOn_engine, hd.engines k h hk hh, hd.active, Option.map_some, if_neg hk]
    rfl

end Exec

end Sys2Proof.Machine
end

