-- ==== Sys2Proof/Laws/Host.lean ====
section
/-! SUPPORT. What a move of the outside world and a step of the machine can do, said once: each lemma gives
every way its operation can answer a next state; and that every access to the memory keeps its canonical form. -/

namespace Sys2Proof.Machine

open Sys2Proof

/-- A host read of a register changes nothing but what the host holds (R34). -/
theorem State.readReg_next {e : Nat} {r : RegName} {s t : State} (h : s.readReg e r = .next t) :
    ∃ g, s.engines[e]? = some g ∧ t = { s with hostData := g.readReg r } := by
  unfold State.readReg at h
  split at h
  · cases h
  · next g hg =>
    injection h with h
    exact ⟨g, hg, h.symm⟩

/-- A host write of a register does nothing, sets `HAZARD`, accepts a command, or writes one of the two
configuration registers (R24, R26, R27, R33, R34, R160). -/
theorem State.writeReg_next {e : Nat} {r : RegName} {v : Word} {s t : State} (h : s.writeReg e r v = .next t) :
    ∃ g, s.engines[e]? = some g ∧
      (t = s
        ∨ (g.busy = true ∧ t = s.modifyEngine e Engine.setHazard)
        ∨ (g.busy = false ∧ r = .cmd ∧ t = s.acceptCommand e v g)
        ∨ (g.busy = false ∧ r = .bufBase ∧ t = s.modifyEngine e (fun h => { h with bufBase := v }))
        ∨ (g.busy = false ∧ r = .reqLen ∧ t = s.modifyEngine e (fun h => { h with reqLen := v }))) := by
  unfold State.writeReg at h
  split at h
  · cases h
  · next g hg =>
    refine ⟨g, hg, ?_⟩
    cases hb : g.busy <;> cases r <;> simp only [hb, if_true, Bool.false_eq_true, if_false] at h <;>
      injection h with h <;> simp [← h]

/-- Filling a word changes the memory at that word only, and counts the free word it took. -/
theorem State.fillWord_eq (a : Nat) (s : State) :
    ∃ m n, s.fillWord a = { s with mem := m, freeCount := n }
      ∧ (m = s.mem ∨ ∃ v, m = Memory.writeWord s.mem a v) := by
  unfold State.fillWord
  split
  · exact ⟨s.mem, s.freeCount, rfl, .inl rfl⟩
  · exact ⟨_, _, rfl, .inr ⟨_, rfl⟩⟩

/-- A host write to the data memory takes effect inside the memory, and is a hazard on the word's owners
(R162); a write of part of a word may fill the rest of it first. -/
theorem State.hostWrite_next {b width : Nat} {v : Word} {s t : State} (h : s.hostWrite b width v = .next t) :
    b / 4 < s.params.memWords
      ∧ ∃ m n, t = { s.intrude none (b / 4) true with mem := Memory.writeBytes m b v width, freeCount := n }
          ∧ (m = s.mem ∨ (width < 4 ∧ ∃ w, m = Memory.writeWord s.mem (b / 4) w)) := by
  unfold State.hostWrite at h
  split at h
  · next hb =>
    injection h with h
    refine ⟨hb, ?_⟩
    obtain ⟨m, n, hf, hm⟩ := State.fillWord_eq (b / 4) (s.intrude none (b / 4) true)
    by_cases hw : width < 4
    · simp only [hw, if_true, hf] at h
      exact ⟨m, n, h.symm, hm.imp id (fun hm => ⟨hw, hm⟩)⟩
    · simp only [hw, if_false] at h
      exact ⟨s.mem, s.freeCount, h.symm, .inl rfl⟩
  · cases h

/-- A host read of the data memory changes what the host holds, and is a hazard on the word's owners (R162). -/
theorem State.hostRead_next {b width : Nat} {s t : State} (h : s.hostRead b width = .next t) :
    b / 4 < s.params.memWords
      ∧ ∃ v, t = { s.intrude none (b / 4) false with hostData := v, freeCount := s.freeCount + 1 } := by
  unfold State.hostRead at h
  split at h
  · next hb =>
    injection h with h
    exact ⟨hb, _, h.symm⟩
  · cases h

/-- A bus write is a register write or a write inside one word of the data memory (R34, R52, R57). -/
theorem State.busWrite_next {addr width : Nat} {v : Word} {s t : State} (h : s.busWrite addr width v = .next t) :
    (∃ e r, s.writeReg e r v = .next t)
      ∨ ∃ b, withinWord b width = true ∧ s.hostWrite b width v = .next t := by
  unfold State.busWrite at h
  split at h
  · cases h
  · split at h
    · cases h
    · exact .inl ⟨_, _, h⟩
  · split at h
    · next hw => exact .inr ⟨_, hw, h⟩
    · cases h

/-- A bus read is a register read or a read inside one word of the data memory (R34, R52, R57). -/
theorem State.busRead_next {addr width : Nat} {s t : State} (h : s.busRead addr width = .next t) :
    (∃ e r, s.readReg e r = .next t) ∨ ∃ b, withinWord b width = true ∧ s.hostRead b width = .next t := by
  unfold State.busRead at h
  split at h
  · cases h
  · split at h
    · cases h
    · exact .inl ⟨_, _, h⟩
  · split at h
    · next hw => exact .inr ⟨_, hw, h⟩
    · cases h

/-- A reset scrambles the words the engine owned, resets it, and tells the other engines (R171, R172). -/
theorem State.resetEngine_next {e : Nat} {s t : State} (h : s.resetEngine e = .next t) :
    ∃ g as, s.engines[e]? = some g ∧ (∀ a ∈ as, g.ownsWord s.params.memWords a = true)
      ∧ (g.owned s.params.memWords = none → as = [])
      ∧ t = { State.scramble as s with
          engines := s.engines.mapIdx (fun j k => if j = e then Engine.reset else k.partnerOver e) } := by
  unfold State.resetEngine at h
  split at h
  · cases h
  · next g hg =>
    injection h with h
    subst h
    cases ho : g.owned s.params.memWords with
    | none => exact ⟨g, [], hg, (fun a ha => nomatch ha), fun _ => rfl, rfl⟩
    | some r =>
      refine ⟨g, List.range' r.1 (r.2 - r.1), hg, fun a ha => ?_, (fun hn => absurd hn (by simp [ho])), by simp⟩
      obtain ⟨h1, h2⟩ := List.mem_range'_1.1 ha
      simp only [Engine.ownsWord, ho, decide_eq_true_eq]
      omega

/-- The engine at each index after a `CMD` write was accepted (R24, R36, R161). -/
theorem State.acceptCommand_engine (e : Nat) (v : Word) (g : Engine) (s : State) (k : Nat) :
    (s.acceptCommand e v g).engines[k]? =
      (s.engines[k]?).map (fun h =>
        if k = e then (g.latch v).accepted (s.overlapEntries e ((g.latch v).owned s.params.memWords))
        else
          match s.overlapWith e ((g.latch v).owned s.params.memWords) k h with
          | some r => h.met e r
          | none => h) := by
  unfold State.acceptCommand
  exact List.getElem?_mapIdx

/-- The words two ranges share are the words of both (R161). -/
theorem sharedWords_eq_some {a b r : Nat × Nat} (h : sharedWords a b = some r) :
    r.1 < r.2 ∧ ∀ w, (r.1 ≤ w ∧ w < r.2) ↔ (a.1 ≤ w ∧ w < a.2) ∧ b.1 ≤ w ∧ w < b.2 := by
  unfold sharedWords at h
  split at h
  · next hlt =>
    obtain rfl := Option.some.inj h
    refine ⟨hlt, fun w => ?_⟩
    dsimp only
    omega
  · cases h

/-- Two ranges that share no words share no word (R161). -/
theorem sharedWords_eq_none {a b : Nat × Nat} :
    sharedWords a b = none ↔ ∀ w, ¬ ((a.1 ≤ w ∧ w < a.2) ∧ b.1 ≤ w ∧ w < b.2) := by
  unfold sharedWords
  split
  · next hlt => exact ⟨(fun h => nomatch h), fun h => absurd (h (max a.1 b.1)) (by omega)⟩
  · next hlt => exact ⟨fun _ w hw => by omega, fun _ => rfl⟩

/-- The overlap of a new command with another engine is the words both own; none where they own none in
common (R161). -/
theorem State.overlapWith_spec (s : State) {e k : Nat} (hk : k ≠ e) (g h : Engine) :
    match s.overlapWith e (g.owned s.params.memWords) k h with
    | some r => r.1 < r.2 ∧ ∀ w, (r.1 ≤ w ∧ w < r.2) ↔
        (g.ownsWord s.params.memWords w = true ∧ h.ownsWord s.params.memWords w = true)
    | none => ∀ w, ¬ (g.ownsWord s.params.memWords w = true ∧ h.ownsWord s.params.memWords w = true) := by
  unfold State.overlapWith Engine.ownsWord
  rw [if_neg hk]
  cases g.owned s.params.memWords with
  | none => simp
  | some a =>
    cases h.owned s.params.memWords with
    | none => simp
    | some b =>
      simp only [decide_eq_true_eq]
      cases hr : sharedWords a b with
      | none => exact sharedWords_eq_none.1 hr
      | some r => exact sharedWords_eq_some hr

/-- An engine keeps one entry for each overlap found, and no other (R161). -/
theorem State.mem_overlapEntries {s : State} {e : Nat} {mine : Option (Nat × Nat)} {o : Overlap} :
    o ∈ s.overlapEntries e mine ↔
      ∃ g r, s.engines[o.partner]? = some g ∧ s.overlapWith e mine o.partner g = some r
        ∧ o = { partner := o.partner, lo := r.1, hi := r.2, partnerDone := false } := by
  unfold State.overlapEntries
  simp only [List.mem_flatten, List.mem_mapIdx]
  constructor
  · rintro ⟨l, ⟨k, hk, rfl⟩, ho⟩
    split at ho
    · next r hr =>
      obtain rfl := List.mem_singleton.1 ho
      exact ⟨s.engines[k], r, List.getElem?_eq_getElem hk, hr, rfl⟩
    · cases ho
  · rintro ⟨g, r, hg, hr, ho⟩
    obtain ⟨hlt, rfl⟩ := List.getElem?_eq_some_iff.1 hg
    refine ⟨_, ⟨o.partner, hlt, rfl⟩, ?_⟩
    rw [hr]
    exact List.mem_singleton.2 ho

/-- Where no other engine is busy an accepted command meets no overlap (R42, R161). -/
theorem State.overlapWith_of_idle (s : State) (e : Nat) (mine : Option (Nat × Nat)) (k : Nat) {h : Engine}
    (hh : k ≠ e → h.pending = none) : s.overlapWith e mine k h = none := by
  unfold State.overlapWith
  split
  · rfl
  · next hk =>
    rw [Engine.owned_of_idle (hh hk)]
    cases mine <;> rfl

/-- A byte of the filled word is the byte that was there or a byte of the free word; every other byte is as
it was. -/
theorem State.fillWord_readByte (a : Nat) (s : State) (b : Nat) :
    Memory.readByte (s.fillWord a).mem b =
      if b / 4 = a then
        some ((Memory.readByte s.mem b).getD (byteOf (Config.freeWord s.freeCount) (b % 4)))
      else Memory.readByte s.mem b := by
  unfold State.fillWord
  split
  · next v hv =>
    split
    · next hb =>
      subst hb
      have h := Memory.readByte_of_readWord hv (Nat.mod_lt b (by omega : 4 > 0))
      rw [Nat.div_add_mod] at h
      rw [h]
      rfl
    · rfl
  · dsimp only
    rw [Memory.readByte_writeWord]
    split
    · next hb =>
      subst hb
      rw [Memory.byteOf_readBytes _ _ _ _ (Nat.mod_lt b (by omega)), if_pos (Nat.mod_lt b (by omega)),
        Nat.div_add_mod]
    · rfl

/-- The engine at each index after a reset (R171). -/
theorem State.resetEngine_engine {e : Nat} {s t : State} (h : s.resetEngine e = .next t) (k : Nat) :
    t.engines[k]? = (s.engines[k]?).map (fun g => if k = e then Engine.reset else g.partnerOver e) := by
  obtain ⟨_, _, _, _, _, rfl⟩ := State.resetEngine_next h
  exact List.getElem?_mapIdx

/-- What a completion step can do: nothing on an idle engine, `ILLEGAL_COMMAND`, or the command (R151). -/
theorem State.completionStep_next {e : Nat} {s t : State} (h : s.completionStep e = .next t) :
    t = s
      ∨ ∃ g p, State.Latched { s with active := e } g p ∧
          ((∃ x, decode p.cmd = .error x ∧ t = State.raise .illegalCommand { s with active := e })
            ∨ ∃ i, decode p.cmd = .ok i ∧ exec i { s with active := e } = .next t) := by
  unfold State.completionStep at h
  dsimp only at h
  split at h
  · injection h with h
    exact .inl h.symm
  · next g p hl =>
    refine .inr ⟨g, p, State.latched_eq_some.1 hl, ?_⟩
    split at h
    · next i hi => exact .inr ⟨i, hi, h⟩
    · next x hx =>
      injection h with h
      exact .inl ⟨x, hx, h.symm⟩

/-- What a step can do, up to what is left of the schedule: nothing, a completion step, a register read or
write, an access to the data memory within one word, or a reset. -/
theorem step_cases {s t : State} (h : step s = .next t) :
    ∃ rest, t = { s with schedule := rest }
      ∨ (∃ e, State.completionStep e { s with schedule := rest } = .next t)
      ∨ (∃ e r, State.readReg e r { s with schedule := rest } = .next t)
      ∨ (∃ e r v, State.writeReg e r v { s with schedule := rest } = .next t)
      ∨ (∃ b width v, withinWord b width = true ∧ State.hostWrite b width v { s with schedule := rest } = .next t)
      ∨ (∃ b width, withinWord b width = true ∧ State.hostRead b width { s with schedule := rest } = .next t)
      ∨ ∃ e, s.schedule.head? = some (.reset e) ∧ State.resetEngine e { s with schedule := rest } = .next t := by
  unfold step State.advance at h
  split at h
  · next a rest hs =>
    have hword : ∀ w, withinWord (4 * w) 4 = true := fun w => by
      simp only [withinWord, decide_eq_true_eq]
      omega
    cases a with
    | set e r v => exact ⟨rest, .inr (.inr (.inr (.inl ⟨e, r, v, h⟩)))⟩
    | get e r => exact ⟨rest, .inr (.inr (.inl ⟨e, r, h⟩))⟩
    | memw w v => exact ⟨rest, .inr (.inr (.inr (.inr (.inl ⟨4 * w, 4, v, hword w, h⟩))))⟩
    | memr w => exact ⟨rest, .inr (.inr (.inr (.inr (.inr (.inl ⟨4 * w, 4, hword w, h⟩)))))⟩
    | wait e =>
      change State.waitStep e rest s = .next t at h
      unfold State.waitStep at h
      split at h
      · cases h
      · split at h
        · exact ⟨s.schedule, .inr (.inl ⟨e, h⟩)⟩
        · exact ⟨rest, .inr (.inr (.inl ⟨e, .status, h⟩))⟩
    | busWrite addr width v =>
      rcases State.busWrite_next h with ⟨e, r, h⟩ | ⟨b, hb, h⟩
      · exact ⟨rest, .inr (.inr (.inr (.inl ⟨e, r, v, h⟩)))⟩
      · exact ⟨rest, .inr (.inr (.inr (.inr (.inl ⟨b, width, v, hb, h⟩))))⟩
    | busRead addr width =>
      rcases State.busRead_next h with ⟨e, r, h⟩ | ⟨b, hb, h⟩
      · exact ⟨rest, .inr (.inr (.inl ⟨e, r, h⟩))⟩
      · exact ⟨rest, .inr (.inr (.inr (.inr (.inr (.inl ⟨b, width, hb, h⟩)))))⟩
    | complete e => exact ⟨rest, .inr (.inl ⟨e, h⟩)⟩
    | reset e => exact ⟨rest, .inr (.inr (.inr (.inr (.inr (.inr ⟨e, by rw [hs]; rfl, h⟩)))))⟩
  · split at h
    · next e he => exact ⟨s.schedule, .inr (.inl ⟨e, h⟩)⟩
    · injection h with h
      exact ⟨s.schedule, .inl h.symm⟩

/-! ### The canonical form of the memory -/

theorem State.engineWrite_wf {s : State} (h : Memory.wf s.mem) (e a : Nat) (v : Word) :
    Memory.wf (s.engineWrite e a v).mem := by
  rw [State.engineWrite_mem]
  exact Memory.wf_writeWord h a v

theorem State.hostWrite_wf {b width : Nat} {v : Word} {s t : State} (h : s.hostWrite b width v = .next t)
    (hm : Memory.wf s.mem) : Memory.wf t.mem := by
  obtain ⟨-, m, n, rfl, rfl | ⟨-, w, rfl⟩⟩ := State.hostWrite_next h
  · exact Memory.wf_writeBytes hm b v width
  · exact Memory.wf_writeBytes (Memory.wf_writeWord hm _ w) b v width

theorem State.resetEngine_wf {e : Nat} {s t : State} (h : s.resetEngine e = .next t) (hm : Memory.wf s.mem) :
    Memory.wf t.mem := by
  obtain ⟨g, as, -, -, -, rfl⟩ := State.resetEngine_next h
  exact State.scramble_wf hm

/-- The memory after reset has the canonical form: nothing is listed (R173). -/
theorem State.reset_wf : Memory.wf State.reset.mem := Memory.wf_nil

end Sys2Proof.Machine
end

