-- ==== Sys2Proof/Laws/PerInstr.lean ====
section
/-! SUPPORT. Facts about every command as syntax, one lemma for each constructor: the bits its encoding uses. -/

namespace Sys2Proof.Laws

open Sys2Proof

/-- The row of the opcode map a command belongs to (R76). -/
def opcodeOf : Instr → Opcode
  | .init _ _ => .init
  | .transform => .transform
  | .stage1Fwd => .stage1Fwd
  | .stage1Inv => .stage1Inv
  | .middleFwd _ => .middleFwd
  | .middleInv _ => .middleInv
  | .lastFwd => .lastFwd
  | .lastInv => .lastInv
  | .bitrev => .bitrev

/-- The word of a well-formed command is encoded by its own row and sets no reserved bit of R71: bits 7:6
and 31:12. -/
def OpcodeRow.Statement (i : Instr) : Prop :=
  i.wf = true → (opcodeOf i).encodes (encode i) = true ∧ encode i &&& 0xFFFFF0C0#32 = 0

theorem OpcodeRow.init (ifft bitrev : Bool) : OpcodeRow.Statement (.init ifft bitrev) := by
  cases ifft <;> cases bitrev <;> exact fun _ => by decide

theorem OpcodeRow.transform : OpcodeRow.Statement .transform := fun _ => by decide

theorem OpcodeRow.stage1Fwd : OpcodeRow.Statement .stage1Fwd := fun _ => by decide

theorem OpcodeRow.stage1Inv : OpcodeRow.Statement .stage1Inv := fun _ => by decide

theorem OpcodeRow.middleFwd (stage : Nat) : OpcodeRow.Statement (.middleFwd stage) := fun h => by
  have h : stage < 16 := of_decide_eq_true h
  interval_cases stage <;> decide

theorem OpcodeRow.middleInv (stage : Nat) : OpcodeRow.Statement (.middleInv stage) := fun h => by
  have h : stage < 16 := of_decide_eq_true h
  interval_cases stage <;> decide

theorem OpcodeRow.lastFwd : OpcodeRow.Statement .lastFwd := fun _ => by decide

theorem OpcodeRow.lastInv : OpcodeRow.Statement .lastInv := fun _ => by decide

theorem OpcodeRow.bitrev : OpcodeRow.Statement .bitrev := fun _ => by decide

end Sys2Proof.Laws
end

