-- ==== Sys2Proof/Tests/Slice0.lean ====
section
/-! SUPPORT. Small tests with results taken from the spec, and for every statement with hypotheses a
witness that meets them. -/

namespace Sys2Proof.Tests

-- One theorem after another: checking all of them at once takes a thread, and its memory, for each.
set_option Elab.async false

open Sys2Proof Sys2Proof.Machine Sys2Proof.Claims

/-! ### Helpers -/

/-- A memory with the words `ws` from word `a` on. -/
def store (a : Nat) : List Word → Memory
  | [] => []
  | w :: ws =>
    (4 * a, byteOf w 0) :: (4 * a + 1, byteOf w 1) :: (4 * a + 2, byteOf w 2) :: (4 * a + 3, byteOf w 3)
      :: store (a + 1) ws

/-- The words of `n` samples that are zero but for sample `i`. -/
def impulse (n i : Nat) (re im : Word) : List Word :=
  (List.range (2 * n)).map (fun k => if k = 2 * i then re else if k = 2 * i + 1 then im else 0)

def zeros (n : Nat) : List Word := List.replicate (2 * n) 0

/-- An idle engine whose `INIT` for length `n` has completed. -/
def eng (n : Nat) (ifft bitrev : Bool) : Engine := Engine.describe (BitVec.ofNat 32 n) ifft bitrev Engine.reset

def pend (i : Instr) (base : Nat) : Pending := { cmd := encode i, base := BitVec.ofNat 32 base, req := 0 }

/-- An engine with command `i` latched on the buffer at `base`. -/
def busy (n : Nat) (i : Instr) (base : Nat) : Engine := { eng n false false with pending := some (pend i base) }

/-- One engine, with command `i` latched on a buffer at word 0 that holds `ws`. -/
def ready (n : Nat) (i : Instr) (ws : List Word) : State :=
  { State.reset with engines := [busy n i 0], mem := store 0 ws, schedule := [.complete 0] }

/-- The parameters of a machine of two engines whose register blocks lie side by side. -/
def twoEngines : Params := { Params.default with regBlockBase := [0x80000000, 0x80000040] }

/-- Two engines: engine 0 idle with `BUF_BASE` 16, engine 1 busy on the words `[0, 32)`. -/
def pair (acts : List Action) : State :=
  { State.powerUp twoEngines with
    engines := [{ eng 16 false false with bufBase := 16 }, busy 16 .stage1Fwd 0]
    mem := store 0 (zeros 32)
    schedule := acts }

/-- The words 16 to 31, shared with engine 1. -/
def shared (done : Bool) : Overlap := { partner := 1, lo := 16, hi := 32, partnerDone := done }

/-- Two busy engines that share the words 16 to 31; engine 1 is the active one. -/
def meeting (acts : List Action) : State :=
  { pair acts with
    engines := [{ busy 16 .lastFwd 16 with overlaps := [shared false] }, busy 16 .bitrev 0]
    active := 1 }

/-- One idle engine and some moves. -/
def idle (acts : List Action) : State := { State.reset with engines := [eng 16 false false], schedule := acts }

/-- `INIT` latched with `REQ_LEN = req`. -/
def initState (req : Nat) : State :=
  { State.reset with
    engines := [{ Engine.reset with pending := some { cmd := 1, base := 0, req := BitVec.ofNat 32 req } }]
    schedule := [.complete 0] }

/-- `pair` with command `i` on engine 1, after engine 0 has accepted `LAST_FWD` on the words `[16, 48)`. -/
def sharing (i : Instr) : State :=
  { pair [.complete 1] with
    engines :=
      [{ busy 16 .lastFwd 16 with bufBase := 16, hazard := true, overlaps := [shared false] },
       { busy 16 i 0 with hazard := true, overlaps := [{ shared false with partner := 0 }] }]
    active := 1 }

/-- Engine 1 about to complete `i` on the words `[0, 32)`, engine 0 busy on the 32 words from `base` on. -/
def beside (i : Instr) (base : Nat) : State :=
  { pair [.complete 1] with engines := [busy 16 .stage1Inv base, busy 16 i 0], active := 1 }

/-- `ready` on zeros, two words of which were never written. -/
def holed (n : Nat) (i : Instr) (a b : Nat) : State :=
  { ready n i [] with mem := (store 0 (zeros n)).filter (fun c => decide (c.1 / 4 ≠ a ∧ c.1 / 4 ≠ b)) }

/-- What a test looks at of the next state. -/
def after {α : Type} (f : State → α) : Host.Outcome State Fault Refusal → Option α
  | .next t => some (f t)
  | .fault _ => none
  | .refused _ => none

/-- The fault of an outcome. -/
def faultOf : Host.Outcome State Fault Refusal → Option Fault
  | .next _ => none
  | .fault f => some f
  | .refused _ => none

def samples (l : List Nat) (s : State) : List (Option (Word × Word)) :=
  l.map (fun i => (s.sampleAt 0 i).map (fun v => (v.re, v.im)))

def statuses (s : State) : List Word := s.engines.map Engine.statusWord

theorem exists_next {o : Host.Outcome State Fault Refusal} (h : (after (fun _ => ()) o).isSome = true) :
    ∃ t, o = .next t := by
  cases o with
  | next t => exact ⟨t, rfl⟩
  | fault _ => simp [after] at h
  | refused _ => simp [after] at h

/-! ### Well-formedness and decoding -/

/-- R74: `STAGE` has four bits. -/
theorem test_middleFwd_ill_formed : (Instr.middleFwd 16).wf = false := by decide
theorem test_middleInv_ill_formed : (Instr.middleInv 16).wf = false := by decide
theorem test_middleInv_well_formed : (Instr.middleInv 15).wf = true := by decide

/-- The words of 95_test_vectors.md section 3 that are illegal by a reserved bit (R77). -/
theorem test_decode_reserved_bits :
    [0x41#32, 0x81#32, 0x1001#32, 0x12#32, 0x102#32, 0x125#32, 0x1105#32, 0x80000009#32].map decode =
      List.replicate 8 (.error .reservedBits) := by decide +kernel

/-- The words of 95_test_vectors.md section 3 that are illegal by their opcode (R78). -/
theorem test_decode_reserved_opcodes :
    [0x0#32, 0xA#32, 0xF#32, 0xFFFFFFFF#32].map decode = List.replicate 4 (.error .reservedOpcode) := by
  decide +kernel

/-- The legal words of 95_test_vectors.md section 3 (R76). -/
theorem test_decode_words :
    [0x01#32, 0x11#32, 0x21#32, 0x31#32, 0x02#32, 0x03#32, 0x04#32, 0x005#32, 0x105#32, 0xF05#32, 0x106#32, 0x07#32,
        0x08#32, 0x09#32].map decode =
      [.init false false, .init true false, .init false true, .init true true, .transform, .stage1Fwd, .stage1Inv,
        .middleFwd 0, .middleFwd 1, .middleFwd 15, .middleInv 1, .lastFwd, .lastInv, .bitrev].map .ok := by decide

/-- R82: `INIT ifft, bitrev` and `MIDDLE_FWD 1` as lines of a program. -/
theorem test_assemble :
    (assemble [.name "INIT", .name "bitrev"]).map encode = some 0x21#32
      ∧ (assemble [.name "MIDDLE_FWD", .number 1]).map encode = some 0x105#32
      ∧ assemble [.name "MIDDLE_FWD", .number 16] = none := by decide

/-! ### Arithmetic (95_test_vectors.md section 2) -/

theorem test_add_sub :
    add32 0x7FFFFFFF 1 = 0x80000000#32 ∧ sub32 0x80000000 1 = 0x7FFFFFFF#32 ∧ sub32 0 0x80000000 = 0x80000000#32 := by
  decide

theorem test_shifts :
    [asr (-17) 4, asr (-17) 2, asr (-3) 1, asr 3 1] = [-2, -5, -2, 1]
      ∧ [shl1 0xC0000000, shl1 0x3FFFFFFF, shl1 (-1)] = [0x80000000#32, 0x7FFFFFFE#32, 0xFFFFFFFE#32] := by decide

theorem test_mulhi :
    mulhi 0x80000000 0x80000000 = 0x40000000#32 ∧ mulhi 0xFFFFFFFF 1 = 0xFFFFFFFF#32
      ∧ mulhi 0x7FFFFFFF 0x7FFFFFFF = 0x3FFFFFFF#32 ∧ mulhi 0x80000000 0x7FFFFFFF = 0xC0000000#32 := by decide

theorem test_sat32 :
    sat32 (2 ^ 31) = 0x7FFFFFFF#32 ∧ sat32 (-2 ^ 31 - 1) = 0x80000000#32 ∧ sat32 5 = 5#32 := by decide

/-- The reference twiddle entries listed in 95_test_vectors.md section 2 (D5). -/
theorem test_reference_twiddles :
    [256, 512, 768, 1024, 1536, 2048, 2560, 3071].map (readTwiddle .reference) =
      [(0x7641AF3D, 0x30FBC54D), (0x5A82799A, 0x5A82799A), (0x30FBC54D, 0x7641AF3D), (0x00000000, 0x7FFFFFFF),
        (0xA57D8666, 0x5A82799A), (0x80000000, 0x00000000), (0xA57D8666, 0xA57D8666), (0xFFCDBC0B, 0x800009DF)] := by
  decide +kernel

/-- The output formats of R97: Q5.27, Q7.25, Q9.23, Q11.21, Q13.19. -/
theorem test_output_format :
    [16, 64, 256, 1024, 4096].map (fun n => (outputIntegerBits n, outputFractionBits n)) =
      [(5, 27), (7, 25), (9, 23), (11, 21), (13, 19)] := by decide

/-! ### One step of each command -/

/-- V5-1: `INIT bitrev` with `REQ_LEN = 16`. -/
theorem test_init :
    after (fun t => t.engines.map (fun g =>
        [g.statusWord, g.fftLen, g.descFlagsWord, g.twidMod, g.bitrevMod, g.oneByFftLen]))
      (step ({ idle [] with engines := [{ Engine.reset with reqLen := 16 }] }.withFetchWord 32 0x21)) =
      some [[1, 16, 2, 256, 256, 0x08000000]] := by decide +kernel

/-- V5-2: `INIT` with `REQ_LEN = 32` completes with `UNSUPPORTED_LENGTH`. -/
theorem test_init_unsupported :
    after (fun t => (statuses t, t.engines.map Engine.fftLen)) (step (initState 32)) = some ([0x110], [0]) := by
  decide +kernel

/-- V1-3. -/
theorem test_stage1Fwd :
    after (samples [0, 1, 5, 9, 13]) (step (ready 16 .stage1Fwd (impulse 16 1 0x40000000 0))) =
      some [some (0, 0), some (0x04000000, 0), some (0x02D413CC, 0xFD2BEC34), some (0x03B20D78, 0xFE7821D6),
        some (0x0187DE2A, 0xFC4DF288)] := by decide +kernel

/-- V1-6: the input shift floors. -/
theorem test_stage1Fwd_floor :
    after (samples [3, 7, 11, 15]) (step (ready 16 .stage1Fwd (impulse 16 3 0xFFFFFFFF 0x11))) =
      some [some (0xFFFFFFFF, 1), some (0, 0), some (0xFFFFFFFE, 2), some (0xFFFFFFFE, 0xFFFFFFFE)] := by
  decide +kernel

/-- V1-4. -/
theorem test_stage1Inv :
    after (samples [1, 5, 9, 13]) (step (ready 16 .stage1Inv (impulse 16 1 0x40000000 0))) =
      some [some (0x04000000, 0), some (0x02D413CC, 0x02D413CC), some (0x03B20D78, 0x0187DE2A),
        some (0x0187DE2A, 0x03B20D78)] := by decide +kernel

/-- V2-2: the words of the butterfly of `MIDDLE_FWD 1` with `N = 64` at position 1, base index 256. -/
theorem test_middleFwd :
    middleQuad (readTwiddle .reference) .fwd 256 { s0 := ⟨0x10000000, 0⟩, s1 := ⟨0, 0⟩, s2 := ⟨0, 0⟩, s3 := ⟨0, 0⟩ } =
      { s0 := ⟨0x04000000, 0⟩, s1 := ⟨0x02D413CC, 0xFD2BEC33⟩, s2 := ⟨0x03B20D79, 0xFE7821D6⟩,
        s3 := ⟨0x0187DE2A, 0xFC4DF286⟩ } := by decide +kernel

/-- 95_test_vectors.md section 3: `MIDDLE_FWD 2` with `N = 64` completes with `BAD_STAGE`. -/
theorem test_middleFwd_bad_stage : after statuses (step (ready 64 (.middleFwd 2) [])) = some [0x141] := by
  decide +kernel

/-- V2-3. -/
theorem test_middleInv :
    middleQuad (readTwiddle .reference) .inv 256 { s0 := ⟨0x10000000, 0⟩, s1 := ⟨0, 0⟩, s2 := ⟨0, 0⟩, s3 := ⟨0, 0⟩ } =
      { s0 := ⟨0x04000000, 0⟩, s1 := ⟨0x02D413CC, 0x02D413CC⟩, s2 := ⟨0x03B20D79, 0x0187DE2A⟩,
        s3 := ⟨0x0187DE2A, 0x03B20D79⟩ } := by decide +kernel

/-- R110 for `N = 64` and stage 1: four butterflies at position 0, then position 1 with base index 256. -/
theorem test_middle_places :
    (middlePlaces 64 64 1).take 5 =
      [⟨⟨0, 4, 8, 12⟩, 0⟩, ⟨⟨16, 20, 24, 28⟩, 0⟩, ⟨⟨32, 36, 40, 44⟩, 0⟩, ⟨⟨48, 52, 56, 60⟩, 0⟩,
        ⟨⟨1, 5, 9, 13⟩, 256⟩] := by decide +kernel

/-- The first group of the V3 vectors: eight words, every other sample zero. -/
def group (ws : List Word) : List Word := ws ++ List.replicate 24 0

/-- V3-1. -/
theorem test_lastFwd :
    after (samples [0, 1, 2, 3]) (step (ready 16 .lastFwd (group [0x100000, 0x200000, 0x300000, 0x400000, 0x500000,
        0x600000, 0x700000, 0x800000]))) =
      some [some (0x01000000, 0x01400000), some (0xFFC00000, 0xFFC00000), some (0xFF800000, 0),
        some (0, 0xFF800000)] := by decide +kernel

/-- R124 (b): the forward sum wraps. -/
theorem test_lastFwd_wraps :
    after (samples [0, 1]) (step (ready 16 .lastFwd (group (List.replicate 8 0x7FFFFFFF)))) =
      some [some (0xFFFFFFFC, 0xFFFFFFFC), some (0, 0)] := by decide +kernel

/-- V3-2: the cross combinations are swapped against the forward pass. -/
theorem test_lastInv :
    after (samples [0, 1, 2, 3]) (step (ready 16 .lastInv (group [0x100000, 0x200000, 0x300000, 0x400000, 0x500000,
        0x600000, 0x700000, 0x800000]))) =
      some [some (0x01000000, 0x01400000), some (0xFFC00000, 0xFFC00000), some (0, 0xFF800000),
        some (0xFF800000, 0)] := by decide +kernel

/-- R124 (d): `PAIRWISE` and `EXACT` differ on this group. -/
theorem test_lastInv_saturates :
    [SatMode.pairwise, .exact].map (fun m =>
        (lastQuad m .inv { s0 := ⟨0x7FFFFFFF, 0⟩, s1 := ⟨0x80000000, 0⟩, s2 := ⟨0x7FFFFFFF, 0⟩, s3 := ⟨0, 0⟩ }).s0.re) =
      [0xFFFFFFFF, 0x7FFFFFFE] := by decide +kernel

/-- V4-1: samples `(i, 0x100 + i)` reversed. -/
theorem test_bitrev :
    after (samples [1, 2, 6, 14, 15]) (step (ready 16 .bitrev ((List.range 32).map (fun k =>
        BitVec.ofNat 32 (if k % 2 = 0 then k / 2 else 0x100 + k / 2))))) =
      some [some (8, 0x108), some (4, 0x104), some (6, 0x106), some (7, 0x107), some (15, 0x10F)] := by
  decide +kernel

/-- V5-4 with the flag off, so bin 1 is at sample 8: the spectrum of an impulse, and the trace of R143. -/
theorem test_transform :
    after (fun t => (samples [0, 4, 8] t, t.engines.map Engine.trace))
        (step (ready 16 .transform (impulse 16 0 0x7FFFFFFF 0))) =
      some ([some (0x07FFFFFF, 0), some (0x07FFFFFE, 0), some (0x07FFFFFE, 0)], [[.s1 .fwd 256, .last .fwd]]) := by
  decide +kernel

/-- The second program line after a failed `INIT` (V5-3): `TRANSFORM` completes with `NOT_INITIALIZED`. -/
theorem test_transform_not_initialized :
    after statuses (step (State.reset.withFetchWord 32 2)) = some [0x130] := by decide +kernel

/-! ### The host side -/

/-- R154: the zero word completes with `ILLEGAL_COMMAND` (95_test_vectors.md section 3). -/
theorem test_illegal_word : after statuses (step ((idle []).withFetchWord 32 0)) = some [0x121] := by decide +kernel

/-- R160: a `CMD` write while busy sets `HAZARD`, bit 9, and `BUSY` stays. -/
theorem test_busy_write :
    after statuses (step { ready 16 .bitrev [] with schedule := [.set 0 .cmd 2] }) = some [0x203] := by decide +kernel

/-- R161: two overlapping owned ranges set `HAZARD` on both engines. -/
theorem test_overlap :
    after statuses (step (pair [.set 0 .cmd (encode .lastFwd)])) = some [0x203, 0x203] := by decide +kernel

/-- R161: the new command on `[16, 48)` and the one on `[0, 32)` share the words 16 to 31. -/
theorem test_overlap_recorded :
    after (fun t => t.engines.map Engine.overlaps) (step (pair [.set 0 .cmd (encode .lastFwd)])) =
      some [[shared false], [{ shared false with partner := 0 }]] := by decide +kernel

/-- One accepted `CMD` write leads to the state `sharing`, in every engine (R24, R161). -/
theorem test_sharing_reached :
    [.stage1Fwd, .bitrev, .transform].map (fun i => after State.engines (step { pair [.set 0 .cmd (encode .lastFwd)] with
        engines := [{ eng 16 false false with bufBase := 16 }, busy 16 i 0] })) =
      [Instr.stage1Fwd, .bitrev, .transform].map (fun i => some (sharing i).engines) := by decide +kernel

/-- R161: engine 0 learns that the command of engine 1 has completed. -/
theorem test_partner_completes :
    after (fun t => t.engines.map Engine.overlaps) (step (meeting [.complete 1])) = some [[shared true], []] := by
  decide +kernel

/-- R162: a write to an owned word spoils the range; a write beside it does nothing to the engine. -/
theorem test_foreign_write :
    after (fun t => t.engines.map (fun g => (g.hazard, g.spoilt))) (step (pair [.memw 31 5])) =
        some [(false, false), (true, true)]
      ∧ after (fun t => t.engines.map (fun g => (g.hazard, g.spoilt))) (step (pair [.memw 32 5])) =
        some [(false, false), (false, false)] := by decide +kernel

/-- R162: a read of an owned word is a hazard and spoils nothing. -/
theorem test_foreign_read :
    after (fun t => t.engines.map (fun g => (g.hazard, g.spoilt))) (step (pair [.memr 31])) =
      some [(false, false), (true, false)] := by decide +kernel

/-- R52: a write of the bytes 1 and 2 of word 0 moves those two only. -/
theorem test_partial_write :
    after (fun t => Memory.readWord t.mem 0) (step { ready 16 .bitrev [0x11223344] with
        engines := [eng 16 false false], schedule := [.busWrite 1 2 0xAABB] }) = some (some 0x11AABB44) := by
  decide +kernel

/-- R162: a completion step is a hazard on engine 0 where it accesses a word of engine 0. -/
theorem test_completion_hazard :
    after (fun t => t.engines.map (fun g => (g.hazard, g.spoilt))) (step (beside .lastFwd 30)) =
        some [(true, true), (false, false)]
      ∧ after (fun t => t.engines.map (fun g => (g.hazard, g.spoilt))) (step (beside .lastFwd 32)) =
        some [(false, false), (false, false)] := by decide +kernel

/-- R132, R162: `BITREV` swaps samples 14 and 7 and does not touch sample 15, the words 30 and 31. -/
theorem test_bitrev_hazard :
    after (fun t => t.engines.map (fun g => (g.hazard, g.spoilt))) (step (beside .bitrev 28)) =
        some [(true, true), (false, false)]
      ∧ after (fun t => t.engines.map (fun g => (g.hazard, g.spoilt))) (step (beside .bitrev 30)) =
        some [(false, false), (false, false)] := by decide +kernel

/-- R130, R163: `BITREV` reads samples 1 and 8 before samples 2 and 4. -/
theorem test_bitrev_unwritten : faultOf (step (holed 16 .bitrev 4 16)) = some (.unwrittenRead 0 16) := by
  decide +kernel

/-- R110, R163: a middle stage with `n1 = 16` reads sample 16 before sample 1. -/
theorem test_middle_unwritten :
    faultOf (step (holed 64 (.middleFwd 1) 2 33)) = some (.unwrittenRead 0 33) := by decide +kernel

/-- R142, R143: with `IFFT = 1` the phases of `TRANSFORM` are the inverse ones. -/
theorem test_transform_direction :
    after (fun t => t.engines.map Engine.trace) (step { ready 16 .transform (zeros 16) with
        engines := [{ busy 16 .transform 0 with ifft := true }] }) = some [[.s1 .inv 256, .last .inv]] := by
  decide +kernel

/-- R142, R163: `TRANSFORM` reads in the order of Stage-1, sample 4 before sample 1. -/
theorem test_transform_unwritten : faultOf (step (holed 16 .transform 2 8)) = some (.unwrittenRead 0 8) := by
  decide +kernel

/-- R52: bits 7:0 at the lowest byte address. -/
theorem test_little_endian :
    after State.hostData (step { ready 16 .bitrev [0x11223344] with
        engines := [eng 16 false false], schedule := [.busRead 1 2] }) = some 0x2233 := by decide +kernel

/-- R163: the first unwritten word in access order stops the command. -/
theorem test_unwritten_read :
    faultOf (step (ready 16 .stage1Fwd (zeros 8))) = some (.unwrittenRead 0 16) := by decide +kernel

/-! ### Witnesses: the hypotheses of every statement are met -/

/-- The conditions of `State.Runnable` as a check. -/
def runnableCheck (s : State) (g : Engine) (p : Pending) : Bool :=
  decide (s.engines[s.active]? = some g ∧ g.pending = some p ∧ g.initValid = true ∧ g.descriptorOk
      ∧ bufferEnd g p ≤ s.params.memWords)
    && (List.range' p.base.toNat (2 * g.fftLen.toNat)).all (fun a => (Memory.readWord s.mem a).isSome)

theorem runnable_of_check {s : State} {g : Engine} {p : Pending} (h : runnableCheck s g p = true) :
    s.Runnable g p := by
  simp only [runnableCheck, Bool.and_eq_true, decide_eq_true_eq, List.all_eq_true] at h
  obtain ⟨⟨h1, h2, h3, h4, h5⟩, ha⟩ := h
  exact ⟨⟨h1, h2⟩, h3, h4, h5, fun a h1 h2 => ha a (List.mem_range'_1.2 ⟨h1, h2⟩)⟩

/-- One engine with command `i` latched on a buffer of `n` zero samples at word 0. -/
def clean (n : Nat) (i : Instr) : State :=
  { State.reset with engines := [busy n i 0], mem := (List.range (8 * n)).map (fun b => (b, 0)) }

theorem readByte_clean {n : Nat} (i : Instr) {b : Nat} (h : b < 8 * n) :
    Memory.readByte (clean n i).mem b = some 0 := by
  have hw : Memory.wf (clean n i).mem :=
    List.pairwise_map.2 (List.pairwise_lt_range (n := 8 * n))
  exact (Memory.mem_iff_readByte hw (b, 0)).1 (List.mem_map.2 ⟨b, List.mem_range.2 h, rfl⟩)

theorem readWord_clean {n : Nat} (i : Instr) {a : Nat} (h : a < 2 * n) :
    Memory.readWord (clean n i).mem a = some 0 := by
  unfold Memory.readWord
  rw [readByte_clean i (by omega), readByte_clean i (by omega), readByte_clean i (by omega),
    readByte_clean i (by omega)]
  rfl

theorem undisturbed_clean {n : Nat} (i : Instr) (h : n ∈ [16, 64]) :
    (clean n i).Undisturbed (busy n i 0) (pend i 0) := by
  have hn : (busy n i 0).fftLen.toNat = n := by
    show (BitVec.ofNat 32 n).toNat = n
    revert h; revert n; decide
  have he : bufferEnd (busy n i 0) (pend i 0) = 2 * n := by
    unfold bufferEnd
    rw [hn]
    show 0 + 2 * n = 2 * n
    omega
  have hd : (busy n i 0).descriptorOk := by
    show (eng n false false).descriptorOk
    simp only [List.mem_cons, List.not_mem_nil, or_false] at h
    rcases h with rfl | rfl <;> decide
  refine ⟨⟨⟨rfl, rfl⟩, rfl, hd, ?_, fun a _ ha => ?_⟩, fun a _ _ => rfl, rfl, rfl⟩
  · rw [he]
    show 2 * n ≤ 65536
    simp only [List.mem_cons, List.not_mem_nil, or_false] at h
    omega
  · rw [he] at ha
    rw [readWord_clean i ha]
    rfl

theorem test_hyp_Stage1ButterflyValues :
    both (fun x => x.fdiv 16) (parts { re := 0x80000000, im := 0x7FFFFFFF }) = (-134217728, 134217727) := by decide

theorem test_hyp_MiddleButterflyValues : parts { re := 0x80000000, im := 1 } = (-2147483648, 1) := by decide

theorem test_hyp_LastStageGroupValues : parts { re := 0x7FFFFFFF, im := 0xFFFFFFFF } = (2147483647, -1) := by decide

theorem test_hyp_DecodeOfEncode : (Instr.middleFwd 15).wf = true ∧ (Instr.init true false).wf = true := by decide

theorem test_hyp_EncodeOfDecode : decode 0xF06#32 = .ok (.middleInv 15) := by decide

/-- The second and the third engine-selecting clause at the boundary: engine 0 idle, engine 1 busy. -/
theorem test_hyp_StepExecutesDecodedCommand :
    (∀ acts : List Action, (pair acts).schedule = acts ∧ (pair acts).engines[1]? = some (busy 16 .stage1Fwd 0)
        ∧ (busy 16 .stage1Fwd 0).pending = some (pend .stage1Fwd 0)
        ∧ (∀ (k : Nat) (h : Engine), k < 1 → (pair acts).engines[k]? = some h → h.pending = none)
        ∧ (pair acts).engines[0]? = some { eng 16 false false with bufBase := 16 }
        ∧ (eng 16 false false).pending = none)
      ∧ decode (pend .stage1Fwd 0).cmd = .ok .stage1Fwd
      ∧ (State.reset.schedule = [] ∧ ∀ h ∈ State.reset.engines, h.pending = none) := by
  refine ⟨fun acts => ⟨rfl, rfl, rfl, fun k h hk hh => ?_, rfl, rfl⟩, by decide, by decide⟩
  obtain rfl : k = 0 := by omega
  obtain rfl : { eng 16 false false with bufBase := 16 } = h := Option.some.inj hh
  rfl

theorem test_hyp_IllegalWordCompletesWithItsCode :
    (State.reset.withFetchWord 32 0x41).schedule = .complete 0 :: []
      ∧ (State.reset.withFetchWord 32 0x41).engines[0]? = some (Engine.latch 0x41 Engine.reset)
      ∧ (Engine.latch 0x41 Engine.reset).pending = some { cmd := 0x41, base := 0, req := 0 }
      ∧ decode 0x41#32 = .error .reservedBits := by decide

theorem test_hyp_FetchedWordRunsNext :
    State.reset.engines[State.reset.active]? = some Engine.reset
      ∧ decodeTableWord 32 0xF05 = some (.middleFwd 15) := by decide

theorem latched_initState (req : Nat) :
    (initState req).Latched { Engine.reset with pending := some { cmd := 1, base := 0, req := BitVec.ofNat 32 req } }
      { cmd := 1, base := 0, req := BitVec.ofNat 32 req } := ⟨rfl, rfl⟩

/-- The supported lengths, least and greatest among them. -/
theorem test_hyp_InitOfSupportedLength :
    ∀ n ∈ [16, 64, 256, 1024, 4096],
      supported (BitVec.ofNat 32 n).toNat = true
        ∧ ∃ g, (initState n).Latched g { cmd := 1, base := 0, req := BitVec.ofNat 32 n } := by
  intro n hn
  exact ⟨by revert n; decide, _, latched_initState n⟩

/-- Unsupported lengths at the boundaries (R139). -/
theorem test_hyp_InitOfUnsupportedLength :
    ∀ n ∈ [0, 1, 4, 15, 17, 32, 2048, 16384],
      supported (BitVec.ofNat 32 n).toNat = false
        ∧ ∃ g, (initState n).Latched g { cmd := 1, base := 0, req := BitVec.ofNat 32 n } := by
  intro n hn
  exact ⟨by revert n; decide, _, latched_initState n⟩

theorem test_hyp_InitDescriptorTable :
    ∀ n ∈ [16, 64, 256, 1024, 4096], (BitVec.ofNat 32 n).toNat = n
      ∧ ∃ g, (initState n).Latched g { cmd := 1, base := 0, req := BitVec.ofNat 32 n } := by
  intro n hn
  exact ⟨by revert n; decide, _, latched_initState n⟩

theorem test_hyp_SupportedLengthsArePowersOf4 : supported 16 = true ∧ supported 4096 = true ∧ supported 2048 = false := by
  decide

theorem test_hyp_InitTwiceIsInitOnce : ∃ t, exec (.init true false) (initState 64) = .next t :=
  exists_next (by decide +kernel)

/-- Each clause at its boundary: no descriptor, stages 0 and 2 with one middle stage, and one word too few. -/
theorem test_hyp_FailedCheckStopsWithItsCode :
    ({ State.reset with engines := [Engine.latch 2 Engine.reset] }).Latched (Engine.latch 2 Engine.reset)
        { cmd := 2, base := 0, req := 0 }
      ∧ (Engine.latch 2 Engine.reset).initValid = false
      ∧ (∀ k ∈ [0, 2], (ready 64 (.middleInv k) []).Latched (busy 64 (.middleInv k) 0) (pend (.middleInv k) 0)
          ∧ (busy 64 (.middleInv k) 0).initValid = true ∧ ¬ stageOk (.middleInv k) (busy 64 (.middleInv k) 0))
      ∧ ({ State.reset with engines := [busy 16 .bitrev (0x10000 - 31)] }).Latched
          (busy 16 .bitrev (0x10000 - 31)) (pend .bitrev (0x10000 - 31))
      ∧ (busy 16 .bitrev (0x10000 - 31)).initValid = true ∧ stageOk .bitrev (busy 16 .bitrev (0x10000 - 31))
      ∧ State.reset.params.memWords < (pend .bitrev (0x10000 - 31)).base.toNat
          + 2 * (busy 16 .bitrev (0x10000 - 31)).fftLen.toNat := by
  refine ⟨⟨rfl, rfl⟩, rfl, fun k hk => ⟨⟨rfl, rfl⟩, rfl, fun h => ?_⟩, ⟨rfl, rfl⟩, rfl, (fun k hk => nomatch hk),
    by decide +kernel⟩
  have h := h k rfl
  have hl : log4 (busy 64 (.middleInv k) 0).fftLen.toNat = 3 := by
    show log4 (BitVec.ofNat 32 64).toNat = 3
    decide
  rw [hl] at h
  simp at hk
  omega

/-- A buffer that ends at the last word of the memory, and the last middle stage. -/
theorem test_hyp_PassedChecksCompleteWithOk :
    ({ ready 16 .lastInv [] with
        engines := [busy 16 .lastInv (0x10000 - 32)], mem := store (0x10000 - 32) (zeros 16) }).Runnable
          (busy 16 .lastInv (0x10000 - 32)) (pend .lastInv (0x10000 - 32))
      ∧ (Instr.lastInv).touchesBuffer = true ∧ stageOk .lastInv (busy 16 .lastInv (0x10000 - 32))
      ∧ stageOk (.middleFwd 1) (busy 64 (.middleFwd 1) 0) := by
  refine ⟨runnable_of_check (by decide +kernel), rfl, (fun k hk => nomatch hk), fun k hk => ?_⟩
  cases hk
  decide

theorem test_hyp_Stage1PassResult :
    (clean 16 .stage1Fwd).Undisturbed (busy 16 .stage1Fwd 0) (pend .stage1Fwd 0)
      ∧ ((clean 16 .stage1Fwd).quadAt 0 (spaced 3 4)).isSome = true :=
  ⟨undisturbed_clean _ (by decide), by decide +kernel⟩

theorem test_hyp_MiddlePassResult :
    (clean 64 (.middleInv 1)).Undisturbed (busy 64 (.middleInv 1) 0) (pend (.middleInv 1) 0)
      ∧ log4 (busy 64 (.middleInv 1) 0).fftLen.toNat - 2 = 1
      ∧ ((clean 64 (.middleInv 1)).quadAt 0 (spaced (3 + 3 * 16) 4)).isSome = true :=
  ⟨undisturbed_clean _ (by decide), by decide +kernel, by decide +kernel⟩

theorem test_hyp_LastPassResult :
    (clean 16 .lastInv).Undisturbed (busy 16 .lastInv 0) (pend .lastInv 0)
      ∧ ((clean 16 .lastInv).quadAt 0 (spaced (4 * 3) 1)).isSome = true :=
  ⟨undisturbed_clean _ (by decide), by decide +kernel⟩

/-- `BITREV` with sample 0, a fixed point, never written. -/
def partlyWritten : State := { ready 16 .bitrev [] with mem := store 2 (zeros 15) }

/-- Only the samples that move need to have been written. -/
theorem test_hyp_BitrevPassResult :
    partlyWritten.Latched (busy 16 .bitrev 0) (pend .bitrev 0) ∧ (busy 16 .bitrev 0).initValid = true
      ∧ (busy 16 .bitrev 0).descriptorOk
      ∧ bufferEnd (busy 16 .bitrev 0) (pend .bitrev 0) ≤ partlyWritten.params.memWords
      ∧ partlyWritten.exclusive 0 (bufferEnd (busy 16 .bitrev 0) (pend .bitrev 0))
      ∧ (busy 16 .bitrev 0).spoilt = false ∧ (busy 16 .bitrev 0).overlaps = []
      ∧ (∀ i, i < 16 → revBits 4 i ≠ i → (partlyWritten.sampleAt 0 i).isSome = true)
      ∧ partlyWritten.sampleAt 0 0 = none :=
  ⟨⟨rfl, rfl⟩, rfl, by decide +kernel, by decide +kernel, fun _ _ _ => rfl, rfl, rfl, by decide +kernel,
    by decide +kernel⟩

theorem test_hyp_ReversedIndexIsAnInvolution : 15 < 2 ^ 4 ∧ 4095 < 2 ^ 12 := by decide

theorem test_hyp_TransformEqualsItsComponents :
    (clean 16 .transform).Undisturbed (busy 16 .transform 0) (pend .transform 0) :=
  undisturbed_clean _ (by decide)

theorem test_hyp_TransformTrace :
    (clean 64 .transform).Undisturbed (busy 64 .transform 0) (pend .transform 0) :=
  undisturbed_clean _ (by decide)

theorem test_hyp_ZeroInputGivesZeroOutput :
    (clean 16 .transform).Undisturbed (busy 16 .transform 0) (pend .transform 0)
      ∧ ∀ i, i < 16 → (clean 16 .transform).sampleAt 0 i = some { re := 0, im := 0 } :=
  ⟨undisturbed_clean _ (by decide), by decide +kernel⟩

theorem test_hyp_BitrevTwiceRestoresTheBuffer :
    (clean 16 .bitrev).Undisturbed (busy 16 .bitrev 0) (pend .bitrev 0) :=
  undisturbed_clean _ (by decide)

theorem test_hyp_BitrevFlagPermutesTheOutput :
    (clean 16 .transform).Undisturbed (busy 16 .transform 0) (pend .transform 0)
      ∧ (busy 16 .transform 0).bitrev = false :=
  ⟨undisturbed_clean _ (by decide), rfl⟩

/-- The completing engine is engine 1; engine 0 keeps an entry for the words the two share, and owns word 16, which
`BITREV` accesses. Beside it an engine that owns words of the buffer, and none that `BITREV` accesses, and a
command stopped by a check. -/
theorem test_hyp_BufferCommandFrame :
    (∃ t, exec .bitrev (meeting []) = .next t)
      ∧ (meeting []).Latched (busy 16 .bitrev 0) (pend .bitrev 0)
      ∧ (busy 16 .bitrev 0).descriptorOk ∧ (Instr.bitrev).touchesBuffer = true
      ∧ ((meeting []).engines[0]?).map Engine.overlaps = some [shared false]
      ∧ accesses .bitrev (busy 16 .bitrev 0) (pend .bitrev 0) 16 ∧ (busy 16 .lastFwd 16).ownsWord 0x10000 16 = true
      ∧ (∀ a, accesses .bitrev (busy 16 .bitrev 0) (pend .bitrev 0) a →
          (busy 16 .stage1Inv 30).ownsWord 0x10000 a = false)
      ∧ after statuses (exec (.middleFwd 1) (beside (.middleFwd 1) 16)) = some [3, 0x141] := by
  refine ⟨exists_next (by decide +kernel), ⟨rfl, rfl⟩, by decide +kernel, rfl, by decide,
    ⟨by decide, by decide +kernel, fun _ => by decide⟩, by decide +kernel, ?_, by decide +kernel⟩
  rintro a ⟨-, h, hm⟩
  have fixed : ∀ a, a < 32 →
      (revBits (log2 (busy 16 .bitrev 0).fftLen.toNat) (a / 2) ≠ a / 2) →
        (busy 16 .stage1Inv 30).ownsWord 0x10000 a = false := by decide +kernel
  exact fixed a h (hm rfl)

theorem test_hyp_LastStageAndBitrevIgnoreTwiddles :
    (clean 16 .lastFwd).Undisturbed (busy 16 .lastFwd 0) (pend .lastFwd 0) :=
  undisturbed_clean _ (by decide)

theorem test_hyp_StepKeepsTheInvariant :
    (ready 16 .stage1Inv (zeros 16)).Inv ∧ ∃ t, step (ready 16 .stage1Inv (zeros 16)) = .next t :=
  ⟨by decide +kernel, exists_next (by decide +kernel)⟩

/-- The bounds of `MEM_WORDS`, and two blocks side by side. -/
theorem test_hyp_ResetMeetsTheInvariant :
    twoEngines.wf ∧ { twoEngines with memWords := 1 }.wf
      ∧ { twoEngines with memWords := 2 ^ 32, memHostBase := 0x80000080 }.wf
      ∧ ¬ { twoEngines with memWords := 0 }.wf ∧ ¬ { twoEngines with regBlockBase := [] }.wf
      ∧ ¬ { twoEngines with regBlockBase := [0x80000000, 0x8000003C] }.wf := by decide +kernel

theorem test_hyp_StepKeepsParametersAndEngines : ∃ t, step (pair [.reset 1]) = .next t :=
  exists_next (by decide +kernel)

theorem test_hyp_StickyBitsStay :
    (∃ t, step { idle [.get 0 .status] with
          engines := [{ eng 16 false false with errSticky := true, hazard := true }] } = .next t)
      ∧ (idle [.get 0 .status]).schedule.head? ≠ some (.reset 0) :=
  ⟨exists_next (by decide +kernel), by decide⟩

theorem test_hyp_RegisterReads :
    (idle [.get 0 .descFlags]).engines[0]? = some (eng 16 false false)
      ∧ (idle [.get 0 .descFlags]).schedule = .get 0 .descFlags :: [] := by decide

theorem test_hyp_ReservedOffsets :
    RegName.ofOffset 9 = some .reserved ∧ RegName.ofOffset 15 = some .reserved ∧ RegName.ofOffset 16 = none
      ∧ (idle [.set 0 .reserved 5]).engines[0]? = some (eng 16 false false) := by decide

theorem test_hyp_ReadOnlyWritesAreIgnored :
    (idle [.set 0 .status 5]).engines[0]? = some (eng 16 false false)
      ∧ (idle [.set 0 .status 5]).schedule = .set 0 .status 5 :: [] := by decide

/-- Engine 0 is idle, beside a busy engine and alone. -/
theorem test_hyp_IdleCommandWriteLatches :
    (pair [.set 0 .cmd 2]).engines[0]? = some { eng 16 false false with bufBase := 16 }
      ∧ (eng 16 false false).pending = none ∧ (pair [.set 0 .cmd 2]).schedule = .set 0 .cmd 2 :: []
      ∧ (idle [.set 0 .cmd 2]).engines[0]? = some (eng 16 false false)
      ∧ (idle [.set 0 .cmd 2]).schedule = .set 0 .cmd 2 :: []
      ∧ (∀ (k : Nat) (g : Engine), k ≠ 0 → (idle [.set 0 .cmd 2]).engines[k]? = some g → g.pending = none) := by
  refine ⟨rfl, rfl, rfl, rfl, rfl, fun k g hk hg => ?_⟩
  obtain ⟨k, rfl⟩ := Nat.exists_eq_succ_of_ne_zero hk
  simp [idle] at hg

/-- What is owned (R42), at the last base that fits and the first that does not, and where nothing is: an idle
engine, a stage operand out of range, `INIT`, an illegal word, no descriptor; and who finds a word foreign. -/
theorem test_owned_ranges :
    (busy 16 .stage1Fwd 0).owned 0x10000 = some (0, 32)
      ∧ (busy 16 .stage1Fwd 0xFFE0).owned 0x10000 = some (0xFFE0, 0x10000)
      ∧ (busy 16 .stage1Fwd 0xFFE1).owned 0x10000 = none
      ∧ (busy 64 (.middleFwd 1) 0).owned 0x10000 = some (0, 128) ∧ (busy 16 (.middleFwd 1) 0).owned 0x10000 = none
      ∧ (busy 16 (.init true true) 0).owned 0x10000 = none ∧ (eng 16 false false).owned 0x10000 = none
      ∧ (Engine.latch 10 (eng 16 false false)).owned 0x10000 = none
      ∧ { busy 16 .stage1Fwd 0 with initValid := false }.owned 0x10000 = none
      ∧ (pair []).foreign none 31 = true ∧ (pair []).foreign (some 0) 31 = true
      ∧ (pair []).foreign (some 1) 31 = false ∧ (pair []).foreign none 32 = false := by decide +kernel

/-- The latched command would own `[16, 48)`, engine 1 owns `[0, 32)`: word 31 is in both, word 32 is not. -/
theorem test_hyp_OverlappingBuffersSetBothHazards :
    (pair [.set 0 .cmd 7]).engines[0]? = some { eng 16 false false with bufBase := 16 }
      ∧ (eng 16 false false).pending = none ∧ (pair [.set 0 .cmd 7]).schedule = .set 0 .cmd 7 :: []
      ∧ (Engine.latch 7 { eng 16 false false with bufBase := 16 }).ownsWord 0x10000 31 = true
      ∧ (busy 16 .stage1Fwd 0).ownsWord 0x10000 31 = true
      ∧ (busy 16 .stage1Fwd 0).ownsWord 0x10000 32 = false := by decide +kernel

theorem test_hyp_BusyWritesAreIgnored :
    (pair [.set 1 .reqLen 64]).engines[1]? = some (busy 16 .stage1Fwd 0)
      ∧ (busy 16 .stage1Fwd 0).pending = some (pend .stage1Fwd 0) := by decide

theorem test_hyp_ConfigurationRegistersReadBack :
    (idle [.set 0 .bufBase 0xFFFFFFFF, .get 0 .bufBase]).schedule = .set 0 .bufBase 0xFFFFFFFF :: .get 0 .bufBase :: []
      ∧ (idle [.set 0 .reqLen 0, .get 0 .reqLen]).schedule = .set 0 .reqLen 0 :: .get 0 .reqLen :: []
      ∧ (eng 16 false false).pending = none := by decide

/-- The last word of the memory. -/
theorem test_hyp_HostWordReadsBack :
    0xFFFF < (pair [.memw 0xFFFF 5, .memr 0xFFFF]).params.memWords
      ∧ (pair [.memw 0xFFFF 5, .memr 0xFFFF]).foreign none 0xFFFF = false
      ∧ (pair [.memw 0xFFFF 5, .memr 0xFFFF]).schedule = .memw 0xFFFF 5 :: .memr 0xFFFF :: [] := by decide +kernel

/-- Word 31 is the last one engine 1 owns, word 32 the first it does not, word 64 the first unwritten one. -/
theorem test_hyp_OwnedWordAccessSetsHazard :
    64 < (pair []).params.memWords ∧ (pair [.memr 31]).schedule = .memr 31 :: []
      ∧ (pair [.memw 31 5]).schedule = .memw 31 5 :: []
      ∧ owned (pair []) 31 ∧ ¬ owned (pair []) 32 ∧ ¬ owned (pair []) 64
      ∧ (∀ n, n < 4 → Memory.readByte (pair []).mem (4 * 64 + n) = none)
      ∧ Memory.readWord (pair []).mem 31 = some 0 ∧ Memory.readWord (pair []).mem 32 = some 0
      ∧ (∃ (k : Nat) (g : Engine), k ≠ 0 ∧ (pair []).engines[k]? = some g ∧ g.ownsWord 0x10000 31 = true)
      ∧ (∀ (k : Nat) (g : Engine), k ≠ 1 → (pair []).engines[k]? = some g → g.ownsWord 0x10000 31 = false) := by
  refine ⟨by decide, rfl, rfl, ⟨_, List.mem_cons_of_mem _ List.mem_cons_self, by decide +kernel⟩, ?_, ?_,
    by decide +kernel, by decide +kernel, by decide +kernel, ⟨1, _, by decide, rfl, by decide +kernel⟩, ?_⟩
  · rintro ⟨g, hg, ho⟩
    rcases List.mem_pair.1 hg with rfl | rfl <;> revert ho <;> decide +kernel
  · rintro ⟨g, hg, ho⟩
    rcases List.mem_pair.1 hg with rfl | rfl <;> revert ho <;> decide +kernel
  · intro k g hk hg
    match k, hk with
    | 0, _ =>
      obtain rfl := Option.some.inj hg
      decide +kernel
    | k + 2, _ => exact nomatch hg

/-- A disturbed command with an overlap that is over, of which word 15 is no part; and the first of two overlapping
commands to complete, in the states of `test_sharing_reached`: word 16 is engine 0's, word 15 is not. -/
theorem test_hyp_DisturbedBufferIsUnspecified :
    ({ ready 16 .lastFwd (zeros 16) with
        engines := [{ busy 16 .lastFwd 0 with
          spoilt := true, overlaps := [{ partner := 1, lo := 16, hi := 32, partnerDone := true }] }] }).Runnable
      { busy 16 .lastFwd 0 with
        spoilt := true, overlaps := [{ partner := 1, lo := 16, hi := 32, partnerDone := true }] }
      (pend .lastFwd 0)
      ∧ stageOk .lastFwd (busy 16 .lastFwd 0)
      ∧ keepsWord { busy 16 .lastFwd 0 with overlaps := [shared true] } 15
      ∧ (∀ i ∈ [Instr.stage1Fwd, .bitrev, .transform],
          (sharing i).Runnable { busy 16 i 0 with hazard := true, overlaps := [{ shared false with partner := 0 }] }
            (pend i 0)
          ∧ (sharing i).foreign (some 1) 15 = false ∧ (sharing i).foreign (some 1) 16 = true)
      ∧ keepsWord { busy 16 .bitrev 0 with overlaps := [{ shared false with partner := 0 }] } 16
      ∧ stageOk .stage1Fwd (busy 16 .stage1Fwd 0) ∧ stageOk .bitrev (busy 16 .bitrev 0)
      ∧ stageOk .transform (busy 16 .transform 0) ∧ (busy 16 .bitrev 0).spoilt = false
      ∧ revBits (log2 (busy 16 .bitrev 0).fftLen.toNat) 8 ≠ 8
      ∧ revBits (log2 (busy 16 .bitrev 0).fftLen.toNat) 9 = 9 := by
  refine ⟨runnable_of_check (by decide +kernel), (fun k hk => nomatch hk), by unfold keepsWord; decide, ?_,
    by unfold keepsWord; decide, (fun k hk => nomatch hk), (fun k hk => nomatch hk), (fun k hk => nomatch hk), rfl,
    by decide +kernel, by decide +kernel⟩
  intro i hi
  obtain rfl | rfl | rfl : i = .stage1Fwd ∨ i = .bitrev ∨ i = .transform := by simpa using hi
  · exact ⟨runnable_of_check (by decide +kernel), by decide +kernel, by decide +kernel⟩
  · exact ⟨runnable_of_check (by decide +kernel), by decide +kernel, by decide +kernel⟩
  · exact ⟨runnable_of_check (by decide +kernel), by decide +kernel, by decide +kernel⟩

/-- The first and last addresses of a block and of the memory, and those beside them; the registers 0 and
`ONEBYFFTLEN` whole, misaligned and of half width; memory accesses that reach the end of their word, and one past it. -/
theorem test_hyp_BusAccessesWithoutAStep :
    Params.default.regBlockBase[0]? = some 0x80000000
      ∧ (∀ base ∈ Params.default.regBlockBase, ¬ (base ≤ 0x80000040 ∧ 0x80000040 < base + 64))
      ∧ (∀ base ∈ Params.default.regBlockBase, ¬ (base ≤ 0x3FFFF ∧ 0x3FFFF < base + 64))
      ∧ Params.resolve Params.default 0x80000001 = some (.register 0 1)
      ∧ Params.resolve Params.default 0x80000000 = some (.register 0 (4 * 0)) ∧ RegName.ofOffset 0 = some .cmd
      ∧ Params.resolve Params.default 0x80000020 = some (.register 0 (4 * 8))
      ∧ RegName.ofOffset 8 = some .oneByFftLen
      ∧ Params.resolve Params.default 0x8000003C = some (.register 0 (4 * 15))
      ∧ Params.resolve Params.default 0x80000040 = none
      ∧ Params.resolve Params.default 0x3FFFF = some (.memory 0x3FFFF) ∧ 0x3FFFF % 4 + 1 ≤ 4
      ∧ 4 < 0x3FFFF % 4 + 2 ∧ Params.resolve Params.default 0x81 = some (.memory 0x81) ∧ 0x81 % 4 + 3 ≤ 4
      ∧ Params.resolve Params.default 0x7C = some (.memory 0x7C) ∧ 0x7C % 4 + 4 ≤ 4
      ∧ Params.resolve Params.default 0x40000 = none
      ∧ (pair [.busWrite 0x81 3 5]).schedule = .busWrite 0x81 3 5 :: []
      ∧ (pair [.busRead 0x7C 4]).schedule = .busRead 0x7C 4 :: [] := by decide

/-- Engine 1 is busy, and engine 0 keeps an entry for it; an idle engine is reset as well. -/
theorem test_hyp_ResetOfAnEngine :
    (meeting [.reset 1]).engines[1]? = some (busy 16 .bitrev 0) ∧ (meeting [.reset 1]).schedule = .reset 1 :: []
      ∧ ((meeting [.reset 1]).engines[0]?).map Engine.overlaps = some [shared false]
      ∧ (pair [.reset 0]).schedule = .reset 0 :: [] ∧ (eng 16 false false).owned 0x10000 = none := by decide +kernel

theorem test_hyp_ResetWhileBusy :
    (pair [.reset 1]).engines[1]? = some (busy 16 .stage1Fwd 0) ∧ (busy 16 .stage1Fwd 0).pending.isSome = true
      ∧ (busy 16 .stage1Fwd 0).owned (pair [.reset 1]).params.memWords = some (0, 32)
      ∧ (busy 16 (.middleFwd 1) 0).pending.isSome = true ∧ (busy 16 (.middleFwd 1) 0).owned 0x10000 = none := by
  decide +kernel

theorem test_hyp_TwiddleIndicesInRange :
    supported 16 = true ∧ supported 64 = true ∧ { slots := spaced 3 4, base := 768 } ∈ stage1Places 16 (4096 / 16)
      ∧ { slots := spaced 51 4, base := 768 } ∈ middlePlaces 64 (4096 / 64) 1
      ∧ 0 < [((1, 2) : Word × Word)].length := by decide +kernel

theorem test_hyp_PassesCoverEverySampleOnce :
    supported 16 = true ∧ supported 4096 = true ∧ log4 16 - 2 = 0 ∧ log4 4096 - 2 = 4 := by decide

/-- `TRANSFORM` with the last word alone missing, and `BITREV` with words of the samples 2 and 8 missing, of which
it reads sample 8 first. -/
theorem test_hyp_UnwrittenBufferFaults :
    Memory.readWord (ready 16 .transform (List.replicate 31 0)).mem 31 = none
      ∧ (ready 16 .transform (List.replicate 31 0)).Latched (busy 16 .transform 0) (pend .transform 0)
      ∧ (busy 16 .transform 0).initValid = true ∧ (busy 16 .transform 0).descriptorOk
      ∧ bufferEnd (busy 16 .transform 0) (pend .transform 0) = 32
      ∧ 32 ≤ (ready 16 .transform (List.replicate 31 0)).params.memWords
      ∧ stageOk .transform (busy 16 .transform 0)
      ∧ accesses .transform (busy 16 .transform 0) (pend .transform 0) 31
      ∧ (holed 16 .bitrev 4 16).Latched (busy 16 .bitrev 0) (pend .bitrev 0)
      ∧ accesses .bitrev (busy 16 .bitrev 0) (pend .bitrev 0) 4
      ∧ (readWords .bitrev (busy 16 .bitrev 0) (pend .bitrev 0)).take 3 = [2, 3] ++ [16]
      ∧ (∀ b ∈ [2, 3], (Memory.readWord (holed 16 .bitrev 4 16).mem b).isSome = true)
      ∧ Memory.readWord (holed 16 .bitrev 4 16).mem 16 = none :=
  ⟨by decide +kernel, ⟨rfl, rfl⟩, rfl, by decide +kernel, by decide +kernel, by decide +kernel,
    (fun k hk => nomatch hk), ⟨by decide, by decide +kernel, (fun h => nomatch h)⟩, ⟨rfl, rfl⟩,
    ⟨by decide, by decide +kernel, fun _ => by decide⟩, by decide +kernel, by decide +kernel, by decide +kernel⟩

theorem test_hyp_LastStageFaultsAtTheFirstUnwrittenWord :
    (ready 16 .lastInv (List.replicate 31 0)).Latched (busy 16 .lastInv 0) (pend .lastInv 0)
      ∧ (busy 16 .lastInv 0).initValid = true ∧ (busy 16 .lastInv 0).descriptorOk
      ∧ bufferEnd (busy 16 .lastInv 0) (pend .lastInv 0) = 32
      ∧ 32 ≤ (ready 16 .lastInv (List.replicate 31 0)).params.memWords
      ∧ Memory.readWord (ready 16 .lastInv (List.replicate 31 0)).mem 31 = none
      ∧ ∀ b, b < 31 → (Memory.readWord (ready 16 .lastInv (List.replicate 31 0)).mem b).isSome = true :=
  ⟨⟨rfl, rfl⟩, rfl, by decide +kernel, by decide +kernel, by decide +kernel, by decide +kernel, by decide +kernel⟩

end Sys2Proof.Tests
end

section
/-! SUPPORT. A scheduled register move, said as the step that makes it, and the registers at the offsets
that R33 reserves. -/

namespace Sys2Proof.Machine

open Sys2Proof

/-- A scheduled register write is the register write after the move has left the schedule (R19). -/
theorem step_of_set {s : State} {e : Nat} {r : RegName} {v : Word} {rest : List Action}
    (h : s.schedule = .set e r v :: rest) : step s = State.writeReg e r v { s with schedule := rest } := by
  unfold step State.advance
  rw [h]
  rfl

/-- A scheduled register read is the register read after the move has left the schedule (R19). -/
theorem step_of_get {s : State} {e : Nat} {r : RegName} {rest : List Action}
    (h : s.schedule = .get e r :: rest) : step s = State.readReg e r { s with schedule := rest } := by
  unfold step State.advance
  rw [h]
  rfl

/-- A read of a register of an engine that exists answers with the register's value (R34). -/
theorem State.readReg_of_engine {s : State} {e : Nat} {g : Engine} (hg : s.engines[e]? = some g) (r : RegName) :
    s.readReg e r = .next { s with hostData := g.readReg r } := by
  unfold State.readReg
  rw [hg]

@[simp] theorem Engine.readReg_reserved (g : Engine) : g.readReg .reserved = 0 := rfl

/-- A write to a reserved offset leaves the state as it is, whether the engine is busy or not (R33, R160). -/
theorem State.writeReg_reserved {s : State} {e : Nat} {g : Engine} (hg : s.engines[e]? = some g) (v : Word) :
    s.writeReg e .reserved v = .next s := by
  unfold State.writeReg
  rw [hg]

/-- The register block's offsets past `ONE_BY_FFT_LEN` are reserved (R23, R33). -/
theorem RegName.ofOffset_eq_reserved {n : Nat} (hlo : 9 ≤ n) (hhi : n ≤ 15) : ofOffset n = some .reserved := by
  interval_cases n <;> rfl

/-- Settles O43: a move on a reserved register is its register access, a read answers 0 and a write
answers the state it found. -/
theorem reservedOffsets : Obligations.ReservedOffsets := by
  unfold Obligations.ReservedOffsets
  refine ⟨fun _ => RegName.ofOffset_eq_reserved, fun s e rest g v hg => ⟨fun hs => ?_, fun hs => ?_⟩⟩
  · rw [step_of_get hs, State.readReg_of_engine (s := { s with schedule := rest }) hg, Engine.readReg_reserved]
  · rw [step_of_set hs, State.writeReg_reserved (s := { s with schedule := rest }) hg]

end Sys2Proof.Machine
end

section
/-! SUPPORT. The twiddle indices of a stage stay below a quarter of the native resolution, and what `TwRead`
gives for the two kinds of ROM. -/

namespace Sys2Proof.Machine

open Sys2Proof

/-- Base indices lie in the first quarter turn: in a block of `n/4^s` samples, group `j` of its quarter has
`4 * 4^s * j < n`, and the modifier `M/n * 4^s` scales this bound to `M` (R50, R55). -/
theorem four_mul_groupIndex_lt {M n s j : Nat} (hM : 0 < M) (hj : j < n / 4 ^ s / 4) :
    4 * (j * modifierAt (M / n) s) < M := by
  have hblock : j * (4 ^ s * 4) < n := by
    rw [Nat.div_div_eq_div_mul] at hj
    exact (Nat.mul_lt_mul_of_pos_right hj (by positivity)).trans_le (Nat.div_mul_le_self _ _)
  have hregroup : 4 * (j * modifierAt (M / n) s) = M / n * (j * (4 ^ s * 4)) := by
    unfold modifierAt
    ring
  rw [hregroup]
  rcases Nat.eq_zero_or_pos (M / n) with hzero | hpos
  · simpa [hzero] using hM
  · exact (Nat.mul_lt_mul_of_pos_left hblock hpos).trans_le (Nat.div_mul_le_self M n)

/-- The base index of a Stage-1 group lies in the first quarter turn (R50, R100). -/
theorem stage1Places_base_lt {n : Nat} {p : Place} (h : p ∈ stage1Places n (4096 / n)) : p.base < 1024 := by
  obtain ⟨g, hg, rfl⟩ := List.mem_map.1 h
  have hbound := four_mul_groupIndex_lt (M := 4096) (n := n) (s := 0) (by decide) (by simpa using hg)
  show g * modifierAt (4096 / n) 0 < 1024
  omega

/-- The base index of a middle-stage butterfly lies in the first quarter turn, at every stage (R50, R110). -/
theorem middlePlaces_base_lt {n s : Nat} {p : Place} (h : p ∈ middlePlaces n (4096 / n) s) : p.base < 1024 := by
  obtain ⟨j, hj, hp⟩ := List.mem_flatMap.1 h
  obtain ⟨i0, -, rfl⟩ := List.mem_map.1 hp
  have hbound := four_mul_groupIndex_lt (M := 4096) (n := n) (by decide) (List.mem_range.1 hj)
  show j * modifierAt (4096 / n) s < 1024
  omega

/-- A base index in the first quarter turn has its three multiples inside the ROM (R10, R50). -/
theorem multiples_in_rom {k : Nat} (h : k < 1024) : 3 * k < 3072 ∧ 2 * k < 3072 ∧ k < 3072 := by omega

/-- `TwRead` of a listed ROM is the pair at its place (R37, R49). -/
theorem readTwiddle_table {entries : List (Word × Word)} {k : Nat} (h : k < entries.length) :
    readTwiddle (.table entries) k = entries[k] := by
  simp [readTwiddle, List.getElem?_eq_getElem h]

/-- `TwRead` of the reference ROM inside its domain is the entry of decision D5 (R49). -/
theorem readTwiddle_reference {k : Nat} (h : k < Config.twiddleEntries) :
    readTwiddle .reference k = referenceTwiddle k := if_pos h

/-- The reference entries at the six sample places of decision D5. -/
theorem referenceTwiddle_samples :
    [0, 256, 512, 768, 1024, 2048].map referenceTwiddle =
      [(0x7FFFFFFF, 0x00000000), (0x7641AF3D, 0x30FBC54D), (0x5A82799A, 0x5A82799A),
        (0x30FBC54D, 0x7641AF3D), (0x00000000, 0x7FFFFFFF), (0x80000000, 0x00000000)] := by
  decide +kernel

/-- Settles O57: each base index is below `M/4`, so its triple is below `3*M/4`, where `TwRead` is the ROM's
entry. -/
theorem twiddleIndicesInRange : Obligations.TwiddleIndicesInRange := by
  unfold Obligations.TwiddleIndicesInRange
  refine ⟨fun n _ => ⟨fun p hp => ?_, fun stage _ _ p hp => ?_⟩, fun entries k => readTwiddle_table, ?_⟩
  · exact multiples_in_rom (stage1Places_base_lt hp)
  · exact multiples_in_rom (middlePlaces_base_lt hp)
  · rw [← referenceTwiddle_samples]
    have hdomain : ∀ k ∈ [0, 256, 512, 768, 1024, 2048], k < Config.twiddleEntries := by decide
    exact List.map_congr_left fun k hk => readTwiddle_reference (hdomain k hk)

end Sys2Proof.Machine
end

section
/-! SUPPORT. The rows of the opcode map are told apart by their opcode field, so the decoder's search finds
the row that encodes a word, and where there is none the field alone names the rule that makes the word illegal. -/

namespace Sys2Proof

/-- The opcode field is the low nibble of the word (R72). -/
theorem fieldOpc_eq_and (w : Word) : fieldOpc w = (w &&& 15#32).toNat := by
  rw [BitVec.toNat_and]
  exact (Nat.and_two_pow_sub_one_eq_mod w.toNat 4).symm

/-- Every row's mask fixes the whole opcode field (R76). -/
theorem Opcode.mask_and_nibble (o : Opcode) : o.mask &&& 15#32 = 15#32 := by
  cases o <;> rfl

/-- A word that a row encodes carries the row's own opcode (R76). -/
theorem Opcode.fieldOpc_of_encodes {o : Opcode} {w : Word} (h : o.encodes w = true) :
    fieldOpc w = fieldOpc o.pattern := by
  have hmatch : w &&& o.mask = o.pattern := eq_of_beq h
  rw [fieldOpc_eq_and, fieldOpc_eq_and, ← hmatch, BitVec.and_assoc, o.mask_and_nibble]

/-- The opcodes number the rows of the map from 1, in the map's order (R76). -/
theorem Opcode.all_getElem_fieldOpc (o : Opcode) : Opcode.all[fieldOpc o.pattern - 1]? = some o := by
  cases o <;> rfl

theorem Opcode.mem_all (o : Opcode) : o ∈ Opcode.all := List.mem_of_getElem? o.all_getElem_fieldOpc

/-- The rows use the opcodes 1 to 9 and no other (R76, R78). -/
theorem Opcode.fieldOpc_pattern_range (o : Opcode) : 1 ≤ fieldOpc o.pattern ∧ fieldOpc o.pattern ≤ 9 := by
  cases o <;> decide

theorem Opcode.fieldOpc_range_of_encodes {o : Opcode} {w : Word} (h : o.encodes w = true) :
    1 ≤ fieldOpc w ∧ fieldOpc w ≤ 9 :=
  Opcode.fieldOpc_of_encodes h ▸ o.fieldOpc_pattern_range

/-- At most one row encodes a word: its opcode field is the row's number (R76, R80). -/
theorem Opcode.eq_of_encodes {o o' : Opcode} {w : Word} (h : o.encodes w = true) (h' : o'.encodes w = true) :
    o = o' := by
  have hopc : fieldOpc o.pattern = fieldOpc o'.pattern :=
    (Opcode.fieldOpc_of_encodes h).symm.trans (Opcode.fieldOpc_of_encodes h')
  exact Option.some.inj (by rw [← o.all_getElem_fieldOpc, hopc, o'.all_getElem_fieldOpc])

/-- The decoder's search answers with the row that encodes the word, its operands taken from the word. -/
theorem decode_of_encodes {o : Opcode} {w : Word} (h : o.encodes w = true) : decode w = .ok (o.build w) := by
  have hsome : (Opcode.all.find? (fun x => x.encodes w)).isSome = true :=
    List.find?_isSome.2 ⟨o, o.mem_all, h⟩
  obtain ⟨x, hx⟩ := Option.isSome_iff_exists.1 hsome
  have hxo : x = o := Opcode.eq_of_encodes (List.find?_some (p := (Opcode.encodes · w)) hx) h
  rw [decode, hx, hxo]

/-- Where no row encodes the word, the opcode field alone decides how it is illegal (R77, R78). -/
theorem decode_of_not_encodes {w : Word} (h : ∀ o : Opcode, o.encodes w = false) :
    decode w = if 1 ≤ fieldOpc w ∧ fieldOpc w ≤ 9 then .error .reservedBits else .error .reservedOpcode := by
  have hnone : Opcode.all.find? (fun x => x.encodes w) = none :=
    List.find?_eq_none.2 fun x _ => by simp [h x]
  rw [decode, hnone]

/-- Either a row encodes the word, and its opcode is a defined one, or none does. -/
theorem encodes_or_not (w : Word) :
    (∃ o : Opcode, o.encodes w = true ∧ 1 ≤ fieldOpc w ∧ fieldOpc w ≤ 9)
      ∨ ∀ o : Opcode, o.encodes w = false := by
  by_cases h : ∃ o : Opcode, o.encodes w = true
  · obtain ⟨o, ho⟩ := h
    exact .inl ⟨o, ho, Opcode.fieldOpc_range_of_encodes ho⟩
  · exact .inr fun o => Bool.eq_false_of_not_eq_true fun ho => h ⟨o, ho⟩

/-- Decoding succeeds exactly on the words of the opcode map (R76, R80). -/
theorem decode_ok_iff (w : Word) : (∃ i, decode w = .ok i) ↔ ∃ o : Opcode, o.encodes w = true := by
  refine ⟨fun ⟨i, hi⟩ => ?_, fun ⟨o, ho⟩ => ⟨o.build w, decode_of_encodes ho⟩⟩
  obtain ⟨o, ho, -⟩ | hnone := encodes_or_not w
  · exact ⟨o, ho⟩
  · rw [decode_of_not_encodes hnone] at hi
    split at hi <;> cases hi

/-- The name for an undefined opcode is given exactly to the undefined opcodes (R78). -/
theorem decode_reservedOpcode_iff (w : Word) :
    decode w = .error .reservedOpcode ↔ fieldOpc w = 0 ∨ 10 ≤ fieldOpc w := by
  obtain ⟨o, ho, hlo, hhi⟩ | hnone := encodes_or_not w
  · rw [decode_of_encodes ho]
    exact ⟨nofun, by omega⟩
  · rw [decode_of_not_encodes hnone]
    split
    next hdefined => exact ⟨nofun, by omega⟩
    next hundefined => exact ⟨fun _ => by omega, fun _ => rfl⟩

/-- The name for a reserved bit is given exactly to the words of a defined opcode that no row encodes (R77). -/
theorem decode_reservedBits_iff (w : Word) :
    decode w = .error .reservedBits ↔
      1 ≤ fieldOpc w ∧ fieldOpc w ≤ 9 ∧ ∀ o : Opcode, o.encodes w = false := by
  obtain ⟨o, ho, -⟩ | hnone := encodes_or_not w
  · rw [decode_of_encodes ho]
    exact ⟨nofun, fun ⟨_, _, hnot⟩ => absurd ho (by simp [hnot o])⟩
  · rw [decode_of_not_encodes hnone]
    split
    next hdefined => exact ⟨fun _ => ⟨hdefined.1, hdefined.2, hnone⟩, fun _ => rfl⟩
    next hundefined => exact ⟨nofun, fun ⟨hlo, hhi, _⟩ => absurd ⟨hlo, hhi⟩ hundefined⟩

/-- Settles O13: the opcode field tells the rows apart, and the decoder's search misses a word only where no
row encodes it. -/
theorem everyWordDecodesOrIsIllegal : Obligations.EveryWordDecodesOrIsIllegal := by
  unfold Obligations.EveryWordDecodesOrIsIllegal
  exact fun w => ⟨fun _ _ => Opcode.eq_of_encodes, decode_ok_iff w, decode_reservedOpcode_iff w,
    decode_reservedBits_iff w⟩

end Sys2Proof
end

section
/-! SUPPORT. `wrap32` as a ring homomorphism onto the words: what each fixed-point primitive is on the bits of
its operands and on their signed values (40_fixed_point.md). -/

namespace Sys2Proof.Machine

open Sys2Proof Sys2Proof.Claims

/-! ### The reduction -/

/-- A wrapped integer is read back as its reduction into the signed range (R86). -/
@[simp] theorem s32_wrap32 (v : Int) : s32 (wrap32 v) = narrow v := by
  rw [s32, wrap32, BitVec.toInt_ofInt, Int.bmod_def, narrow]
  split <;> omega

/-- The signed value of a word determines it: wrapping it gives the word back. -/
@[simp] theorem wrap32_s32 (a : Word) : wrap32 (s32 a) = a := BitVec.ofInt_toInt

theorem wrap32_add (u v : Int) : wrap32 (u + v) = wrap32 u + wrap32 v := BitVec.ofInt_add u v

theorem wrap32_mul (u v : Int) : wrap32 (u * v) = wrap32 u * wrap32 v := BitVec.ofInt_mul u v

theorem wrap32_sub (u v : Int) : wrap32 (u - v) = wrap32 u - wrap32 v := by
  have hneg : wrap32 (-v) = -wrap32 v := BitVec.ofInt_neg
  rw [Int.sub_eq_add_neg, wrap32_add, hneg, BitVec.sub_eq_add_neg]

/-- An integer in the signed range is its own reduction. -/
theorem narrow_of_range {v : Int} (hlo : -2147483648 ≤ v) (hhi : v < 2147483648) : narrow v = v := by
  unfold narrow
  omega

/-- The signed value of a word is in the signed range (R13). -/
theorem s32_range (a : Word) : -2147483648 ≤ s32 a ∧ s32 a < 2147483648 := ⟨a.le_toInt, a.toInt_lt⟩

/-- Settles O1: reading a wrapped integer back reduces it, and `narrow` is that reduction. -/
theorem wrapIsReductionModulo2To32 : Obligations.WrapIsReductionModulo2To32 := by
  unfold Obligations.WrapIsReductionModulo2To32
  exact s32_wrap32

/-! ### Addition and subtraction -/

/-- The wrapping add is the two's-complement sum of the words (R87). -/
theorem add32_eq_add (a b : Word) : add32 a b = a + b := by
  rw [add32, wrap32_add, wrap32_s32, wrap32_s32]

/-- The wrapping subtract is the two's-complement difference of the words (R87). -/
theorem sub32_eq_sub (a b : Word) : sub32 a b = a - b := by
  rw [sub32, wrap32_sub, wrap32_s32, wrap32_s32]

@[simp] theorem s32_add32 (a b : Word) : s32 (add32 a b) = narrow (s32 a + s32 b) := s32_wrap32 _

@[simp] theorem s32_sub32 (a b : Word) : s32 (sub32 a b) = narrow (s32 a - s32 b) := s32_wrap32 _

/-- Settles O2: `wrap32` takes sums to sums and differences to differences. -/
theorem addAndSubtractWrap : Obligations.AddAndSubtractWrap := by
  unfold Obligations.AddAndSubtractWrap
  refine ⟨fun a b => ⟨rfl, rfl, s32_add32 a b, s32_sub32 a b, add32_eq_add a b, sub32_eq_sub a b⟩, ?_⟩
  decide

/-! ### Shifts -/

/-- The arithmetic right shift of the word (R88): it replicates the sign bit. -/
theorem asr_eq_sshiftRight (a : Word) (n : Nat) : asr a n = a.sshiftRight n := by
  rw [asr, wrap32, BitVec.sshiftRight_eq, Int.shiftRight_eq_div_pow, Nat.cast_pow, Nat.cast_ofNat]

/-- The right shift rounds toward minus infinity, and its result is always in range (R88). -/
theorem s32_asr (a : Word) (n : Nat) : s32 (asr a n) = (s32 a).fdiv (2 ^ n) := by
  rw [asr_eq_sshiftRight, s32, BitVec.toInt_sshiftRight, Int.shiftRight_eq_div_pow,
    Int.fdiv_eq_ediv_of_nonneg _ (by positivity), Nat.cast_pow, Nat.cast_ofNat]

/-- Settles O3: `asr` is the word's arithmetic shift, whose signed value is the floored quotient. -/
theorem shiftRightFloors : Obligations.ShiftRightFloors := by
  unfold Obligations.ShiftRightFloors
  refine ⟨fun a n => ⟨s32_asr a n, asr_eq_sshiftRight a n⟩, ?_⟩
  decide

/-- Doubling and wrapping multiplies the word by 2, as `wrap32` takes products to products (R89). -/
theorem shl1_eq_two_mul (a : Word) : shl1 a = 2#32 * a := by
  rw [shl1, wrap32_mul, wrap32_s32]
  rfl

/-- Doubling and wrapping shifts the word left by one (R89). -/
theorem shl1_eq_shiftLeft (a : Word) : shl1 a = a <<< 1 := by
  rw [shl1_eq_two_mul]
  exact BitVec.twoPow_mul_eq_shiftLeft a 1

/-- The left shift goes through the wrapping add: multiplication by 2 distributes over it (R89). -/
theorem shl1_add32 (p q : Word) : shl1 (add32 p q) = add32 (shl1 p) (shl1 q) := by
  simp only [shl1_eq_two_mul, add32_eq_add, BitVec.mul_add]

/-- Settles O4: `shl1` is multiplication of the word by 2, so it shifts left and distributes over the add. -/
theorem shiftLeftWraps : Obligations.ShiftLeftWraps := by
  unfold Obligations.ShiftLeftWraps
  exact ⟨fun a => ⟨rfl, shl1_eq_shiftLeft a⟩, shl1_add32, by decide⟩

/-! ### The upper product word -/

/-- The exact product of two words lies in the range of Q2.62, a quarter of the signed 64-bit range (R90). -/
theorem s32_mul_range (a b : Word) : -2 ^ 62 ≤ s32 a * s32 b ∧ s32 a * s32 b ≤ 2 ^ 62 :=
  ⟨BitVec.le_toInt_mul_toInt, BitVec.toInt_mul_toInt_le⟩

/-- The 64-bit product of the sign-extended words is exact: it never overflows (R90). -/
theorem toInt_signExtend_mul (a b : Word) : (a.signExtend 64 * b.signExtend 64).toInt = s32 a * s32 b := by
  obtain ⟨hlo, hhi⟩ := s32_mul_range a b
  rw [BitVec.toInt_mul, BitVec.toInt_signExtend_of_le (by decide), BitVec.toInt_signExtend_of_le (by decide)]
  exact Int.bmod_eq_of_le_mul_two (x := s32 a * s32 b) (by omega) (by omega)

/-- Bits 63:32 of a 64-bit word are the wrapped floor of its signed value over `2^32`: the sign bit of the
wide word weighs a multiple of `2^32` there. -/
theorem extractLsb'_upper_eq_wrap32 (x : BitVec 64) : x.extractLsb' 32 32 = wrap32 (x.toInt / 2 ^ 32) := by
  apply BitVec.eq_of_toNat_eq
  rw [BitVec.extractLsb'_toNat, wrap32, BitVec.toNat_ofInt, Nat.shiftRight_eq_div_pow, BitVec.toInt_eq_toNat_cond]
  split <;> omega

/-- `mulhi` is bits 63:32 of the exact signed product (R90). -/
theorem mulhi_eq_extractLsb' (a b : Word) :
    mulhi a b = (a.signExtend 64 * b.signExtend 64).extractLsb' 32 32 := by
  rw [extractLsb'_upper_eq_wrap32, toInt_signExtend_mul, mulhi]

/-- The floored upper half of a product always fits a word (R90). -/
theorem s32_mulhi (a b : Word) : s32 (mulhi a b) = (s32 a * s32 b).fdiv (2 ^ 32) := by
  obtain ⟨hlo, hhi⟩ := s32_mul_range a b
  rw [mulhi, s32_wrap32, Int.fdiv_eq_ediv_of_nonneg _ (by decide), narrow_of_range] <;> omega

@[simp] theorem mulhi_zero (x : Word) : mulhi x 0#32 = 0#32 := by simp [mulhi, wrap32]

/-- Settles O5: the product lies within `2^62` either way, so it is exact in 64 bits and its floored upper half
fits a word. -/
theorem mulhiIsUpperProductWord : Obligations.MulhiIsUpperProductWord := by
  unfold Obligations.MulhiIsUpperProductWord
  refine ⟨fun a b => ⟨s32_mulhi a b, mulhi_eq_extractLsb' a b, toInt_signExtend_mul a b⟩, ?_, mulhi_zero, ?_⟩ <;>
    decide

end Sys2Proof.Machine
end

section
/-! SUPPORT. The bit-reversed index is an involution, so the swaps of the bit-reversal pass share no sample, and
the pass leaves in each place the sample of the reversed index (R130 to R132). -/

namespace Sys2Proof.Machine

open Sys2Proof

/-! ### The reversed index -/

/-- Bit `t` of `rev_b(i)` is bit `b-1-t` of `i` (R131). -/
theorem testBit_revBits (b i t : Nat) : (revBits b i).testBit t = (decide (t < b) && i.testBit (b - 1 - t)) := by
  induction b generalizing i with
  | zero => simp [revBits]
  | succ b ih =>
    rw [revBits, Nat.mul_comm, Nat.testBit_two_pow_mul_add _ (revBits_lt b (i / 2)), ih, Nat.testBit_div_two]
    by_cases hlow : t < b
    · rw [if_pos hlow, show b - 1 - t + 1 = b + 1 - 1 - t by omega, decide_eq_true hlow,
        decide_eq_true (Nat.lt_succ_of_lt hlow)]
    · rw [if_neg hlow, ← Nat.pow_one 2, Nat.testBit_mod_two_pow]
      obtain rfl | hhigh : t = b ∨ b < t := by omega
      · simp
      · simp [show ¬ t - b < 1 by omega, show ¬ t < b + 1 by omega]

/-- Reversing twice gives the index back (R132). -/
theorem revBits_revBits {b i : Nat} (h : i < 2 ^ b) : revBits b (revBits b i) = i := by
  refine Nat.eq_of_testBit_eq fun t => ?_
  rw [testBit_revBits, testBit_revBits]
  by_cases ht : t < b
  · simp [ht, show b - 1 - t < b by omega, show b - 1 - (b - 1 - t) = t by omega]
  · rw [decide_eq_false ht, Bool.false_and,
      Nat.testBit_lt_two_pow (h.trans_le (Nat.pow_le_pow_right (by decide) (Nat.le_of_not_lt ht)))]

/-- `rev_b` for a buffer of `n` samples, `b = log2 n` (R131). -/
abbrev revIndex (n i : Nat) : Nat := revBits (log2 n) i

theorem revIndex_lt {n : Nat} (hn : supported n = true) (i : Nat) : revIndex n i < n :=
  (revBits_lt _ i).trans_eq (supported_pow hn).symm

theorem revIndex_revIndex {n i : Nat} (hn : supported n = true) (h : i < n) : revIndex n (revIndex n i) = i :=
  revBits_revBits (h.trans_eq (supported_pow hn))

/-! ### The swaps -/

theorem mem_swapPairs {n : Nat} {p : Nat × Nat} :
    p ∈ swapPairs n ↔ p.1 < n ∧ p.2 = revIndex n p.1 ∧ p.1 < p.2 := by
  simp only [swapPairs, List.mem_filter, List.mem_map, List.mem_range, decide_eq_true_eq]
  constructor
  · rintro ⟨⟨i, hi, rfl⟩, hlt⟩
    exact ⟨hi, rfl, hlt⟩
  · rintro ⟨hi, hrev, hlt⟩
    exact ⟨⟨p.1, hi, Prod.ext rfl hrev.symm⟩, hlt⟩

theorem mem_swapped {pairs : List (Nat × Nat)} {i : Nat} :
    i ∈ swapped pairs ↔ ∃ p ∈ pairs, i = p.1 ∨ i = p.2 := by
  simp [swapped]

/-- The samples that take part in a swap are those the reversal moves (R132). -/
theorem mem_swapped_swapPairs {n i : Nat} (hn : supported n = true) :
    i ∈ swapped (swapPairs n) ↔ i < n ∧ revIndex n i ≠ i := by
  rw [mem_swapped]
  constructor
  · rintro ⟨p, hp, hi⟩
    obtain ⟨h1, h2, hlt⟩ := mem_swapPairs.1 hp
    rcases hi with rfl | rfl
    · exact ⟨h1, by omega⟩
    · rw [h2, revIndex_revIndex hn h1]
      exact ⟨revIndex_lt hn _, by omega⟩
  · rintro ⟨hi, hne⟩
    rcases Nat.lt_or_gt_of_ne hne with hlt | hgt
    · refine ⟨(revIndex n i, i), mem_swapPairs.2 ⟨revIndex_lt hn i, ?_, hlt⟩, .inr rfl⟩
      exact (revIndex_revIndex hn hi).symm
    · exact ⟨(i, revIndex n i), mem_swapPairs.2 ⟨hi, rfl, hgt⟩, .inl rfl⟩

/-- Two swaps that share a sample have the same lower sample (R132). -/
theorem swapPairs_fst_eq_of_shared {n i : Nat} (hn : supported n = true) {p q : Nat × Nat} (hp : p ∈ swapPairs n)
    (hq : q ∈ swapPairs n) (hip : i = p.1 ∨ i = p.2) (hiq : i = q.1 ∨ i = q.2) : p.1 = q.1 := by
  obtain ⟨hp1, hp2, hplt⟩ := mem_swapPairs.1 hp
  obtain ⟨hq1, hq2, hqlt⟩ := mem_swapPairs.1 hq
  have hpback := revIndex_revIndex hn hp1
  have hqback := revIndex_revIndex hn hq1
  rw [← hp2] at hpback
  rw [← hq2] at hqback
  rcases hip with rfl | rfl <;> rcases hiq with h | h
  · exact h
  · rw [← h] at hqback
    omega
  · rw [h] at hpback
    omega
  · rw [← hpback, ← hqback, h]

/-- No sample takes part in two swaps (R132). -/
theorem swapped_swapPairs_nodup {n : Nat} (hn : supported n = true) : (swapped (swapPairs n)).Nodup := by
  refine List.nodup_flatMap.2 ⟨fun p hp => ?_, ?_⟩
  · have hlt := (mem_swapPairs.1 hp).2.2
    simpa using Nat.ne_of_lt hlt
  · have hrising : (swapPairs n).Pairwise (fun p q => p.1 < q.1) :=
      List.Pairwise.filter _ (List.pairwise_map.2 List.pairwise_lt_range)
    refine hrising.imp_of_mem fun {p q} hp hq hlt i hip hiq => ?_
    have hsame := swapPairs_fst_eq_of_shared hn hp hq (by simpa using hip) (by simpa using hiq)
    omega

/-! ### The pass -/

/-- A trace event does not change what other engines own (R41). -/
theorem Job.alone_traceEvent {j : Job} {s : State} (h : j.alone s) (ev : TraceEvent) :
    j.alone (s.traceEvent j ev) := fun a hlo hhi =>
  ((State.traceEvent_frame j ev (fun _ => True) s).foreign _ a).trans (h a hlo hhi)

/-- On a buffer of no other engine whose moving samples are written, the bit-reversal pass runs to its end and leaves
in each place the sample of the reversed index; nothing but the memory inside the buffer and the trace changes
(R130 to R132). -/
theorem bitrevBody_alone {j : Job} {s : State} (hn : supported j.n = true) (h : j.alone s)
    (hw : ∀ i, i < j.n → revIndex j.n i ≠ i → (Memory.sample s.mem j.base i).isSome = true) :
    ∃ m, bitrevBody j s = .ok ((s.traceEvent j .br).withMem m)
      ∧ (∀ b, b < 4 * j.base ∨ 4 * (j.base + 2 * j.n) ≤ b → Memory.readByte m b = Memory.readByte s.mem b)
      ∧ ∀ i, i < j.n → Memory.sample m j.base i = Memory.sample s.mem j.base (revIndex j.n i) := by
  obtain ⟨m, hrun, -, hout, hstay, hswap⟩ := runEach_swaps (pairs := swapPairs j.n) (Job.alone_traceEvent h .br)
    (fun i hi => ((mem_swapped_swapPairs hn).1 hi).1) (swapped_swapPairs_nodup hn)
    (fun i hi => hw i ((mem_swapped_swapPairs hn).1 hi).1 ((mem_swapped_swapPairs hn).1 hi).2)
  refine ⟨m, hrun, hout, fun i hi => ?_⟩
  by_cases hfix : revIndex j.n i = i
  · rw [hfix]
    exact hstay i fun hmem => ((mem_swapped_swapPairs hn).1 hmem).2 hfix
  · obtain ⟨p, hp, hpi⟩ := mem_swapped.1 ((mem_swapped_swapPairs hn).2 ⟨hi, hfix⟩)
    obtain ⟨hp1, hp2, -⟩ := mem_swapPairs.1 hp
    obtain ⟨hfst, hsnd⟩ := hswap p hp
    rcases hpi with rfl | rfl
    · rw [← hp2]
      exact hfst
    · rw [hp2, revIndex_revIndex hn hp1, ← hp2]
      exact hsnd

end Sys2Proof.Machine
end

section
/-! SUPPORT. On a written buffer that no other engine owns, what a body makes of the memory depends on nothing but
the memory, the parameters and the job: not on the engine's flags, latched word, status or trace (R16, R45, R46). -/

namespace Sys2Proof.Machine

open Sys2Proof

variable {j : Job} {P : Params}

/-- Every sample of the job's buffer holds a value (R176 f). -/
def Job.full (j : Job) (m : Memory) : Prop := ∀ i, i < j.n → (Memory.sample m j.base i).isSome = true

/-- The state has these parameters and this memory, and no other engine owns a word of the job's buffer. -/
structure Job.On (j : Job) (P : Params) (m : Memory) (s : State) : Prop where
  params : s.params = P
  mem : s.mem = m
  alone : j.alone s

theorem Job.On.withMem {m : Memory} {s : State} (h : j.On P m s) (m' : Memory) : j.On P m' (s.withMem m') :=
  ⟨h.params, rfl, h.alone⟩

/-- From every state with the memory `m` the statement runs to its end and leaves the memory `m'`. -/
def Job.Makes (j : Job) (P : Params) (f : State → Except Fault State) (m m' : Memory) : Prop :=
  ∀ s, j.On P m s → ∃ t, f s = .ok t ∧ j.On P m' t

/-- On a written buffer the statement computes a memory with the buffer still written. -/
def Job.Computes (j : Job) (P : Params) (f : State → Except Fault State) : Prop :=
  ∀ m, j.full m → ∃ m', j.full m' ∧ j.Makes P f m m'

/-! ### Statements put together -/

theorem Job.Makes.andThen {f g : State → Except Fault State} {m m₁ m₂ : Memory} (hf : j.Makes P f m m₁)
    (hg : j.Makes P g m₁ m₂) : j.Makes P (andThen f g) m m₂ := by
  intro s hs
  obtain ⟨t, ht, hont⟩ := hf s hs
  obtain ⟨u, hu, honu⟩ := hg t hont
  exact ⟨u, by simp only [Machine.andThen, ht, hu], honu⟩

/-- The flag `BITREV` of a job is nothing a statement's start or end depends on. -/
theorem Job.Makes.withBitrev {f : State → Except Fault State} {m m' : Memory} (h : j.Makes P f m m') (b : Bool) :
    ({ j with bitrev := b } : Job).Makes P f m m' := by
  intro s hs
  obtain ⟨t, ht, hont⟩ := h s ⟨hs.params, hs.mem, hs.alone⟩
  exact ⟨t, ht, hont.params, hont.mem, hont.alone⟩

theorem Job.Computes.andThen {f g : State → Except Fault State} (hf : j.Computes P f) (hg : j.Computes P g) :
    j.Computes P (andThen f g) := by
  intro m hm
  obtain ⟨m₁, hm₁, h₁⟩ := hf m hm
  obtain ⟨m₂, hm₂, h₂⟩ := hg m₁ hm₁
  exact ⟨m₂, hm₂, h₁.andThen h₂⟩

theorem Job.computes_done : j.Computes P .ok := fun m hm => ⟨m, hm, fun s hs => ⟨s, rfl, hs⟩⟩

theorem Job.Computes.each {α : Type} {f : α → State → Except Fault State} {xs : List α}
    (h : ∀ x ∈ xs, j.Computes P (f x)) : j.Computes P (runEach f xs) := by
  induction xs with
  | nil => exact Job.computes_done
  | cons x xs ih => exact (h x List.mem_cons_self).andThen (ih fun y hy => h y (List.mem_cons_of_mem _ hy))

theorem Job.Computes.afterEvent {f : State → Except Fault State} (h : j.Computes P f) (ev : TraceEvent) :
    j.Computes P (fun s => f (s.traceEvent j ev)) := by
  intro m hm
  obtain ⟨m', hm', hf⟩ := h m hm
  exact ⟨m', hm', fun s hs => hf _ ⟨hs.params, hs.mem, Job.alone_traceEvent hs.alone ev⟩⟩

/-- A statement whose parameter is taken from the parameters of the machine. -/
theorem Job.Computes.ofParams {α : Type} {f : α → State → Except Fault State} (h : ∀ x, j.Computes P (f x))
    (F : Params → α) : j.Computes P (fun s => f (F s.params) s) := by
  intro m hm
  obtain ⟨m', hm', hf⟩ := h (F P) m hm
  exact ⟨m', hm', fun s hs => by simpa only [hs.params] using hf s hs⟩

/-! ### The bodies -/

theorem Job.full_writeSample {m : Memory} (h : j.full m) (i : Nat) (v : Cx) :
    j.full (Memory.writeSample m j.base i v) := by
  intro k hk
  rw [Memory.sample_writeSample]
  split
  · rfl
  · exact h k hk

theorem Job.full_writeQuad {m : Memory} (h : j.full m) (sl : Slots) (v : Quad) :
    j.full (Memory.writeQuad m j.base sl v) := by
  unfold Memory.writeQuad
  exact Job.full_writeSample (Job.full_writeSample (Job.full_writeSample (Job.full_writeSample h _ _) _ _) _ _) _ _

theorem State.butterfly_computes (f : Nat → Quad → Quad) {p : Place} (hi : p.slots.within j.n) :
    j.Computes P (State.butterfly j f p) := by
  intro m hm
  obtain ⟨v, hv⟩ := Memory.quad_of_written hi hm
  refine ⟨_, Job.full_writeQuad hm p.slots (f p.base v), fun s hs => ?_⟩
  obtain rfl := hs.mem
  exact ⟨_, State.butterfly_alone hs.alone hi hv, hs.withMem _⟩

theorem State.swapSamples_computes {p : Nat × Nat} (h1 : p.1 < j.n) (h2 : p.2 < j.n) :
    j.Computes P (State.swapSamples j p) := by
  intro m hm
  obtain ⟨u, hu⟩ := Option.isSome_iff_exists.1 (hm _ h1)
  obtain ⟨v, hv⟩ := Option.isSome_iff_exists.1 (hm _ h2)
  refine ⟨_, Job.full_writeSample (Job.full_writeSample hm p.1 v) p.2 u, fun s hs => ?_⟩
  obtain rfl := hs.mem
  exact ⟨_, State.swapSamples_alone hs.alone h1 h2 hu hv, hs.withMem _⟩

theorem State.pass_computes (ev : TraceEvent) (f : Nat → Quad → Quad) {places : List Place}
    (hi : ∀ p ∈ places, p.slots.within j.n) : j.Computes P (State.pass j ev f places) :=
  (Job.Computes.each fun p hp => State.butterfly_computes f (hi p hp)).afterEvent ev

theorem stage1Body_computes (dir : Dir) : j.Computes P (stage1Body dir j) :=
  Job.Computes.ofParams (fun f => State.pass_computes _ f fun _ => stage1Places_within)
    (fun P => stage1Quad (readTwiddle P.twiddleRom) dir)

theorem middleBody_computes (dir : Dir) {k : Nat} (hn : supported j.n = true) (hk : k ≤ log4 j.n - 2) :
    j.Computes P (middleBody dir k j) :=
  Job.Computes.ofParams (fun f => State.pass_computes _ f fun _ => middlePlaces_within hn hk)
    (fun P => middleQuad (readTwiddle P.twiddleRom) dir)

theorem middleBodies_computes (hn : supported j.n = true) : j.Computes P (middleBodies j) :=
  Job.Computes.each fun k hk => middleBody_computes j.dir hn (by
    have := List.mem_range'_1.1 hk
    omega)

theorem lastBody_computes (dir : Dir) : j.Computes P (lastBody dir j) :=
  Job.Computes.ofParams (fun f => State.pass_computes _ f fun _ => lastPlaces_within)
    (fun P _ => lastQuad P.invLastSat dir)

theorem bitrevBody_computes (hn : supported j.n = true) : j.Computes P (bitrevBody j) :=
  Job.Computes.afterEvent
    (Job.Computes.each fun _ hp => State.swapSamples_computes (swapPairs_within hn hp).1 (swapPairs_within hn hp).2)
    .br

/-- What the bit-reversal pass makes of a written buffer that no other engine owns (R130 to R132). -/
theorem bitrevBody_makes {s : State} {m : Memory} (hn : supported j.n = true) (h : j.alone s) (hm : j.full m) :
    ∃ m', j.full m' ∧ j.Makes s.params (bitrevBody j) m m'
      ∧ (∀ b, b < 4 * j.base ∨ 4 * (j.base + 2 * j.n) ≤ b → Memory.readByte m' b = Memory.readByte m b)
      ∧ ∀ i, i < j.n → Memory.sample m' j.base i = Memory.sample m j.base (revIndex j.n i) := by
  obtain ⟨m', hm', hmakes⟩ := bitrevBody_computes (P := s.params) hn m hm
  obtain ⟨t, ht, hont⟩ := hmakes (s.withMem m) ⟨rfl, rfl, Job.alone_withMem m h⟩
  obtain ⟨r, hr, hlaws⟩ := bitrevBody_alone hn (Job.alone_withMem m h) (fun i hi _ => hm i hi)
  obtain rfl : m' = r := hont.mem ▸ congrArg State.mem (Except.ok.inj (ht.symm.trans hr))
  exact ⟨m', hm', hmakes, hlaws⟩

/-- The passes of `TRANSFORM` before its conditional bit reversal (R142). -/
def transformPasses (j : Job) : State → Except Fault State :=
  andThen (stage1Body j.dir j) (andThen (middleBodies j) (lastBody j.dir j))

theorem andThen_assoc (f g h : State → Except Fault State) :
    andThen f (andThen g h) = andThen (andThen f g) h := by
  funext s
  simp only [andThen]
  cases f s <;> rfl

theorem transformBody_eq (j : Job) : transformBody j = andThen (transformPasses j) (bitrevIfSet j) := by
  unfold transformPasses
  rw [← andThen_assoc, ← andThen_assoc]
  rfl

/-- Without the flag `TRANSFORM` ends with its last stage (R142). -/
theorem transformBody_of_not_bitrev (h : j.bitrev = false) : transformBody j = transformPasses j := by
  rw [transformBody_eq]
  funext s
  simp only [andThen, bitrevIfSet, h, Bool.false_eq_true, if_false]
  cases transformPasses j s <;> rfl

/-- With the flag `TRANSFORM` runs the same passes and ends with the bit-reversal pass (R142). -/
theorem transformBody_withBitrev (j : Job) :
    transformBody { j with bitrev := true } = andThen (transformPasses j) (bitrevBody j) := transformBody_eq _

theorem transformPasses_computes (hn : supported j.n = true) : j.Computes P (transformPasses j) :=
  (stage1Body_computes j.dir).andThen ((middleBodies_computes hn).andThen (lastBody_computes j.dir))

end Sys2Proof.Machine
end

section
/-! SUPPORT. Commands latched and executed one after another on an undisturbed buffer: each meets an undisturbed
buffer again, so the memory passes from one body to the next (R144). -/

namespace Sys2Proof.Machine

open Sys2Proof Sys2Proof.Claims

/-- The latched command `p` with the word of another command (R36). -/
def Pending.withCmd (p : Pending) (i : Instr) : Pending := { p with cmd := encode i }

/-- The active engine latches the word of a command for the buffer of `p` (R36). -/
def State.relatch (p : Pending) (i : Instr) (s : State) : State :=
  s.modifyEngine s.active (fun g => { g with pending := some (p.withCmd i) })

theorem execAll_cons {p : Pending} {i : Instr} {rest : List Instr} {s t : State}
    (h : exec i (s.relatch p i) = .next t) : execAll p (i :: rest) s = execAll p rest t := by
  unfold State.relatch Pending.withCmd at h
  rw [execAll, h]

/-! ### What stays undisturbed -/

/-- Which words are foreign to an engine depends on what the other engines own only (R162). -/
theorem State.foreign_congr {s t : State} {e : Nat} (hparams : t.params = s.params)
    (hothers : ∀ k, k ≠ e → ∀ a, (t.engines[k]?).map (Engine.ownsWord s.params.memWords a)
      = (s.engines[k]?).map (Engine.ownsWord s.params.memWords a)) (a : Nat) :
    t.foreign (some e) a = s.foreign (some e) a := by
  have owner : ∀ u : State, u.params = s.params → (u.foreign (some e) a = true ↔
      ∃ k, k ≠ e ∧ (u.engines[k]?).map (Engine.ownsWord s.params.memWords a) = some true) := by
    intro u hu
    simp only [State.foreign_eq_true, hu, Option.map_eq_some_iff, ne_eq, Option.some.injEq, @eq_comm _ e]
    exact ⟨fun ⟨k, g, hg, hk, ho⟩ => ⟨k, hk, g, hg, ho⟩, fun ⟨k, hk, g, hg, ho⟩ => ⟨k, g, hg, hk, ho⟩⟩
  rw [Bool.eq_iff_iff, owner t hparams, owner s rfl]
  exact exists_congr fun k => and_congr_right fun hk => by rw [hothers k hk]

/-- A change of engine `e` itself makes no word foreign to it. -/
theorem State.foreign_modifyEngine (e a : Nat) (f : Engine → Engine) (s : State) :
    (s.modifyEngine e f).foreign (some e) a = s.foreign (some e) a := by
  refine State.foreign_congr (State.modifyEngine_params ..) (fun k hk _ => ?_) a
  simp [Ne.symm hk]

/-- A completion leaves the other engines what they own (R161). -/
theorem State.foreign_completeOn (lo hi a : Nat) (s : State) :
    (s.completeOn lo hi).foreign (some s.active) a = s.foreign (some s.active) a := by
  refine State.foreign_congr (State.completeOn_params lo hi s) (fun k hk b => ?_) a
  rw [State.completeOn_engine, Option.map_map]
  refine Option.map_congr fun g _ => ?_
  rw [Function.comp_apply, if_neg hk]
  exact Engine.ownsWord_congr rfl rfl rfl _ b

/-- No body changes more than the memory, its own trace and what hazards bring to other engines. -/
theorem bodyOf_frame {i : Instr} {j : Job} {s t : State} (h : bodyOf i j s = .ok t) :
    BodyFrame j.engine (fun _ => True) s t := by
  have everywhere : ∀ k, j.covers (fun _ => True) k := fun _ => ⟨trivial, trivial⟩
  cases i with
  | init =>
    obtain rfl := Except.ok.inj h
    exact BodyFrame.refl _ _ _
  | transform => exact transformBody_frame everywhere h
  | bitrev => exact bitrevBody_frame (fun _ _ => ⟨everywhere _, everywhere _⟩) h
  | _ => exact State.pass_frame (fun _ _ _ _ => everywhere _) h

section Commands

variable {s : State} {g : Engine} {p : Pending} {j : Job}

/-- An undisturbed command has its buffer to itself. -/
theorem State.Undisturbed.on (h : s.Undisturbed g p) : (g.job s.active p).On s.params s.mem s := ⟨rfl, rfl, h.alone⟩

/-- An undisturbed buffer has been written. -/
theorem State.Undisturbed.full (h : s.Undisturbed g p) : (g.job s.active p).full s.mem := by
  intro i hi
  obtain ⟨hre, him⟩ := Job.covers_words hi
  obtain ⟨x, hx⟩ := Option.isSome_iff_exists.1 (h.written _ hre.1 hre.2)
  obtain ⟨y, hy⟩ := Option.isSome_iff_exists.1 (h.written _ him.1 him.2)
  simp [Memory.sample, hx, hy]

/-- An undisturbed command is for a supported length (R28). -/
theorem State.Undisturbed.supported (h : s.Undisturbed g p) : supported (g.job s.active p).n = true := by
  have hd := h.descriptor
  rw [Engine.descriptorOk, if_pos h.valid] at hd
  exact hd.1

/-- Whatever command the active engine latches next for the buffer of `p`, its job is `j` and it runs undisturbed. -/
def State.Serves (s : State) (j : Job) (p : Pending) : Prop :=
  ∀ i, ∃ g, (s.relatch p i).Undisturbed g (p.withCmd i) ∧ g.job s.active p = j

/-- The conditions of an undisturbed command carry over to a later state with the same descriptor, owners and
written words. -/
theorem State.Undisturbed.serves_of_same {t : State} {h : Engine} (hs : s.Undisturbed g p)
    (hengine : t.engines[t.active]? = some h) (hregs : g.sameRegisters h) (hclean : h.spoilt = false)
    (hapart : h.overlaps = []) (hparams : t.params = s.params) (hactive : t.active = s.active)
    (hwritten : ∀ a, t.isWritten a ↔ s.isWritten a)
    (hforeign : ∀ a, t.foreign (some s.active) a = s.foreign (some s.active) a) :
    t.Serves (g.job s.active p) p := by
  obtain ⟨hvalid, hlen, hifft, hbitrev, htwid, hmod, hone, -, -⟩ := hregs
  intro i
  refine ⟨{ h with pending := some (p.withCmd i) }, ?_, ?_⟩
  · have hend : bufferEnd { h with pending := some (p.withCmd i) } (p.withCmd i) = bufferEnd g p := by
      simp only [bufferEnd, hlen, Pending.withCmd]
    exact {
      engine := by simp [State.relatch, hengine]
      pending := rfl
      valid := hvalid.trans hs.valid
      descriptor := by
        simpa only [Engine.descriptorOk, hvalid, hlen, hifft, hbitrev, htwid, hmod, hone] using hs.descriptor
      fits := by
        rw [hend]
        exact hs.fits.trans_eq (congrArg _ hparams.symm)
      written := fun a hlo hhi => (hwritten a).2 (hs.written a hlo (hend ▸ hhi))
      alone := fun a hlo hhi => by
        rw [State.relatch, State.modifyEngine_active, State.foreign_modifyEngine, hactive, hforeign]
        exact hs.alone a hlo (hend ▸ hhi)
      clean := hclean
      apart := hapart }
  · simp only [Engine.job, hactive, hlen, hifft, hbitrev, htwid]

theorem State.Undisturbed.serves (h : s.Undisturbed g p) : s.Serves (g.job s.active p) p :=
  h.serves_of_same h.engine g.sameRegisters_refl h.clean h.apart rfl rfl (fun _ => .rfl) fun _ => rfl

/-- A command on an undisturbed buffer completes with the memory its body makes, and the next command finds the
buffer undisturbed again (R151, R155). -/
theorem State.Undisturbed.exec_makes {i : Instr} {m : Memory} (h : s.Undisturbed g p)
    (htouches : i.touchesBuffer = true) (hstage : stageOk i g)
    (hmakes : (g.job s.active p).Makes s.params (bodyOf i (g.job s.active p)) s.mem m) :
    ∃ t, exec i s = .next t ∧ t.mem = m ∧ t.params = s.params ∧ t.Serves (g.job s.active p) p := by
  obtain ⟨u, hu, honu⟩ := hmakes s h.on
  have hframe := bodyOf_frame hu
  obtain ⟨k, hk, hkept⟩ := hframe.engines s.active g h.engine
  have hquiet := hkept.quiet (beq_self_eq_true _)
  have hsettled := State.settle_clean (s := u) (by rw [hframe.active]; exact hk) (hquiet.2.trans h.clean)
    (hkept.overlaps.trans h.apart) p.base.toNat (bufferEnd g p)
  have hmem : (u.completeOn p.base.toNat (bufferEnd g p)).mem = u.mem := by rw [State.completeOn_mem, hsettled]
  have hcheck := Engine.bufferCheck_ok.2 ⟨h.valid, hstage, h.fits⟩
  refine ⟨u.completeOn p.base.toNat (bufferEnd g p), ?_, hmem.trans honu.mem,
    (State.completeOn_params _ _ u).trans honu.params, ?_⟩
  · rw [exec_eq_runBuffer htouches]
    exact State.runBuffer_completes h.toLatched hcheck hu
  · refine h.serves_of_same (h := k.finish .ok) ?_ hkept.registers rfl rfl
      ((State.completeOn_params _ _ u).trans hframe.params) ((State.completeOn_active _ _ u).trans hframe.active)
      (fun a => ?_) fun a => ?_
    · rw [State.completeOn_active, State.completeOn_engine, hframe.active, hk, Option.map_some, if_pos rfl]
    · exact (State.isWritten_of_mem hmem a).trans ((bodyOf_accesses i _).keeps s u hu a)
    · rw [← hframe.active, State.foreign_completeOn, hframe.active]
      exact hframe.foreign _ a

/-- The memory passed from body to body. -/
def Job.MakesAll (j : Job) (P : Params) : List Instr → Memory → Memory → Prop
  | [], m, m' => m' = m
  | i :: rest, m, m' => ∃ m₁, j.Makes P (bodyOf i j) m m₁ ∧ j.MakesAll P rest m₁ m'

/-- Commands one after another leave the memory that their bodies make (R144). -/
theorem State.Serves.execAll_makes {is : List Instr} {m : Memory} (h : s.Serves j p)
    (hok : ∀ i ∈ is, i.touchesBuffer = true ∧ ∀ k, i.stageOperand = some k → 1 ≤ k ∧ k ≤ log4 j.n - 2)
    (hmakes : j.MakesAll s.params is s.mem m) : ∃ t, execAll p is s = .next t ∧ t.mem = m := by
  induction is generalizing s with
  | nil => exact ⟨s, rfl, hmakes.symm⟩
  | cons i rest ih =>
    obtain ⟨m₁, hfirst, hrest⟩ := hmakes
    obtain ⟨g, hg, rfl⟩ := h i
    obtain ⟨htouches, hstage⟩ := hok i List.mem_cons_self
    obtain ⟨t, ht, rfl, hparams, hserves⟩ := hg.exec_makes htouches hstage hfirst
    rw [execAll_cons ht]
    exact ih hserves (fun k hk => hok k (List.mem_cons_of_mem _ hk)) (hparams ▸ hrest)

end Commands

end Sys2Proof.Machine
end

section
/-! PROOF. Two statements about the bit-reversal pass (44_bitrev.md): twice it restores the memory (O33), and as the
last phase of `TRANSFORM` it does what the command does after it (O34). -/

namespace Sys2Proof.Machine

open Sys2Proof Sys2Proof.Claims

/-- A written sample is its two words. -/
theorem Memory.readWord_of_sample {m : Memory} {base i : Nat} {v : Cx} (h : Memory.sample m base i = some v) :
    Memory.readWord m (reAddr base i) = some v.re ∧ Memory.readWord m (imAddr base i) = some v.im := by
  unfold Memory.sample at h
  split at h
  next x y hx hy =>
    obtain rfl := Option.some.inj h
    exact ⟨hx, hy⟩
  next => cases h

/-- Memories that hold the same value in a word read the same at its bytes (R52). -/
theorem Memory.readByte_eq_of_readWord {m m' : Memory} {a b : Nat} {v : Word} (h : Memory.readWord m a = some v)
    (h' : Memory.readWord m' a = some v) (hb : b / 4 = a) : Memory.readByte m' b = Memory.readByte m b := by
  have hlane : b % 4 < 4 := Nat.mod_lt b (by decide)
  rw [show b = 4 * a + b % 4 by omega, Memory.readByte_of_readWord h hlane, Memory.readByte_of_readWord h' hlane]

/-- Memories that agree outside a written buffer and on its samples agree at every byte. -/
theorem Memory.readByte_eq_of_samples {m m' : Memory} {j : Job} (hfull : j.full m)
    (hout : ∀ b, b < 4 * j.base ∨ 4 * (j.base + 2 * j.n) ≤ b → Memory.readByte m' b = Memory.readByte m b)
    (hsamples : ∀ i, i < j.n → Memory.sample m' j.base i = Memory.sample m j.base i) (b : Nat) :
    Memory.readByte m' b = Memory.readByte m b := by
  by_cases hb : b < 4 * j.base ∨ 4 * (j.base + 2 * j.n) ≤ b
  · exact hout b hb
  · have hi : (b / 4 - j.base) / 2 < j.n := by omega
    obtain ⟨v, hv⟩ := Option.isSome_iff_exists.1 (hfull _ hi)
    obtain ⟨hre, him⟩ := Memory.readWord_of_sample hv
    obtain ⟨hre', him'⟩ := Memory.readWord_of_sample ((hsamples _ hi).trans hv)
    obtain hword | hword : b / 4 = reAddr j.base ((b / 4 - j.base) / 2)
        ∨ b / 4 = imAddr j.base ((b / 4 - j.base) / 2) := by
      unfold reAddr imAddr
      omega
    · exact Memory.readByte_eq_of_readWord hre hre' hword
    · exact Memory.readByte_eq_of_readWord him him' hword

/-- Settles O33: the second pass reverses the index again, which brings every sample back, and no byte outside the
buffer is written. -/
theorem bitrevTwiceRestoresTheBuffer : Obligations.BitrevTwiceRestoresTheBuffer := by
  unfold Obligations.BitrevTwiceRestoresTheBuffer
  intro s g p h
  obtain ⟨m₁, hfull, hmakes₁, hout₁, hrev₁⟩ := bitrevBody_makes h.supported h.on.alone h.full
  obtain ⟨m₂, -, hmakes₂, hout₂, hrev₂⟩ := bitrevBody_makes h.supported h.on.alone hfull
  obtain ⟨u, hu, rfl⟩ := h.serves.execAll_makes (is := [.bitrev, .bitrev])
    (by simp [Instr.touchesBuffer, Instr.stageOperand]) ⟨m₁, hmakes₁, m₂, hmakes₂, rfl⟩
  refine ⟨u, hu, Memory.readByte_eq_of_samples h.full (fun b hb => (hout₂ b hb).trans (hout₁ b hb)) fun i hi => ?_⟩
  rw [hrev₂ i hi, hrev₁ _ (revIndex_lt h.supported i), revIndex_revIndex h.supported hi]

/-- Setting the flag `BITREV` of an undisturbed command's descriptor leaves it undisturbed. -/
theorem State.Undisturbed.withBitrev {s : State} {g : Engine} {p : Pending} (h : s.Undisturbed g p) :
    (s.modifyEngine s.active (fun g => { g with bitrev := true })).Undisturbed { g with bitrev := true } p where
  engine := by simp [h.engine]
  pending := h.pending
  valid := h.valid
  descriptor := by simpa only [Engine.descriptorOk, h.valid, if_true] using h.descriptor
  fits := h.fits
  written := h.written
  alone := fun a hlo hhi => (State.foreign_modifyEngine _ a _ s).trans (h.alone a hlo hhi)
  clean := h.clean
  apart := h.apart

/-- Settles O34: with the flag on, the same passes are followed by the same bit-reversal pass that the command runs
after `TRANSFORM` with the flag off. -/
theorem bitrevFlagPermutesTheOutput : Obligations.BitrevFlagPermutesTheOutput := by
  unfold Obligations.BitrevFlagPermutesTheOutput
  intro s g p h hflag
  obtain ⟨m₁, hfull, hpasses⟩ := transformPasses_computes (P := s.params) h.supported s.mem h.full
  obtain ⟨m₂, -, hbitrev, -, hrev⟩ := bitrevBody_makes h.supported h.on.alone hfull
  have hoff : (g.job s.active p).Makes s.params (transformBody (g.job s.active p)) s.mem m₁ := by
    rwa [transformBody_of_not_bitrev hflag]
  have hon : ({ g.job s.active p with bitrev := true } : Job).Makes s.params
      (transformBody { g.job s.active p with bitrev := true }) s.mem m₂ := by
    rw [transformBody_withBitrev]
    exact (hpasses.andThen hbitrev).withBitrev true
  obtain ⟨w, hw, hwmem⟩ := h.serves.execAll_makes (is := [.transform, .bitrev])
    (by simp [Instr.touchesBuffer, Instr.stageOperand]) ⟨m₁, hoff, m₂, hbitrev, rfl⟩
  obtain ⟨t, ht, rfl, -, -⟩ := h.exec_makes (i := .transform) rfl nofun hoff
  obtain ⟨u, hu, rfl, -, -⟩ := h.withBitrev.exec_makes (i := .transform) rfl nofun hon
  exact ⟨t, u, w, ht, hu, hw, hwmem.symm, hrev⟩

end Sys2Proof.Machine
end

section
/-! SUPPORT. On an undisturbed buffer a body appends its events to its own trace whatever that trace held before (R41),
and `TRANSFORM` is the bodies of its component commands one after another (R142, R144). -/

namespace Sys2Proof.Machine

open Sys2Proof Sys2Proof.Claims

/-! ### The events of a body -/

section Logs

variable {j : Job}

/-- The trace of the job's engine, where there is one. -/
def Job.traceIn (j : Job) (s : State) : Option (List TraceEvent) := (s.engines[j.engine]?).map Engine.trace

/-- On a written buffer that no other engine owns, the statement appends these events to the engine's trace. -/
def Job.Logs (j : Job) (evs : List TraceEvent) (f : State → Except Fault State) : Prop :=
  ∀ s t, j.alone s → j.full s.mem → f s = .ok t → j.traceIn t = (j.traceIn s).map (· ++ evs)

theorem Job.traceIn_traceEvent (j : Job) (ev : TraceEvent) (s : State) :
    j.traceIn (s.traceEvent j ev) = (j.traceIn s).map (· ++ [ev]) := by
  simp [Job.traceIn, Function.comp_def]

theorem Job.traceIn_completeOn (j : Job) (lo hi : Nat) (s : State) : j.traceIn (s.completeOn lo hi) = j.traceIn s := by
  unfold Job.traceIn
  rw [State.completeOn_engine, Option.map_map]
  refine Option.map_congr fun g _ => ?_
  rw [Function.comp_apply]
  split <;> rfl

theorem Job.traceIn_relatch (j : Job) (p : Pending) (i : Instr) (s : State) :
    j.traceIn (s.relatch p i) = j.traceIn s := by
  unfold Job.traceIn State.relatch
  rw [State.modifyEngine_engines, List.getElem?_modify, Option.map_eq_map, Option.map_map]
  refine Option.map_congr fun g _ => ?_
  rw [Function.comp_apply]
  split <;> rfl

theorem Job.logs_done : j.Logs [] .ok := by
  intro s t _ _ ht
  obtain rfl := Except.ok.inj ht
  simp

/-- Each statement of a list meets a written buffer again, so their events follow one another. -/
theorem Job.Logs.each {α : Type} {E : α → List TraceEvent} {f : α → State → Except Fault State} {xs : List α}
    (hcomputes : ∀ x ∈ xs, ∀ P, j.Computes P (f x)) (hlogs : ∀ x ∈ xs, j.Logs (E x) (f x)) :
    j.Logs (xs.flatMap E) (runEach f xs) := by
  induction xs with
  | nil => exact Job.logs_done
  | cons x xs ih =>
    intro s t hs hm ht
    obtain ⟨m, hfull, hmakes⟩ := hcomputes x List.mem_cons_self s.params s.mem hm
    obtain ⟨u, hu, hon⟩ := hmakes s ⟨rfl, rfl, hs⟩
    obtain rfl := hon.mem
    rw [runEach_cons, hu] at ht
    rw [ih (fun y hy => hcomputes y (List.mem_cons_of_mem _ hy)) (fun y hy => hlogs y (List.mem_cons_of_mem _ hy))
        u t hon.alone hfull ht, hlogs x List.mem_cons_self s u hs hm hu, Option.map_map, List.flatMap_cons]
    simp only [Function.comp_def, List.append_assoc]

/-- Statements without an event of their own. -/
theorem Job.Logs.eachSilent {α : Type} {f : α → State → Except Fault State} {xs : List α}
    (hcomputes : ∀ x ∈ xs, ∀ P, j.Computes P (f x)) (hlogs : ∀ x ∈ xs, j.Logs [] (f x)) :
    j.Logs [] (runEach f xs) := by
  have hnone : xs.flatMap (fun _ => ([] : List TraceEvent)) = [] := List.flatMap_eq_nil_iff.2 fun _ _ => rfl
  exact hnone ▸ Job.Logs.each hcomputes hlogs

theorem Job.Logs.afterEvent {f : State → Except Fault State} (h : j.Logs [] f) (ev : TraceEvent) :
    j.Logs [ev] (fun s => f (s.traceEvent j ev)) := by
  intro s t hs hm ht
  rw [h _ t (Job.alone_traceEvent hs ev) hm ht, Job.traceIn_traceEvent]
  simp [Function.comp_def]

theorem State.butterfly_logs (f : Nat → Quad → Quad) {p : Place} (hi : p.slots.within j.n) :
    j.Logs [] (State.butterfly j f p) := by
  intro s t hs hm ht
  obtain ⟨v, hv⟩ := Memory.quad_of_written hi hm
  obtain rfl := Except.ok.inj ((State.butterfly_alone hs hi hv).symm.trans ht)
  simp [Job.traceIn, Function.comp_def]

theorem State.swapSamples_logs {p : Nat × Nat} (h1 : p.1 < j.n) (h2 : p.2 < j.n) :
    j.Logs [] (State.swapSamples j p) := by
  intro s t hs hm ht
  obtain ⟨u, hu⟩ := Option.isSome_iff_exists.1 (hm _ h1)
  obtain ⟨v, hv⟩ := Option.isSome_iff_exists.1 (hm _ h2)
  obtain rfl := Except.ok.inj ((State.swapSamples_alone hs h1 h2 hu hv).symm.trans ht)
  simp [Job.traceIn, Function.comp_def]

/-- A pass appends its stage-entry event (R41). -/
theorem State.pass_logs (ev : TraceEvent) (f : Nat → Quad → Quad) {places : List Place}
    (hi : ∀ p ∈ places, p.slots.within j.n) : j.Logs [ev] (State.pass j ev f places) :=
  (Job.Logs.eachSilent (fun p hp _ => State.butterfly_computes f (hi p hp))
    fun p hp => State.butterfly_logs f (hi p hp)).afterEvent ev

theorem bitrevBody_logs (hn : supported j.n = true) : j.Logs [.br] (bitrevBody j) :=
  (Job.Logs.eachSilent
    (fun _ hp _ => State.swapSamples_computes (swapPairs_within hn hp).1 (swapPairs_within hn hp).2)
    fun _ hp => State.swapSamples_logs (swapPairs_within hn hp).1 (swapPairs_within hn hp).2).afterEvent .br

/-- The events of a command with a single pass (R41, R143). -/
def Job.passEvents (j : Job) : Instr → List TraceEvent
  | .init _ _ => []
  | .transform => []
  | .stage1Fwd => [.s1 .fwd (modifierAt j.twidMod 0)]
  | .stage1Inv => [.s1 .inv (modifierAt j.twidMod 0)]
  | .middleFwd k => [.mid .fwd k (modifierAt j.twidMod k)]
  | .middleInv k => [.mid .inv k (modifierAt j.twidMod k)]
  | .lastFwd => [.last .fwd]
  | .lastInv => [.last .inv]
  | .bitrev => [.br]

variable {i : Instr}

theorem stage1Body_logs (dir : Dir) : j.Logs [.s1 dir (modifierAt j.twidMod 0)] (stage1Body dir j) := fun s =>
  State.pass_logs _ _ (fun _ => stage1Places_within) s

theorem middleBody_logs (dir : Dir) {k : Nat} (hn : supported j.n = true) (hk : k ≤ log4 j.n - 2) :
    j.Logs [.mid dir k (modifierAt j.twidMod k)] (middleBody dir k j) := fun s =>
  State.pass_logs _ _ (fun _ => middlePlaces_within hn hk) s

theorem lastBody_logs (dir : Dir) : j.Logs [.last dir] (lastBody dir j) := fun s =>
  State.pass_logs _ _ (fun _ => lastPlaces_within) s

/-- Each command with a single pass logs the events of that pass. -/
theorem bodyOf_logs (hn : supported j.n = true) (hi : i ≠ .transform)
    (hstage : ∀ k, i.stageOperand = some k → 1 ≤ k ∧ k ≤ log4 j.n - 2) : j.Logs (j.passEvents i) (bodyOf i j) := by
  cases i with
  | init => exact Job.logs_done
  | transform => exact absurd rfl hi
  | stage1Fwd => exact stage1Body_logs .fwd
  | stage1Inv => exact stage1Body_logs .inv
  | middleFwd k => exact middleBody_logs .fwd hn (hstage k rfl).2
  | middleInv k => exact middleBody_logs .inv hn (hstage k rfl).2
  | lastFwd => exact lastBody_logs .fwd
  | lastInv => exact lastBody_logs .inv
  | bitrev => exact bitrevBody_logs hn

/-- Each command with a single pass computes a memory from a written buffer. -/
theorem bodyOf_computes {P : Params} (hn : supported j.n = true) (hi : i ≠ .transform)
    (hstage : ∀ k, i.stageOperand = some k → 1 ≤ k ∧ k ≤ log4 j.n - 2) : j.Computes P (bodyOf i j) := by
  cases i with
  | init => exact Job.computes_done
  | transform => exact absurd rfl hi
  | stage1Fwd => exact stage1Body_computes .fwd
  | stage1Inv => exact stage1Body_computes .inv
  | middleFwd k => exact middleBody_computes .fwd hn (hstage k rfl).2
  | middleInv k => exact middleBody_computes .inv hn (hstage k rfl).2
  | lastFwd => exact lastBody_computes .fwd
  | lastInv => exact lastBody_computes .inv
  | bitrev => exact bitrevBody_computes hn

end Logs

/-! ### The events of commands -/

section Commands

variable {s t : State} {g : Engine} {p : Pending} {j : Job}

/-- A command on an undisturbed buffer appends the events of its body; its completion appends none (R151). -/
theorem State.Undisturbed.exec_logs {i : Instr} {evs : List TraceEvent} (h : s.Undisturbed g p)
    (htouches : i.touchesBuffer = true) (hstage : stageOk i g)
    (hlogs : (g.job s.active p).Logs evs (bodyOf i (g.job s.active p))) (ht : exec i s = .next t) :
    (g.job s.active p).traceIn t = ((g.job s.active p).traceIn s).map (· ++ evs) := by
  obtain ⟨g', p', hl, hcase⟩ := State.runBuffer_next ((exec_eq_runBuffer htouches s).symm.trans ht)
  obtain rfl := Option.some.inj (h.engine.symm.trans hl.engine)
  obtain rfl := Option.some.inj (h.pending.symm.trans hl.pending)
  rcases hcase with ⟨hfails, -⟩ | ⟨-, u, hu, rfl⟩
  · exact absurd (Engine.bufferCheck_ok.2 ⟨h.valid, hstage, h.fits⟩) hfails
  · rw [Job.traceIn_completeOn, hlogs s u h.on.alone h.full hu]

/-- Commands one after another append the events of their bodies in order (R144). -/
theorem State.Serves.execAll_logs {E : Instr → List TraceEvent} {is : List Instr} {m : Memory} (h : s.Serves j p)
    (hok : ∀ i ∈ is, i.touchesBuffer = true ∧ ∀ k, i.stageOperand = some k → 1 ≤ k ∧ k ≤ log4 j.n - 2)
    (hmakes : j.MakesAll s.params is s.mem m) (hlogs : ∀ i ∈ is, j.Logs (E i) (bodyOf i j))
    (ht : execAll p is s = .next t) : j.traceIn t = (j.traceIn s).map (· ++ is.flatMap E) := by
  induction is generalizing s with
  | nil =>
    injection ht with ht
    simp [ht]
  | cons i rest ih =>
    obtain ⟨m₁, hfirst, hrest⟩ := hmakes
    obtain ⟨g, hg, rfl⟩ := h i
    obtain ⟨htouches, hstage⟩ := hok i List.mem_cons_self
    obtain ⟨u, hu, rfl, hparams, hserves⟩ := hg.exec_makes htouches hstage hfirst
    have hlog : (g.job s.active p).traceIn u = ((g.job s.active p).traceIn s).map (· ++ E i) :=
      (hg.exec_logs htouches hstage (hlogs i List.mem_cons_self) hu).trans
        (congrArg _ (Job.traceIn_relatch _ p i s))
    rw [execAll_cons hu] at ht
    rw [ih hserves (fun k hk => hok k (List.mem_cons_of_mem _ hk)) (hparams ▸ hrest)
        (fun k hk => hlogs k (List.mem_cons_of_mem _ hk)) ht, hlog, Option.map_map, List.flatMap_cons]
    simp only [Function.comp_def, List.append_assoc]

/-- Bodies that compute one after another pass the memory from each to the next. -/
theorem Job.makesAll_of_computes {P : Params} {is : List Instr} (h : ∀ i ∈ is, j.Computes P (bodyOf i j))
    {m : Memory} (hm : j.full m) :
    ∃ m', j.MakesAll P is m m' ∧ j.Makes P (runEach (fun i => bodyOf i j) is) m m' := by
  induction is generalizing m with
  | nil => exact ⟨m, rfl, fun s hs => ⟨s, rfl, hs⟩⟩
  | cons i is ih =>
    obtain ⟨m₁, hfull, hfirst⟩ := h i List.mem_cons_self m hm
    obtain ⟨m₂, hall, hrest⟩ := ih (fun k hk => h k (List.mem_cons_of_mem _ hk)) hfull
    exact ⟨m₂, ⟨m₁, hfirst, hall⟩, hfirst.andThen hrest⟩

/-! ### The components of `TRANSFORM` -/

theorem runEach_append_eq_andThen {α : Type} (f : α → State → Except Fault State) (xs ys : List α) :
    runEach f (xs ++ ys) = andThen (runEach f xs) (runEach f ys) := funext (runEach_append f xs ys)

theorem runEach_singleton {α : Type} (f : α → State → Except Fault State) (x : α) : runEach f [x] = f x := by
  funext s
  rw [runEach_cons]
  cases f x s <;> rfl

theorem runEach_map {α β : Type} (f : β → State → Except Fault State) (F : α → β) (xs : List α) :
    runEach f (xs.map F) = runEach (fun x => f (F x)) xs := by
  induction xs with
  | nil => rfl
  | cons x xs ih =>
    funext s
    rw [List.map_cons, runEach_cons, runEach_cons, ih]

/-- The direction that the flag `IFFT` selects (R142). -/
def Engine.dir (g : Engine) : Dir := if g.ifft then .inv else .fwd

theorem Engine.job_dir (e : Nat) (p : Pending) (g : Engine) : (g.job e p).dir = g.dir := rfl

/-- The component commands, their direction said once (R144). -/
theorem componentCommands_eq (g : Engine) :
    componentCommands g = [stage1Of g.dir] ++ (List.range' 1 (log4 g.fftLen.toNat - 2)).map (middleOf g.dir)
      ++ [lastOf g.dir] ++ (if g.bitrev then [.bitrev] else []) := by
  unfold componentCommands Engine.dir
  cases g.ifft <;> rfl

@[simp] theorem bodyOf_stage1Of (dir : Dir) : bodyOf (stage1Of dir) = stage1Body dir := by cases dir <;> rfl

@[simp] theorem bodyOf_middleOf (dir : Dir) (k : Nat) : bodyOf (middleOf dir k) = middleBody dir k := by
  cases dir <;> rfl

@[simp] theorem bodyOf_lastOf (dir : Dir) : bodyOf (lastOf dir) = lastBody dir := by cases dir <;> rfl

@[simp] theorem stageOperand_middleOf (dir : Dir) (k : Nat) : (middleOf dir k).stageOperand = some k := by
  cases dir <;> rfl

/-- `TRANSFORM` runs the bodies of its component commands one after another (R142, R144). -/
theorem transformBody_eq_components (g : Engine) (e : Nat) (p : Pending) :
    transformBody (g.job e p) = runEach (fun i => bodyOf i (g.job e p)) (componentCommands g) := by
  have hbitrev : runEach (fun i => bodyOf i (g.job e p)) (if g.bitrev then [.bitrev] else [])
      = bitrevIfSet (g.job e p) := by
    unfold bitrevIfSet Engine.job
    cases g.bitrev with
    | true => exact runEach_singleton _ _
    | false => rfl
  rw [componentCommands_eq, runEach_append_eq_andThen, runEach_append_eq_andThen, runEach_append_eq_andThen,
    runEach_singleton, runEach_singleton, runEach_map, hbitrev, ← andThen_assoc, ← andThen_assoc]
  simp only [bodyOf_stage1Of, bodyOf_middleOf, bodyOf_lastOf, ← Engine.job_dir e p g]
  rfl

/-- Each component of `TRANSFORM` is a single pass with a legal stage (R142). -/
theorem componentCommands_legal {i : Instr} (hi : i ∈ componentCommands g) :
    i ≠ .transform ∧ i.touchesBuffer = true ∧ stageOk i g := by
  rw [componentCommands_eq] at hi
  simp only [List.mem_append, List.mem_singleton, List.mem_map, List.mem_range'_1] at hi
  rcases hi with ((rfl | ⟨k, hk, rfl⟩) | rfl) | hi
  · cases g.dir <;> exact ⟨nofun, rfl, nofun⟩
  · have hstage : stageOk (middleOf g.dir k) g := fun n hn => by
      rw [stageOperand_middleOf] at hn
      obtain rfl := Option.some.inj hn
      omega
    exact ⟨by cases g.dir <;> nofun, by cases g.dir <;> rfl, hstage⟩
  · cases g.dir <;> exact ⟨nofun, rfl, nofun⟩
  · split at hi
    · obtain rfl := List.mem_singleton.1 hi
      exact ⟨nofun, rfl, nofun⟩
    · cases hi

end Commands

end Sys2Proof.Machine
end

section
/-! PROOF. The dispatcher (45_dispatch.md): `INIT` of an unsupported length and which lengths those are (O19), the
descriptors of the supported ones (O20), and `TRANSFORM` as its component commands (O30). -/

namespace Sys2Proof.Machine

open Sys2Proof Sys2Proof.Claims

section Init

variable {s : State} {g : Engine} {p : Pending}

/-- `INIT` of a supported length describes the transform and completes with `OK` (R138). -/
theorem exec_init_supported (h : s.Latched g p) (hreq : supported p.req.toNat = true) (ifft bitrev : Bool) :
    exec (.init ifft bitrev) s = .next ((s.modifyEngine s.active (Engine.describe p.req ifft bitrev)).raise .ok) := by
  simp only [exec, execInit, State.latched_eq_some.2 h, hreq, if_true]

/-- `INIT` of an unsupported length clears the descriptor and completes with its code (R139). -/
theorem exec_init_unsupported (h : s.Latched g p) (hreq : supported p.req.toNat = false) (ifft bitrev : Bool) :
    exec (.init ifft bitrev) s = .next ((s.modifyEngine s.active Engine.undescribe).raise .unsupportedLength) := by
  simp only [exec, execInit, State.latched_eq_some.2 h, hreq, Bool.false_eq_true, if_false]

/-- A change of the active engine and its completion are one update of that engine. -/
theorem State.raise_modifyEngine (r : ResultCode) (f : Engine → Engine) (s : State) :
    (s.modifyEngine s.active f).raise r =
      { s with engines := s.engines.modify s.active (fun g => (f g).finish r) } := by
  unfold State.raise State.modifyEngine
  simp [List.modify_modify_eq, Function.comp_def]

end Init

/-- A supported length is a power of 4 of at most 4096 (R9). -/
theorem supported_is_pow {n : Nat} (h : supported n = true) : n ≤ 4096 ∧ ∃ l, n = 4 ^ l := by
  rcases supported_cases h with rfl | rfl | rfl | rfl | rfl
  exacts [⟨by decide, 2, rfl⟩, ⟨by decide, 3, rfl⟩, ⟨by decide, 4, rfl⟩, ⟨by decide, 5, rfl⟩, ⟨by decide, 6, rfl⟩]

/-- Settles O19: the cleared descriptor and the failed completion are one update of the active engine, and a supported
length is a power of 4 up to 4096. -/
theorem initOfUnsupportedLength : Obligations.InitOfUnsupportedLength := by
  unfold Obligations.InitOfUnsupportedLength
  refine ⟨fun s g p ifft bitrev h hreq => ?_, by decide, fun n hn => ?_, fun l hl => ?_⟩
  · rw [exec_init_unsupported h hreq, State.raise_modifyEngine]
    have hfailed : (ResultCode.unsupportedLength != .ok) = true := rfl
    simp [Engine.undescribe, Engine.finish, hfailed]
  · refine Bool.eq_false_iff.2 fun hs => ?_
    obtain ⟨-, l, hpow⟩ := supported_is_pow hs
    exact hn l hpow
  · exact Bool.eq_false_iff.2 fun hs => absurd (supported_is_pow hs).1 (Nat.not_le.2 hl)

/-- Settles O20: the row's length is supported, and the values `INIT` writes are computed for each row. -/
theorem initDescriptorTable : Obligations.InitDescriptorTable := by
  unfold Obligations.InitDescriptorTable
  intro row hrow s g p ifft bitrev h hreq
  have hvalues : supported row.1 = true ∧ log4 row.1 = row.2.1
      ∧ (List.range' 1 (log4 row.1 - 2)).length = row.2.2.1
      ∧ (BitVec.ofNat 32 (4096 / row.1)).toNat = row.2.2.2.1
      ∧ (BitVec.ofNat 32 (4096 / row.1)).toNat = row.2.2.2.2.1
      ∧ (BitVec.ofNat 32 (2 ^ 31 / row.1)).toNat = row.2.2.2.2.2 := by
    clear hreq
    revert row
    decide
  rw [← hreq] at hvalues ⊢
  obtain ⟨hsupported, hlog, hstages, htwid, hmod, hone⟩ := hvalues
  refine ⟨_, (g.describe p.req ifft bitrev).finish .ok, exec_init_supported h hsupported ifft bitrev, ?_, rfl, hlog,
    hstages, htwid, hmod, hone⟩
  simp [h.engine]

/-- Settles O30: the body of `TRANSFORM` is the bodies of its components one after another, and the completions and
latches between the commands change neither the memory nor the trace. -/
theorem transformEqualsItsComponents : Obligations.TransformEqualsItsComponents := by
  unfold Obligations.TransformEqualsItsComponents
  intro s g p h
  have hcomputes : ∀ i ∈ componentCommands g, ∀ P, (g.job s.active p).Computes P (bodyOf i (g.job s.active p)) :=
    fun i hi P =>
      let ⟨hsingle, _, hstage⟩ := componentCommands_legal hi
      bodyOf_computes h.supported hsingle hstage
  have hlogs : ∀ i ∈ componentCommands g,
      (g.job s.active p).Logs ((g.job s.active p).passEvents i) (bodyOf i (g.job s.active p)) :=
    fun i hi =>
      let ⟨hsingle, _, hstage⟩ := componentCommands_legal hi
      bodyOf_logs h.supported hsingle hstage
  have hbody : bodyOf .transform (g.job s.active p) = _ := transformBody_eq_components g s.active p
  obtain ⟨m, hall, hmakes⟩ := Job.makesAll_of_computes (fun i hi => hcomputes i hi s.params) h.full
  obtain ⟨t, ht, htmem, -, -⟩ := h.exec_makes (i := .transform) rfl nofun (hbody ▸ hmakes)
  obtain ⟨u, hu, humem⟩ := h.serves.execAll_makes (fun _ hi => (componentCommands_legal hi).2) hall
  refine ⟨t, u, ht, hu, htmem.trans humem.symm, ?_⟩
  calc (g.job s.active p).traceIn t
      = ((g.job s.active p).traceIn s).map (· ++ (componentCommands g).flatMap (g.job s.active p).passEvents) :=
        h.exec_logs (i := .transform) rfl nofun (hbody ▸ Job.Logs.each hcomputes hlogs) ht
    _ = (g.job s.active p).traceIn u :=
        (h.serves.execAll_logs (fun _ hi => (componentCommands_legal hi).2) hall hlogs hu).symm

end Sys2Proof.Machine
end

section
/-! PROOF. Two rules of the exceptions (60_exceptions.md): a word that encodes no command completes with
`ILLEGAL_COMMAND` (R154, O16), and the register writes while a command runs are ignored (R160, O47). -/

namespace Sys2Proof.Machine

open Sys2Proof Sys2Proof.Claims

/-- A scheduled completion is the completion step after the move has left the schedule (R151). -/
theorem step_of_complete {s : State} {e : Nat} {rest : List Action} (h : s.schedule = .complete e :: rest) :
    step s = State.completionStep e { s with schedule := rest } := by
  unfold step State.advance
  rw [h]
  rfl

/-- The end of a command with an error code is the end of a command stopped by a check (R151, R155). -/
theorem State.raise_eq_stopped {r : ResultCode} (hr : r ≠ .ok) (s : State) : s.raise r = stopped r s := by
  have hfinish : Engine.finish r =
      fun g => { g with result := r, errSticky := true, pending := none, spoilt := false, overlaps := [] } := by
    funext g
    simp [Engine.finish, hr]
  unfold State.raise State.modifyEngine stopped
  rw [hfinish]

/-- The completion step of an illegal latched word stops the command with `ILLEGAL_COMMAND` (R154). -/
theorem State.completionStep_illegal {s : State} {e : Nat} {g : Engine} {p : Pending} {x : Illegal}
    (hg : s.engines[e]? = some g) (hp : g.pending = some p) (hx : decode p.cmd = .error x) :
    s.completionStep e = .next (stopped .illegalCommand { s with active := e }) := by
  have hlatched : State.latched { s with active := e } = some (g, p) := State.latched_eq_some.2 ⟨hg, hp⟩
  have hcode : ResultCode.illegalCommand ≠ .ok := nofun
  simp only [State.completionStep, hlatched, hx, State.raise_eq_stopped hcode]

/-- Settles O16: the completion step of an illegal word stops the command, and the step that takes it from the schedule
is that completion step. -/
theorem illegalWordCompletesWithItsCode : Obligations.IllegalWordCompletesWithItsCode := by
  unfold Obligations.IllegalWordCompletesWithItsCode
  intro s e g p x hg hp hx
  refine ⟨State.completionStep_illegal hg hp hx, fun rest hs => ?_⟩
  rw [step_of_complete hs]
  exact State.completionStep_illegal (s := { s with schedule := rest }) hg hp hx

section BusyWrites

variable {s : State} {e : Nat} {g : Engine} {r : RegName}

/-- A busy engine answers a write of `CMD`, `BUF_BASE` or `REQ_LEN` with its `HAZARD` bit alone (R160). -/
theorem State.writeReg_busy (hg : s.engines[e]? = some g) (hbusy : g.busy = true)
    (hr : r ∈ [RegName.cmd, .bufBase, .reqLen]) (v : Word) :
    s.writeReg e r v = .next (s.modifyEngine e Engine.setHazard) := by
  simp only [List.mem_cons, List.not_mem_nil, or_false] at hr
  rcases hr with rfl | rfl | rfl <;> simp only [State.writeReg, hg, hbusy, if_true]

/-- A write of a read-only or reserved register leaves the state as it is, whether the engine is busy or not
(R33, R34, R160). -/
theorem State.writeReg_ignored (hg : s.engines[e]? = some g) (hr : r ∉ [RegName.cmd, .bufBase, .reqLen])
    (v : Word) : s.writeReg e r v = .next s := by
  cases r with
  | cmd | bufBase | reqLen => exact absurd hr (by decide)
  | status | fftLen | descFlags | twidMod | bitrevMod | oneByFftLen | reserved =>
    simp only [State.writeReg, hg]

end BusyWrites

/-- Settles O47: the step is the register write, which a busy engine answers with `HAZARD` for the three writable
registers and with nothing for the others. -/
theorem busyWritesAreIgnored : Obligations.BusyWritesAreIgnored := by
  unfold Obligations.BusyWritesAreIgnored
  intro s e rest g p v r hg hp hs
  have hbusy : g.busy = true := by simp [Engine.busy, hp]
  rw [step_of_set hs]
  exact ⟨fun hr => State.writeReg_busy (s := { s with schedule := rest }) hg hbusy hr v,
    fun hr => State.writeReg_ignored (s := { s with schedule := rest }) hg hr v⟩

end Sys2Proof.Machine
end

section
/-! PROOF. The encoding (30_encoding.md): decoding undoes encoding on the well-formed commands (O11), encoding undoes
decoding on the words of the opcode map (O12), and words written out from the field layout (O14). -/

namespace Sys2Proof

/-- The word of a well-formed command is encoded by the command's own row (R76). -/
theorem encodes_encode {i : Instr} (h : i.wf = true) : (Laws.opcodeOf i).encodes (encode i) = true := by
  have hrow : Laws.OpcodeRow.Statement i := by
    cases i with
    | init ifft bitrev => exact Laws.OpcodeRow.init ifft bitrev
    | transform => exact Laws.OpcodeRow.transform
    | stage1Fwd => exact Laws.OpcodeRow.stage1Fwd
    | stage1Inv => exact Laws.OpcodeRow.stage1Inv
    | middleFwd stage => exact Laws.OpcodeRow.middleFwd stage
    | middleInv stage => exact Laws.OpcodeRow.middleInv stage
    | lastFwd => exact Laws.OpcodeRow.lastFwd
    | lastInv => exact Laws.OpcodeRow.lastInv
    | bitrev => exact Laws.OpcodeRow.bitrev
  exact (hrow h).1

/-- The operands a row takes from the word of a well-formed command are the command's own (R73, R74). -/
theorem build_encode {i : Instr} (h : i.wf = true) : (Laws.opcodeOf i).build (encode i) = i := by
  cases i with
  | init ifft bitrev => cases ifft <;> cases bitrev <;> rfl
  | middleFwd stage | middleInv stage =>
    have hfield : stage < 16 := of_decide_eq_true h
    interval_cases stage <;> rfl
  | transform | stage1Fwd | stage1Inv | lastFwd | lastInv | bitrev => rfl

/-- Settles O11: the command's own row encodes its word, and takes the command's operands back from it. -/
theorem decodeOfEncode : Obligations.DecodeOfEncode := by
  unfold Obligations.DecodeOfEncode
  intro i h
  rw [decode_of_encodes (encodes_encode h), build_encode h]

/-- A word encoded by a row is the row's pattern with the word's own free bits (R76). -/
theorem Opcode.eq_pattern_or_of_encodes {o : Opcode} {w : Word} (h : o.encodes w = true) :
    w = o.pattern ||| (w &&& ~~~o.mask) := by
  have hmatch : w &&& o.mask = o.pattern := eq_of_beq h
  rw [← hmatch, ← BitVec.and_or_distrib_left, BitVec.or_not_self, BitVec.and_allOnes]

/-- The free bits of `INIT` are its two flags (R73). -/
theorem and_initFree_eq_flags (w : Word) :
    w &&& ~~~Opcode.init.mask = flagBit (fieldIfft w) 4 ||| flagBit (fieldBitrev w) 5 := by
  have hbit : ∀ n, n < 32 → w &&& BitVec.twoPow 32 n = flagBit (w.getLsbD n) n := fun n _ => by
    rw [BitVec.and_twoPow, flagBit, BitVec.twoPow_eq]
  calc w &&& ~~~Opcode.init.mask = w &&& (BitVec.twoPow 32 4 ||| BitVec.twoPow 32 5) := rfl
    _ = flagBit (fieldIfft w) 4 ||| flagBit (fieldBitrev w) 5 := by
      rw [BitVec.and_or_distrib_left, hbit 4 (by decide), hbit 5 (by decide)]
      rfl

/-- The free bits of a middle stage are its stage number (R74). -/
theorem and_stageFree_eq_field (w : Word) : w &&& 0x00000F00#32 = BitVec.ofNat 32 (fieldStage w) <<< 8 := by
  have hfield : BitVec.ofNat 32 (fieldStage w) = (w >>> 8) &&& 15#32 := by
    have hshift : fieldStage w = fieldOpc (w >>> 8) := by
      rw [fieldOpc, fieldStage, BitVec.toNat_ushiftRight, Nat.shiftRight_eq_div_pow]
    rw [hshift, fieldOpc_eq_and, BitVec.ofNat_toNat, BitVec.setWidth_eq]
  rw [hfield, BitVec.shiftLeft_and_distrib, BitVec.shiftLeft_ushiftRight, BitVec.and_assoc]
  rfl

/-- The operands a row takes from a word it encodes fit their fields (R73, R74). -/
theorem Opcode.wf_build (o : Opcode) (w : Word) : (o.build w).wf = true := by
  have hfield : fieldStage w < 16 := Nat.mod_lt _ (by decide)
  cases o with
  | middleFwd | middleInv => exact decide_eq_true hfield
  | init | transform | stage1Fwd | stage1Inv | lastFwd | lastInv | bitrev => rfl

/-- The command a row builds from a word it encodes is encoded as that word: the pattern and the operand fields are
all its bits (R76). -/
theorem Opcode.encode_build {o : Opcode} {w : Word} (h : o.encodes w = true) : encode (o.build w) = w := by
  have hbits := Opcode.eq_pattern_or_of_encodes h
  cases o with
  | init =>
    rw [and_initFree_eq_flags, ← BitVec.or_assoc] at hbits
    exact hbits.symm
  | middleFwd | middleInv => exact (hbits.trans (congrArg _ (and_stageFree_eq_field w))).symm
  | transform | stage1Fwd | stage1Inv | lastFwd | lastInv | bitrev =>
    exact (hbits.trans (congrArg _ (BitVec.and_zero (x := w)))).symm

/-- Settles O12: a word that decodes is encoded by a row, whose command has the word's own bits as operands. -/
theorem encodeOfDecode : Obligations.EncodeOfDecode := by
  unfold Obligations.EncodeOfDecode
  intro w i h
  obtain ⟨o, ho⟩ := (decode_ok_iff w).1 ⟨i, h⟩
  obtain rfl := Except.ok.inj ((decode_of_encodes ho).symm.trans h)
  exact ⟨o.wf_build w, Opcode.encode_build ho⟩

/-- Settles O14: the decoder is run on each word. -/
theorem specWordsDecode : Obligations.SpecWordsDecode := by
  unfold Obligations.SpecWordsDecode
  decide

end Sys2Proof
end

section
/-! SUPPORT. What any step makes of the machine as a whole: how an engine may change (R25, R28 to R32, R151), and that
the parameters, the number of engines and the bytes outside the data memory stay (R12, R39, R169). -/

namespace Sys2Proof.Machine

open Sys2Proof

/-! ### The frame of a body inside its buffer -/

/-- A body with a supported length and a legal stage changes no word outside its buffer (R47, R105). -/
theorem bodyOf_frame_words {i : Instr} {j : Job} {s t : State} (hn : supported j.n = true)
    (hstage : ∀ k, i.stageOperand = some k → 1 ≤ k ∧ k ≤ log4 j.n - 2) (h : bodyOf i j s = .ok t) :
    BodyFrame j.engine j.words s t := by
  have pass : ∀ {ev f places} {u v : State}, (∀ p ∈ places, p.slots.within j.n) → u.pass j ev f places = .ok v →
      BodyFrame j.engine j.words u v := fun hin hp =>
    State.pass_frame (fun p hmem k hk => Job.covers_words (Slots.list_of_within (hin p hmem) k hk)) hp
  have stage1 : ∀ {dir} {u v : State}, stage1Body dir j u = .ok v → BodyFrame j.engine j.words u v :=
    fun h => pass (fun _ => stage1Places_within) h
  have middle : ∀ {dir k} {u v : State}, k ≤ log4 j.n - 2 → middleBody dir k j u = .ok v →
      BodyFrame j.engine j.words u v := fun hk h => pass (fun _ => middlePlaces_within hn hk) h
  have last : ∀ {dir} {u v : State}, lastBody dir j u = .ok v → BodyFrame j.engine j.words u v :=
    fun h => pass (fun _ => lastPlaces_within) h
  have reversal : ∀ {u v : State}, bitrevBody j u = .ok v → BodyFrame j.engine j.words u v := fun h =>
    bitrevBody_frame (fun p hp => (swapPairs_within hn hp).imp Job.covers_words Job.covers_words) h
  cases i with
  | init =>
    obtain rfl := Except.ok.inj h
    exact BodyFrame.refl _ _ _
  | transform =>
    obtain ⟨u₁, h₁, h⟩ := andThen_ok h
    obtain ⟨u₂, h₂, h⟩ := andThen_ok h
    obtain ⟨u₃, h₃, h₄⟩ := andThen_ok h
    have stages : BodyFrame j.engine j.words u₁ u₂ :=
      runEach_keeps (BodyFrame.refl _ _) (fun _ _ _ => BodyFrame.trans)
        (fun k hk _ _ hb => middle (by have := List.mem_range'_1.1 hk; omega) hb) h₂
    have ending : BodyFrame j.engine j.words u₃ t := by
      unfold bitrevIfSet at h₄
      split at h₄
      · exact reversal h₄
      · obtain rfl := Except.ok.inj h₄
        exact BodyFrame.refl _ _ _
    exact (stage1 h₁).trans (stages.trans ((last h₃).trans ending))
  | stage1Fwd | stage1Inv => exact stage1 h
  | middleFwd k | middleInv k => exact middle (hstage k rfl).2 h
  | lastFwd | lastInv => exact last h
  | bitrev => exact reversal h

/-! ### One engine -/

/-- What a step may make of an engine; `isReset` says whether it is the engine's reset. -/
structure Engine.Evolves (isReset : Bool) (g h : Engine) : Prop where
  descriptor : g.descriptorOk → h.descriptorOk
  errors : g.errorsStick → h.errorsStick
  sticky : isReset = false → (g.errSticky = true → h.errSticky = true) ∧ (g.hazard = true → h.hazard = true)

theorem Engine.Evolves.refl (isReset : Bool) (g : Engine) : g.Evolves isReset g := ⟨id, id, fun _ => ⟨id, id⟩⟩

theorem Engine.Evolves.trans {isReset : Bool} {g h k : Engine} (h₁ : g.Evolves isReset h) (h₂ : h.Evolves isReset k) :
    g.Evolves isReset k where
  descriptor := h₂.descriptor ∘ h₁.descriptor
  errors := h₂.errors ∘ h₁.errors
  sticky := fun hr => ⟨(h₂.sticky hr).1 ∘ (h₁.sticky hr).1, (h₂.sticky hr).2 ∘ (h₁.sticky hr).2⟩

theorem Engine.evolves_finish (r : ResultCode) (b : Bool) (g : Engine) : g.Evolves b (g.finish r) where
  descriptor := id
  errors := fun _ => by
    by_cases hr : r = .ok
    · exact .inl hr
    · exact .inr (by simp [hr])
  sticky := fun _ => ⟨fun hs => by simp [hs], id⟩

theorem Engine.evolves_setHazard (b : Bool) (g : Engine) : g.Evolves b g.setHazard :=
  ⟨id, id, fun _ => ⟨id, fun _ => rfl⟩⟩

theorem Engine.evolves_intruded (w b : Bool) (g : Engine) : g.Evolves b (g.intruded w) :=
  ⟨id, id, fun _ => ⟨id, fun _ => rfl⟩⟩

theorem Engine.evolves_partnerOver (e : Nat) (b : Bool) (g : Engine) : g.Evolves b (g.partnerOver e) :=
  ⟨id, id, fun _ => ⟨id, id⟩⟩

theorem Engine.evolves_met (e : Nat) (r : Nat × Nat) (b : Bool) (g : Engine) : g.Evolves b (g.met e r) :=
  ⟨id, id, fun _ => ⟨id, fun _ => rfl⟩⟩

theorem Engine.evolves_accepted (v : Word) (entries : List Overlap) (b : Bool) (g : Engine) :
    g.Evolves b ((g.latch v).accepted entries) := ⟨id, id, fun _ => ⟨id, fun hh => by simp [hh]⟩⟩

theorem Engine.descriptorOk_reset : Engine.reset.descriptorOk := ⟨rfl, rfl, rfl, rfl, rfl, rfl⟩

/-- A reset clears the sticky bits, and nothing else that evolves otherwise (R171). -/
theorem Engine.evolves_reset (g : Engine) : g.Evolves true Engine.reset :=
  ⟨fun _ => Engine.descriptorOk_reset, fun _ => .inl rfl, nofun⟩

theorem Engine.evolves_undescribe (b : Bool) (g : Engine) : g.Evolves b g.undescribe :=
  ⟨fun _ => ⟨rfl, rfl, rfl, rfl, rfl, rfl⟩, id, fun _ => ⟨id, id⟩⟩

/-- `INIT` of a supported length writes a legal descriptor: its quotients fit their words (R138). -/
theorem Engine.evolves_describe {req : Word} (hreq : supported req.toNat = true) (ifft bitrev b : Bool) (g : Engine) :
    g.Evolves b (g.describe req ifft bitrev) where
  descriptor := fun _ => by
    have fits : ∀ m, m ≤ 2 ^ 31 → (BitVec.ofNat 32 (m / req.toNat)).toNat = m / req.toNat := fun m hm => by
      have hle := Nat.div_le_self m req.toNat
      rw [BitVec.toNat_ofNat, Nat.mod_eq_of_lt (by omega)]
    exact ⟨hreq, fits _ (by decide), fits _ (by decide), fits _ (by decide)⟩
  errors := id
  sticky := fun _ => ⟨id, id⟩

/-- What a body does to an engine is within what a step may do. -/
theorem Engine.Kept.evolves {own : Bool} {g h : Engine} (hk : g.Kept own h) (b : Bool) : g.Evolves b h where
  descriptor := fun hd => by
    obtain ⟨hvalid, hlen, hifft, hbitrev, htwid, hmod, hone, -, -⟩ := hk.registers
    simpa only [Engine.descriptorOk, hvalid, hlen, hifft, hbitrev, htwid, hmod, hone] using hd
  errors := fun he => by rwa [Engine.errorsStick, hk.result, hk.errSticky]
  sticky := fun _ => ⟨fun hs => hk.errSticky.trans hs, hk.hazardStays⟩

/-! ### The whole machine -/

/-- What a step may make of the machine; `who` is the engine it resets, if it resets one. -/
structure State.Evolves (who : Option Nat) (s t : State) : Prop where
  params : t.params = s.params
  count : t.engines.length = s.engines.length
  engines : ∀ (k : Nat) (g : Engine), s.engines[k]? = some g →
    ∃ h, t.engines[k]? = some h ∧ g.Evolves (who == some k) h
  canonical : Memory.wf s.mem → Memory.wf t.mem
  inside : (∀ g ∈ s.engines, g.descriptorOk) → ∀ b, s.params.memWords ≤ b / 4 →
    Memory.readByte t.mem b = Memory.readByte s.mem b

section Machine

variable {s t u : State} {who : Option Nat}

/-- A change that maps every engine to one it may evolve to. -/
theorem State.Evolves.of_map {f : Nat → Engine → Engine} (hparams : t.params = s.params)
    (hmap : ∀ k, t.engines[k]? = (s.engines[k]?).map (f k))
    (hf : ∀ (k : Nat) (g : Engine), s.engines[k]? = some g → g.Evolves (who == some k) (f k g))
    (hcanonical : Memory.wf s.mem → Memory.wf t.mem)
    (hinside : ∀ b, s.params.memWords ≤ b / 4 → Memory.readByte t.mem b = Memory.readByte s.mem b) :
    s.Evolves who t where
  params := hparams
  count := by
    have hlist : t.engines = s.engines.mapIdx f := List.ext_getElem? fun k => by rw [hmap, List.getElem?_mapIdx]
    rw [hlist, List.length_mapIdx]
  engines := fun k g hg => ⟨f k g, by rw [hmap, hg, Option.map_some], hf k g hg⟩
  canonical := hcanonical
  inside := fun _ => hinside

/-- A change of fields that evolution does not speak of. -/
theorem State.Evolves.of_same (hparams : t.params = s.params) (hengines : t.engines = s.engines)
    (hmem : t.mem = s.mem) : s.Evolves who t :=
  .of_map (f := fun _ => id) hparams (fun k => by simp [hengines]) (fun _ g _ => .refl _ g) (fun h => hmem ▸ h)
    fun b _ => by rw [hmem]

theorem State.Evolves.trans (h₁ : s.Evolves who t) (h₂ : t.Evolves who u) : s.Evolves who u where
  params := h₂.params.trans h₁.params
  count := h₂.count.trans h₁.count
  engines := fun k g hg => by
    obtain ⟨h, hh, hev⟩ := h₁.engines k g hg
    obtain ⟨h', hh', hev'⟩ := h₂.engines k h hh
    exact ⟨h', hh', hev.trans hev'⟩
  canonical := h₂.canonical ∘ h₁.canonical
  inside := fun hd b hb => by
    have descriptors : ∀ g ∈ t.engines, g.descriptorOk := fun g hg => by
      obtain ⟨k, hk, rfl⟩ := List.getElem_of_mem hg
      have hlt : k < s.engines.length := h₁.count ▸ hk
      obtain ⟨h, hh, hev⟩ := h₁.engines k _ (List.getElem?_eq_getElem hlt)
      rw [List.getElem?_eq_getElem hk, Option.some.injEq] at hh
      exact hh ▸ hev.descriptor (hd _ (List.getElem_mem hlt))
    rw [h₂.inside descriptors b (h₁.params ▸ hb), h₁.inside hd b hb]

theorem State.evolves_modifyEngine (e : Nat) {f : Engine → Engine}
    (hf : ∀ (g : Engine) (b : Bool), g.Evolves b (f g)) (s : State) : s.Evolves who (s.modifyEngine e f) :=
  .of_map (f := fun k g => if e = k then f g else g) rfl (fun k => List.getElem?_modify f e s.engines k)
    (fun k g _ => by
      split
      · exact hf g _
      · exact .refl _ g) id fun _ _ => rfl

theorem State.evolves_raise (r : ResultCode) (s : State) : s.Evolves who (s.raise r) :=
  State.evolves_modifyEngine _ (fun g b => g.evolves_finish r b) s

theorem State.evolves_intrude (agent : Option Nat) (a : Nat) (w : Bool) (s : State) :
    s.Evolves who (s.intrude agent a w) :=
  .of_map rfl (fun k => State.intrude_engine agent a w s k) (fun k g _ => by
    split
    · exact g.evolves_intruded w _
    · exact .refl _ g) id fun _ _ => rfl

/-- The completion on a range inside the memory (R151). -/
theorem State.evolves_completeOn {lo hi : Nat} (hfits : hi ≤ s.params.memWords) :
    s.Evolves who (s.completeOn lo hi) :=
  .of_map (State.completeOn_params lo hi s) (fun k => State.completeOn_engine lo hi s k) (fun k g _ => by
    split
    · exact g.evolves_finish .ok _
    · exact g.evolves_partnerOver _ _) State.settle_wf
    fun b hb => State.settle_outside lo hi s b (.inr (by omega))

/-- The commands (R151). -/
theorem exec_evolves {i : Instr} (h : exec i s = .next t) : s.Evolves who t := by
  by_cases htouches : i.touchesBuffer = true
  · rw [exec_eq_runBuffer htouches] at h
    obtain ⟨g, p, hl, ⟨-, rfl⟩ | ⟨hcheck, u, hu, rfl⟩⟩ := State.runBuffer_next h
    · exact State.evolves_raise _ s
    · obtain ⟨hvalid, hstage, hfits⟩ := Engine.bufferCheck_ok.1 hcheck
      have hframe := bodyOf_frame hu
      have hbody : s.Evolves who u := {
        params := hframe.params
        count := hframe.count
        engines := fun k e hk =>
          let ⟨h, hh, hkept⟩ := hframe.engines k e hk
          ⟨h, hh, hkept.evolves _⟩
        canonical := hframe.canonical
        inside := fun hd b hb => by
          have hdescriptor := hd g (List.mem_of_getElem? hl.engine)
          rw [Engine.descriptorOk, if_pos hvalid] at hdescriptor
          refine (bodyOf_frame_words hdescriptor.1 hstage hu).outside b fun hword => ?_
          have : b / 4 < p.base.toNat + 2 * g.fftLen.toNat := hword.2
          omega }
      exact hbody.trans (State.evolves_completeOn (hframe.params ▸ hfits))
  · cases i with
    | init ifft bitrev =>
      change execInit ifft bitrev s = .next t at h
      unfold execInit at h
      split at h
      next => cases h
      next p hl =>
        split at h
        next hreq =>
          injection h with h
          subst h
          exact (State.evolves_modifyEngine _ (fun g b => g.evolves_describe hreq ifft bitrev b) s).trans
            (State.evolves_raise _ _)
        next =>
          injection h with h
          subst h
          exact (State.evolves_modifyEngine _ (fun g b => g.evolves_undescribe b) s).trans (State.evolves_raise _ _)
    | _ => exact absurd rfl htouches

theorem State.completionStep_evolves {e : Nat} (h : s.completionStep e = .next t) : s.Evolves who t := by
  have turn : s.Evolves who { s with active := e } := .of_same rfl rfl rfl
  rcases State.completionStep_next h with rfl | ⟨g, p, -, ⟨x, -, rfl⟩ | ⟨i, -, hexec⟩⟩
  · exact .of_same rfl rfl rfl
  · exact turn.trans (State.evolves_raise _ _)
  · exact turn.trans (exec_evolves hexec)

theorem State.acceptCommand_evolves {e : Nat} {g : Engine} (hg : s.engines[e]? = some g) (v : Word) :
    s.Evolves who (s.acceptCommand e v g) :=
  .of_map rfl (fun k => State.acceptCommand_engine e v g s k) (fun k h hk => by
    split
    next he =>
      subst he
      obtain rfl := Option.some.inj (hg.symm.trans hk)
      exact g.evolves_accepted v _ _
    next =>
      split
      · exact h.evolves_met e _ _
      · exact .refl _ h) id fun _ _ => rfl

theorem State.writeReg_evolves {e : Nat} {r : RegName} {v : Word} (h : s.writeReg e r v = .next t) :
    s.Evolves who t := by
  obtain ⟨g, hg, rfl | ⟨-, rfl⟩ | ⟨-, -, rfl⟩ | ⟨-, -, rfl⟩ | ⟨-, -, rfl⟩⟩ := State.writeReg_next h
  · exact .of_same rfl rfl rfl
  · exact State.evolves_modifyEngine e (fun g b => g.evolves_setHazard b) s
  · exact State.acceptCommand_evolves hg v
  · exact State.evolves_modifyEngine e (f := fun h => { h with bufBase := v })
      (fun _ _ => ⟨id, id, fun _ => ⟨id, id⟩⟩) s
  · exact State.evolves_modifyEngine e (f := fun h => { h with reqLen := v })
      (fun _ _ => ⟨id, id, fun _ => ⟨id, id⟩⟩) s

/-- A host write within one word stays inside the memory (R39, R52). -/
theorem State.hostWrite_evolves {b width : Nat} {v : Word} (hshape : withinWord b width = true)
    (h : s.hostWrite b width v = .next t) : s.Evolves who t := by
  have hcanonical := State.hostWrite_wf h
  obtain ⟨hb, m, n, rfl, hm⟩ := State.hostWrite_next h
  have hwithin : 1 ≤ width ∧ b % 4 + width ≤ 4 := of_decide_eq_true hshape
  have hfill : ∀ c, s.params.memWords ≤ c / 4 → Memory.readByte m c = Memory.readByte s.mem c := fun c hc => by
    rcases hm with rfl | ⟨-, w, rfl⟩
    · rfl
    · rw [Memory.readByte_writeWord, if_neg (by omega)]
  refine .of_map rfl (fun k => State.intrude_engine none (b / 4) true s k) (fun k g _ => ?_) hcanonical fun c hc => ?_
  · split
    · exact g.evolves_intruded true _
    · exact .refl _ g
  · rw [Memory.readByte_writeBytes, if_neg (by omega), hfill c hc]

theorem State.hostRead_evolves {b width : Nat} (h : s.hostRead b width = .next t) : s.Evolves who t := by
  obtain ⟨-, v, rfl⟩ := State.hostRead_next h
  exact (State.evolves_intrude none (b / 4) false s).trans (.of_same rfl rfl rfl)

/-- What an engine owns lies in the memory (R42). -/
theorem Engine.lt_memWords_of_ownsWord {g : Engine} {memWords a : Nat} (h : g.ownsWord memWords a = true) :
    a < memWords := by
  obtain ⟨lo, hi, howned, -, hlt⟩ := Engine.ownsWord_eq_true.1 h
  obtain ⟨p, i, -, -, -, hcheck, hrange⟩ := Engine.owned_eq_some.1 howned
  obtain ⟨-, rfl⟩ := Prod.mk.inj hrange
  exact hlt.trans_le (Engine.bufferCheck_ok.1 hcheck).2.2

theorem State.resetEngine_evolves {e : Nat} (h : s.resetEngine e = .next t) : s.Evolves (some e) t := by
  have hcanonical := State.resetEngine_wf h
  have hmap := State.resetEngine_engine h
  obtain ⟨g, as, -, howns, -, rfl⟩ := State.resetEngine_next h
  refine .of_map (State.scramble_params as s) hmap (fun k g' _ => ?_) hcanonical fun b hb => ?_
  · split
    next he =>
      subst he
      rw [beq_self_eq_true]
      exact g'.evolves_reset
    next => exact g'.evolves_partnerOver e _
  · refine State.scramble_readByte_outside (fun hmem => ?_) s
    exact absurd (Engine.lt_memWords_of_ownsWord (howns _ hmem)) (Nat.not_lt.2 hb)

/-- Every step evolves the machine, and resets an engine only where the next move is that engine's reset. -/
theorem step_evolves (h : step s = .next t) :
    ∃ who, s.Evolves who t ∧ ∀ e, who = some e → s.schedule.head? = some (.reset e) := by
  obtain ⟨rest, hcases⟩ := step_cases h
  have moved : ∀ {who}, State.Evolves who { s with schedule := rest } t → s.Evolves who t := fun hev =>
    State.Evolves.trans (t := { s with schedule := rest }) (.of_same rfl rfl rfl) hev
  rcases hcases with rfl | ⟨e, h⟩ | ⟨e, r, h⟩ | ⟨e, r, v, h⟩ | ⟨b, width, v, hw, h⟩ | ⟨b, width, -, h⟩ | ⟨e, hhead, h⟩
  · exact ⟨none, .of_same rfl rfl rfl, nofun⟩
  · exact ⟨none, moved (State.completionStep_evolves h), nofun⟩
  · obtain ⟨g, -, rfl⟩ := State.readReg_next h
    exact ⟨none, .of_same rfl rfl rfl, nofun⟩
  · exact ⟨none, moved (State.writeReg_evolves h), nofun⟩
  · exact ⟨none, moved (State.hostWrite_evolves hw h), nofun⟩
  · exact ⟨none, moved (State.hostRead_evolves h), nofun⟩
  · exact ⟨some e, moved (State.resetEngine_evolves h), fun _ he => Option.some.inj he ▸ hhead⟩

end Machine

/-! ### The invariant and the sticky bits -/

/-- A canonical memory lists no byte from `n` on exactly where every such byte reads as unwritten. -/
theorem Memory.mem_lt_iff {m : Memory} (h : Memory.wf m) (n : Nat) :
    (∀ c ∈ m, c.1 < n) ↔ ∀ b, n ≤ b → Memory.readByte m b = none := by
  constructor
  · intro hall b hb
    by_contra hsome
    obtain ⟨v, hv⟩ := Option.ne_none_iff_exists'.1 hsome
    exact absurd (hall (b, v) ((Memory.mem_iff_readByte h (b, v)).2 hv)) (Nat.not_lt.2 hb)
  · intro hnone c hc
    by_contra hge
    have hread := (Memory.mem_iff_readByte h c).1 hc
    rw [hnone c.1 (Nat.not_lt.1 hge)] at hread
    cases hread

/-- Settles O37: a step keeps the parameters, the engines and the bytes outside the memory, and evolves each engine
within its descriptor and its errors. -/
theorem stepKeepsTheInvariant : Obligations.StepKeepsTheInvariant := by
  unfold Obligations.StepKeepsTheInvariant
  rintro s t ⟨hparams, hcount, hwf, hbytes, hengines⟩ hstep
  obtain ⟨who, hev, -⟩ := step_evolves hstep
  refine ⟨hev.params ▸ hparams, ?_, hev.canonical hwf, ?_, fun h hh => ?_⟩
  · rw [hev.count, hev.params, hcount]
  · rw [Memory.mem_lt_iff (hev.canonical hwf), hev.params]
    intro b hb
    rw [hev.inside (fun g hg => (hengines g hg).1) b (by omega)]
    exact (Memory.mem_lt_iff hwf _).1 hbytes b hb
  · obtain ⟨k, hk, rfl⟩ := List.getElem_of_mem hh
    have hlt : k < s.engines.length := hev.count ▸ hk
    obtain ⟨h, hh, hevolves⟩ := hev.engines k _ (List.getElem?_eq_getElem hlt)
    rw [List.getElem?_eq_getElem hk, Option.some.injEq] at hh
    obtain ⟨hdescriptor, herrors⟩ := hengines _ (List.getElem_mem hlt)
    exact hh ▸ ⟨hevolves.descriptor hdescriptor, hevolves.errors herrors⟩

/-- Settles O39: no move writes the parameters or adds an engine. -/
theorem stepKeepsParametersAndEngines : Obligations.StepKeepsParametersAndEngines := by
  unfold Obligations.StepKeepsParametersAndEngines
  intro s t hstep
  obtain ⟨who, hev, -⟩ := step_evolves hstep
  exact ⟨hev.params, hev.count⟩

/-- Settles O40: of all moves only a reset clears a sticky bit, and only of its own engine. -/
theorem stickyBitsStay : Obligations.StickyBitsStay := by
  unfold Obligations.StickyBitsStay
  intro s t k g hstep hhead hg
  obtain ⟨who, hev, hreset⟩ := step_evolves hstep
  obtain ⟨h, hh, hevolves⟩ := hev.engines k g hg
  have hother : (who == some k) = false := beq_eq_false_iff_ne.2 fun hwho => hhead (hreset k hwho)
  exact ⟨h, hh, hevolves.sticky hother⟩

/-! ### Power-up -/

/-- Every engine after power-up is a reset one (R43). -/
theorem State.powerUp_engine {params : Params} {g : Engine} (h : g ∈ (State.powerUp params).engines) :
    g = Engine.reset := List.eq_of_mem_replicate h

theorem State.powerUp_count (params : Params) : (State.powerUp params).engines.length = params.engineCount :=
  List.length_replicate

/-- The machine after power-up with legal parameters meets the invariant (R43, R173). -/
theorem State.powerUp_inv {params : Params} (h : params.wf) : (State.powerUp params).Inv :=
  ⟨h, State.powerUp_count params, Memory.wf_nil, nofun,
    fun _ hg => State.powerUp_engine hg ▸ ⟨Engine.descriptorOk_reset, .inl rfl⟩⟩

/-- Settles O38: the parameters of `State.reset` are legal ones. -/
theorem resetMeetsTheInvariant : Obligations.ResetMeetsTheInvariant := by
  unfold Obligations.ResetMeetsTheInvariant
  have hdefault : Params.default.wf := by decide
  exact ⟨State.powerUp_inv hdefault, fun _ => State.powerUp_inv⟩

/-- Settles O56: every engine after power-up is a reset one, which is idle and owns nothing. -/
theorem powerUpValues : Obligations.PowerUpValues := by
  unfold Obligations.PowerUpValues
  refine ⟨fun params => ⟨State.powerUp_count params, rfl, fun g hg => ?_⟩, rfl, rfl⟩
  obtain rfl := State.powerUp_engine hg
  exact ⟨rfl, rfl, rfl, rfl, rfl, rfl, rfl, rfl, rfl, rfl, Engine.owned_of_idle rfl _⟩

end Sys2Proof.Machine
end

section
/-! PROOF. The butterflies in exact integers (40_fixed_point.md to 43_last.md): the clamp (O6), the combinations (O7),
and what the groups of the three kinds of stage write (O8, O9, O10). -/

namespace Sys2Proof.Machine

open Sys2Proof Sys2Proof.Claims

/-! ### The clamp -/

/-- The clamp lands in the signed range, so wrapping does nothing to it (R91). -/
@[simp] theorem s32_sat32 (v : Int) : s32 (sat32 v) = clamp v := by
  rw [sat32, s32_wrap32, narrow_of_range (by omega) (by omega), clamp]
  omega

@[simp] theorem s32_satAdd (a b : Word) : s32 (satAdd a b) = clamp (s32 a + s32 b) := s32_sat32 _

@[simp] theorem s32_satSub (a b : Word) : s32 (satSub a b) = clamp (s32 a - s32 b) := s32_sat32 _

/-- Settles O6: the saturated word reads back as the clamped integer, bounded in either order. -/
theorem saturationClamps : Obligations.SaturationClamps := by
  unfold Obligations.SaturationClamps
  intro v
  rw [s32_sat32, clamp]
  omega

/-! ### The combinations -/

/-- Reducing the terms of a sum before the sum changes nothing (R86). -/
theorem narrow_add_narrow (u v : Int) : narrow (narrow u + narrow v) = narrow (u + v) := by
  unfold narrow
  omega

theorem narrow_sub_narrow (u v : Int) : narrow (narrow u - narrow v) = narrow (u - v) := by
  unfold narrow
  omega

theorem parts_combos_sum (v : Quad) :
    parts (combos v).sum = both narrow (sumZ (parts v.s0) (parts v.s1) (parts v.s2) (parts v.s3)) := by
  simp only [combos, parts, both, sumZ, s32_add32, narrow_add_narrow]
  ring_nf

theorem parts_combos_alt (v : Quad) :
    parts (combos v).alt = both narrow (altZ (parts v.s0) (parts v.s1) (parts v.s2) (parts v.s3)) := by
  simp only [combos, parts, both, altZ, s32_add32, s32_sub32, narrow_sub_narrow]
  ring_nf

theorem parts_combos_qf (v : Quad) :
    parts (combos v).qf = both narrow (minusJ (parts v.s0) (parts v.s1) (parts v.s2) (parts v.s3)) := by
  simp only [combos, parts, both, minusJ, s32_add32, s32_sub32, narrow_add_narrow, narrow_sub_narrow]
  ring_nf

theorem parts_combos_qi (v : Quad) :
    parts (combos v).qi = both narrow (plusJ (parts v.s0) (parts v.s1) (parts v.s2) (parts v.s3)) := by
  simp only [combos, parts, both, plusJ, s32_add32, s32_sub32, narrow_add_narrow, narrow_sub_narrow]
  ring_nf

/-- Settles O7: both levels of wrapping sums reduce to one reduction of the exact sum. -/
theorem combinationsAreWrappedExactSums : Obligations.CombinationsAreWrappedExactSums := by
  unfold Obligations.CombinationsAreWrappedExactSums
  exact fun v => ⟨parts_combos_sum v, parts_combos_alt v, parts_combos_qf v, parts_combos_qi v⟩

theorem parts_combos_first (dir : Dir) (v : Quad) :
    parts ((combos v).first dir) = both narrow (crossZ dir (parts v.s0) (parts v.s1) (parts v.s2) (parts v.s3)) := by
  cases dir with
  | fwd => exact parts_combos_qf v
  | inv => exact parts_combos_qi v

theorem parts_combos_second (dir : Dir) (v : Quad) :
    parts ((combos v).second dir) = both narrow (crossZ' dir (parts v.s0) (parts v.s1) (parts v.s2) (parts v.s3)) := by
  cases dir with
  | fwd => exact parts_combos_qi v
  | inv => exact parts_combos_qf v

/-! ### Rotations and shifts -/

/-- A rotation narrows the integer rotation of its operand (R93, R94). -/
theorem parts_rot (dir : Dir) (z : Cx) (tw : Word × Word) :
    parts (rot dir z tw) = both narrow (rotZ dir (parts z) tw) := by
  cases dir <;> simp [rot, rotF, rotI, parts, both, rotZ, upper, s32_mulhi]

theorem parts_mapCx_asr (n : Nat) (z : Cx) : parts (mapCx (fun x => asr x n) z) = both (·.fdiv (2 ^ n)) (parts z) := by
  simp [parts, mapCx, both, s32_asr]

theorem parts_mapCx_shl1 (z : Cx) : parts (mapCx shl1 z) = both (fun x => narrow (2 * x)) (parts z) := by
  simp [parts, mapCx, both, shl1]

/-! ### The middle stages -/

/-- Settles O9: the combinations and rotations are narrowed where they are formed, and the shifts are floored
quotients. -/
theorem middleButterflyValues : Obligations.MiddleButterflyValues := by
  unfold Obligations.MiddleButterflyValues
  rintro tw dir k v a b c d rfl rfl rfl rfl
  simp only [middleQuad, rotated, parts_mapCx_asr, parts_rot, parts_combos_sum, parts_combos_alt, parts_combos_first,
    parts_combos_second]
  exact ⟨rfl, rfl, rfl, rfl⟩

/-! ### The last stage -/

/-- Settles O10: the forward group is the four combinations, and each saturating operation clamps its exact value. -/
theorem lastStageGroupValues : Obligations.LastStageGroupValues := by
  unfold Obligations.LastStageGroupValues
  rintro mode v a b c d rfl rfl rfl rfl
  refine ⟨combinationsAreWrappedExactSums v, ?_, ?_⟩
  · simp only [lastQuad, lastInvQuad, lastInvExact, parts, both, sumZ, altZ, minusJ, plusJ, s32_sat32]
    refine ⟨?_, ?_, ?_, ?_⟩ <;> ring_nf
  · simp only [lastQuad, lastInvQuad, lastInvPairwise, parts, s32_satAdd, s32_satSub, and_self]

/-! ### Stage-1: nothing wraps -/

/-- Both parts of a complex integer are at most `B` in size. -/
def ZBound (B : Int) (z : Zc) : Prop := |z.1| ≤ B ∧ |z.2| ≤ B

theorem both_narrow_of_bound {z : Zc} (h : ZBound 2147483647 z) : both narrow z = z := by
  simp only [ZBound, abs_le] at h
  exact Prod.ext (narrow_of_range (by omega) (by omega)) (narrow_of_range (by omega) (by omega))

/-- A word shifted right by 4 has four bits less (R88). -/
theorem bound_parts_fdiv (z : Cx) : ZBound 134217728 (both (·.fdiv 16) (parts z)) := by
  have hre := s32_range z.re
  have him := s32_range z.im
  simp only [ZBound, abs_le, both, parts, Int.fdiv_eq_ediv_of_nonneg _ (show (0 : Int) ≤ 16 by decide)]
  omega

section Combinations

variable {B : Int} {a b c d : Zc} (ha : ZBound B a) (hb : ZBound B b) (hc : ZBound B c) (hd : ZBound B d)

include ha hb hc hd

theorem bound_sumZ : ZBound (4 * B) (sumZ a b c d) := by
  simp only [ZBound, abs_le, sumZ] at *
  omega

theorem bound_altZ : ZBound (4 * B) (altZ a b c d) := by
  simp only [ZBound, abs_le, altZ] at *
  omega

theorem bound_crossZ (dir : Dir) : ZBound (4 * B) (crossZ dir a b c d) := by
  cases dir <;> simp only [ZBound, abs_le, crossZ, minusJ, plusJ] at * <;> omega

theorem bound_crossZ' (dir : Dir) : ZBound (4 * B) (crossZ' dir a b c d) := by
  cases dir <;> simp only [ZBound, abs_le, crossZ', minusJ, plusJ] at * <;> omega

end Combinations

/-- The upper product word of a number below `2^29` and a word is below `2^28` (R90, R99). -/
theorem upper_bound {x : Int} (hx : |x| ≤ 536870912) (w : Word) : |upper x (s32 w)| ≤ 268435456 := by
  have hw := s32_range w
  have hproduct : |x * s32 w| ≤ 536870912 * 2147483648 := by
    rw [abs_mul]
    exact mul_le_mul hx (abs_le.2 ⟨hw.1, hw.2.le⟩) (abs_nonneg _) (by decide)
  rw [abs_le] at hproduct ⊢
  rw [upper, Int.fdiv_eq_ediv_of_nonneg _ (by decide)]
  omega

theorem bound_rotZ {z : Zc} (h : ZBound 536870912 z) (dir : Dir) (tw : Word × Word) :
    ZBound 536870912 (rotZ dir z tw) := by
  have h₁ := abs_le.1 (upper_bound h.1 tw.1)
  have h₂ := abs_le.1 (upper_bound h.2 tw.2)
  have h₃ := abs_le.1 (upper_bound h.2 tw.1)
  have h₄ := abs_le.1 (upper_bound h.1 tw.2)
  cases dir <;> simp only [ZBound, abs_le, rotZ] <;> omega

/-- A rotation of a small combination, doubled, is exact: neither the combination, nor the rotation, nor the shift
wraps (R101). -/
theorem both_double_rot {z : Zc} (h : ZBound 536870912 z) (dir : Dir) (tw : Word × Word) :
    both (fun x => narrow (2 * x)) (both narrow (rotZ dir (both narrow z) tw))
      = both (fun x => 2 * x) (rotZ dir z tw) := by
  have hrot := bound_rotZ h dir tw
  have large : ∀ {w : Zc}, ZBound 536870912 w → ZBound 2147483647 w := fun hw =>
    ⟨hw.1.trans (by decide), hw.2.trans (by decide)⟩
  rw [both_narrow_of_bound (large h), both_narrow_of_bound (large hrot)]
  simp only [ZBound, abs_le] at hrot
  exact Prod.ext (narrow_of_range (by omega) (by omega)) (narrow_of_range (by omega) (by omega))

/-- Settles O8: the four guard bits keep every sum, rotation and shift of the butterfly inside the signed range. -/
theorem stage1ButterflyValues : Obligations.Stage1ButterflyValues := by
  unfold Obligations.Stage1ButterflyValues
  rintro tw dir k v _ _ _ _ rfl rfl rfl rfl
  have h₀ := bound_parts_fdiv v.s0
  have h₁ := bound_parts_fdiv v.s1
  have h₂ := bound_parts_fdiv v.s2
  have h₃ := bound_parts_fdiv v.s3
  have hshift : ∀ z, parts (mapCx (fun x => asr x 4) z) = both (·.fdiv 16) (parts z) := parts_mapCx_asr 4
  simp only [stage1Quad, rotated, mapQuad, parts_mapCx_shl1, parts_rot, parts_combos_sum, parts_combos_alt,
    parts_combos_first, parts_combos_second, hshift]
  refine ⟨?_, both_double_rot (bound_altZ h₀ h₁ h₂ h₃) dir _, both_double_rot (bound_crossZ h₀ h₁ h₂ h₃ dir) dir _,
    both_double_rot (bound_crossZ' h₀ h₁ h₂ h₃ dir) dir _⟩
  have hsum := bound_sumZ h₀ h₁ h₂ h₃
  exact both_narrow_of_bound ⟨hsum.1.trans (by decide), hsum.2.trans (by decide)⟩

end Sys2Proof.Machine
end

section
/-! PROOF. Lengths and geometry: the supported lengths (R9, O21), the reversed index (R131, O29), and that each pass
touches every sample of the buffer once (R102, R112, R121, O58). -/

namespace Sys2Proof.Machine

open Sys2Proof Sys2Proof.Claims

/-! ### The supported lengths -/

theorem supported_iff_cases {n : Nat} :
    supported n = true ↔ n = 16 ∨ n = 64 ∨ n = 256 ∨ n = 1024 ∨ n = 4096 :=
  ⟨supported_cases, by rintro (rfl | rfl | rfl | rfl | rfl) <;> decide⟩

/-- A supported length is `4^L` for its `L = log4`, which is at least 2 (R9). -/
theorem supported_log4 {n : Nat} (h : supported n = true) : n = 4 ^ log4 n ∧ 2 ≤ log4 n := by
  rcases supported_cases h with rfl | rfl | rfl | rfl | rfl <;> decide

/-- The powers of 4 from 16 to 4096 are supported (R9). -/
theorem supported_pow_four {l : Nat} (hlo : 2 ≤ l) (hhi : 4 ^ l ≤ 4096) : supported (4 ^ l) = true := by
  have hl : l ≤ 6 := (Nat.pow_le_pow_iff_right (by decide : 1 < 4)).1 hhi
  interval_cases l <;> decide

/-- Settles O21: the five lengths are computed, and each is 4 to its `log4`. -/
theorem supportedLengthsArePowersOf4 : Obligations.SupportedLengthsArePowersOf4 := by
  unfold Obligations.SupportedLengthsArePowersOf4
  refine ⟨fun n => ⟨fun h => ?_, ?_⟩, fun n => supported_iff_cases, fun n h => (supported_log4 h).1⟩
  · obtain ⟨hpow, hlog⟩ := supported_log4 h
    exact ⟨log4 n, hlog, hpow ▸ (supported_is_pow h).1, hpow⟩
  · rintro ⟨l, hlo, hhi, rfl⟩
    exact supported_pow_four hlo hhi

/-! ### The reversed index -/

/-- Settles O29: the bits of the reversed index are those of the index in reverse. -/
theorem reversedIndexIsAnInvolution : Obligations.ReversedIndexIsAnInvolution := by
  unfold Obligations.ReversedIndexIsAnInvolution
  intro b i hi
  refine ⟨revBits_lt b i, revBits_revBits hi, fun t ht => ?_⟩
  rw [testBit_revBits, decide_eq_true ht, Bool.true_and]

/-! ### The samples of a pass -/

/-- Position `j` of a quarter block, sub-block `b` and slot `t` make up every sample index: `i = j + b*4q + t*q`
(R112). -/
theorem mem_middleOrder {q r i : Nat} (hi : i < 4 * q * r) : i ∈ middleOrder (4 * q) r := by
  have hq : 0 < q := Nat.pos_of_ne_zero fun h => by simp [h] at hi
  have hj : i % q < q := Nat.mod_lt i hq
  have hb : i / q / 4 < r := by
    rw [Nat.div_div_eq_div_mul, Nat.mul_comm q 4]
    exact Nat.div_lt_of_lt_mul hi
  have hsplit : i = i % q + i / q / 4 * (4 * q) + i / q % 4 * q := by
    conv_lhs => rw [← Nat.mod_add_div i q, ← Nat.mod_add_div (i / q) 4]
    ring
  have ht : i / q % 4 < 4 := Nat.mod_lt _ (by decide)
  unfold middleOrder
  rw [Nat.mul_div_cancel_left q (by decide)]
  refine List.mem_flatMap.2 ⟨i % q, List.mem_range.2 hj, List.mem_flatMap.2 ⟨i / q / 4, List.mem_range.2 hb, ?_⟩⟩
  simp only [List.mem_cons, List.not_mem_nil, or_false]
  generalize i / q % 4 = t at hsplit ht
  interval_cases t <;> omega

theorem length_middleOrder (q r : Nat) : (middleOrder (4 * q) r).length = 4 * q * r := by
  unfold middleOrder
  rw [Nat.mul_div_cancel_left q (by decide)]
  simp only [List.length_flatMap, List.length_cons, List.length_nil, List.map_const', List.length_range,
    List.sum_replicate, smul_eq_mul]
  ring

/-- The samples of a pass in loop order are all samples, each once (R112). -/
theorem middleOrder_perm (q r : Nat) : (middleOrder (4 * q) r).Perm (List.range (4 * q * r)) := by
  refine ((List.subperm_of_subset List.nodup_range fun i hi => ?_).perm_of_length_le ?_).symm
  · exact mem_middleOrder (List.mem_range.1 hi)
  · rw [length_middleOrder, List.length_range]

/-- The first indices of the butterflies at position `j`: one in each sub-block (R110). -/
theorem stepRange_blocks {j q r : Nat} (hj : j < q) :
    stepRange j (4 * q * r) (4 * q) = (List.range r).map (fun m => j + m * (4 * q)) := by
  have hcount : (4 * q * r - j + 4 * q - 1) / (4 * q) = r := by
    rcases Nat.eq_zero_or_pos r with rfl | hr
    · exact Nat.div_eq_of_lt (by omega)
    · have hle : 4 * q ≤ 4 * q * r := Nat.le_mul_of_pos_right _ hr
      rw [show 4 * q * r - j + 4 * q - 1 = 4 * q * r + (4 * q - 1 - j) by omega, Nat.mul_add_div (by omega),
        Nat.div_eq_of_lt (by omega), Nat.add_zero]
  rw [stepRange, hcount]

section Places

variable {n q s : Nat} (twidMod : Nat)

/-- The places of a middle stage on `n = 4*q*4^s` samples: position `j` of a quarter block, sub-block `m` (R110). -/
theorem middlePlaces_eq (hn : n = 4 * q * 4 ^ s) :
    middlePlaces n twidMod s = (List.range q).flatMap (fun j => (List.range (4 ^ s)).map (fun m =>
      { slots := spaced (j + m * (4 * q)) q, base := j * modifierAt twidMod s })) := by
  have hblock : n / 4 ^ s = 4 * q := by rw [hn, Nat.mul_div_cancel _ (by positivity)]
  unfold middlePlaces
  rw [hblock, Nat.mul_div_cancel_left q (by decide)]
  refine List.flatMap_congr fun j hj => ?_
  rw [hn, stepRange_blocks (List.mem_range.1 hj), List.map_map]
  rfl

theorem slotsOf_middlePlaces (hn : n = 4 * q * 4 ^ s) :
    slotsOf (middlePlaces n twidMod s) = middleOrder (4 * q) (4 ^ s) := by
  rw [middlePlaces_eq twidMod hn, slotsOf, middleOrder, List.flatMap_assoc, Nat.mul_div_cancel_left q (by decide)]
  refine List.flatMap_congr fun j _ => ?_
  rw [List.flatMap_map]
  rfl

/-- Stage-1 is laid out as one block of all samples (R100). -/
theorem slotsOf_stage1Places (hn : n = 4 * q) : slotsOf (stage1Places n twidMod) = middleOrder (4 * q) 1 := by
  rw [hn, slotsOf, stage1Places, middleOrder, List.flatMap_map, Nat.mul_div_cancel_left q (by decide)]
  refine List.flatMap_congr fun j _ => ?_
  simp [Slots.list, spaced]

/-- The last stage is laid out in blocks of four samples (R120). -/
theorem slotsOf_lastPlaces (hn : n = 4 * q) : slotsOf (lastPlaces n) = middleOrder (4 * 1) q := by
  rw [hn, slotsOf, lastPlaces, middleOrder, List.flatMap_map, Nat.mul_div_cancel_left q (by decide)]
  simp [Slots.list, spaced, Nat.mul_comm]

/-- A supported length in blocks of stage `s`: `N = 4*q*4^s`, `q` the size of a quarter block (R110). -/
theorem supported_blocks (hn : supported n = true) (hs : s ≤ log4 n - 2) : ∃ q, n = 4 * q * 4 ^ s := by
  obtain ⟨hpow, hlog⟩ := supported_log4 hn
  refine ⟨4 ^ (log4 n - 1 - s), ?_⟩
  rw [← Nat.pow_succ', ← Nat.pow_add, show (log4 n - 1 - s).succ + s = log4 n by omega]
  exact hpow

theorem supported_quarters (hn : supported n = true) : n = 4 * (n / 4) := by
  rcases supported_cases hn with rfl | rfl | rfl | rfl | rfl <;> rfl

theorem perm_slotsOf_stage1Places (hn : supported n = true) :
    (slotsOf (stage1Places n twidMod)).Perm (List.range n) := by
  have h := middleOrder_perm (n / 4) 1
  rwa [← slotsOf_stage1Places twidMod (supported_quarters hn), Nat.mul_one, ← supported_quarters hn] at h

theorem perm_slotsOf_middlePlaces (hn : supported n = true) (hs : s ≤ log4 n - 2) :
    (slotsOf (middlePlaces n twidMod s)).Perm (List.range n) := by
  obtain ⟨q, hblocks⟩ := supported_blocks hn hs
  have h := middleOrder_perm q (4 ^ s)
  rwa [← slotsOf_middlePlaces twidMod hblocks, ← hblocks] at h

theorem perm_slotsOf_lastPlaces (hn : supported n = true) : (slotsOf (lastPlaces n)).Perm (List.range n) := by
  have h := middleOrder_perm 1 (n / 4)
  rwa [← slotsOf_lastPlaces (supported_quarters hn), Nat.mul_one, ← supported_quarters hn] at h

theorem length_middlePlaces (hn : supported n = true) (hs : s ≤ log4 n - 2) :
    (middlePlaces n twidMod s).length = n / 4 := by
  obtain ⟨q, hblocks⟩ := supported_blocks hn hs
  rw [middlePlaces_eq twidMod hblocks, hblocks, Nat.mul_assoc, Nat.mul_div_cancel_left _ (by decide)]
  simp [List.length_flatMap]

end Places

/-- Settles O58: the samples of a pass in loop order are `j + b*4q + t*q` with `j` outermost and the slot `t`
innermost, for a middle stage as for Stage-1 (one block) and the last stage (blocks of four). -/
theorem passesCoverEverySampleOnce : Obligations.PassesCoverEverySampleOnce := by
  unfold Obligations.PassesCoverEverySampleOnce
  intro n twidMod hn
  refine ⟨⟨by simp [stage1Places], perm_slotsOf_stage1Places twidMod hn⟩, fun s _ hs => ⟨?_, ?_⟩,
    by simp [lastPlaces], perm_slotsOf_lastPlaces hn⟩
  · exact length_middlePlaces twidMod hn hs
  · exact perm_slotsOf_middlePlaces twidMod hn hs

end Sys2Proof.Machine
end

section
/-! PROOF. How a command comes to run and what stops it: the step and its schedule (O15, O17), `INIT` (O18, O22), and
the checks before a buffer-touching command (O23). -/

namespace Sys2Proof.Machine

open Sys2Proof Sys2Proof.Claims

section Steps

variable {s : State} {e : Nat} {g : Engine} {p : Pending} {i : Instr} {rest : List Action}

/-! ### The step -/

/-- The completion step of a busy engine executes its decoded command in the state where the engine is active (R151).
-/
theorem State.completionStep_legal (hg : s.engines[e]? = some g) (hp : g.pending = some p) (hi : decode p.cmd = .ok i) :
    s.completionStep e = exec i { s with active := e } := by
  have hlatched : State.latched { s with active := e } = some (g, p) := State.latched_eq_some.2 ⟨hg, hp⟩
  simp only [State.completionStep, hlatched, hi]

/-- The completion step of an idle engine passes the turn (R151). -/
theorem State.completionStep_idle (hg : s.engines[e]? = some g) (hp : g.pending = none) :
    s.completionStep e = .next s := by
  simp only [State.completionStep, State.latched, hg, hp]

/-- A step takes the next move of the schedule (R19). -/
theorem step_of_move {a : Action} (h : s.schedule = a :: rest) : step s = s.move a rest := by
  simp only [step, State.advance, h]

theorem step_of_wait (h : s.schedule = .wait e :: rest) : step s = s.waitStep e rest := step_of_move h

/-- A `WAIT` on a busy engine is the engine's completion step (R83). -/
theorem State.waitStep_busy (hg : s.engines[e]? = some g) (hbusy : g.busy = true) :
    s.waitStep e rest = s.completionStep e := by
  simp only [State.waitStep, hg, hbusy, if_true]

/-- A `WAIT` on an idle engine is a read of `STATUS` (R83). -/
theorem State.waitStep_idle (hg : s.engines[e]? = some g) (hbusy : g.busy = false) :
    s.waitStep e rest = .next { s with schedule := rest, hostData := g.statusWord } := by
  simp only [State.waitStep, hg, hbusy, Bool.false_eq_true, if_false]
  exact State.readReg_of_engine (s := { s with schedule := rest }) hg .status

theorem Engine.busy_of_pending (hp : g.pending = some p) : g.busy = true := by rw [Engine.busy, hp]; rfl

theorem Engine.not_busy_of_idle (hp : g.pending = none) : g.busy = false := by rw [Engine.busy, hp]; rfl

/-- The first busy engine of a list, counted from `n`. -/
theorem firstBusy_eq_some {gs : List Engine} {k n : Nat} (hg : gs[k]? = some g) (hbusy : g.busy = true)
    (hidle : ∀ (l : Nat) (h : Engine), l < k → gs[l]? = some h → h.busy = false) : firstBusy gs n = some (n + k) := by
  induction gs generalizing k n with
  | nil => cases hg
  | cons x gs ih =>
    unfold firstBusy
    cases k with
    | zero =>
      obtain rfl := Option.some.inj hg
      rw [hbusy, if_pos rfl, Nat.add_zero]
    | succ k =>
      rw [hidle 0 x (Nat.succ_pos k) rfl, if_neg Bool.false_ne_true,
        ih (n := n + 1) hg fun l h hl hh => hidle (l + 1) h (Nat.succ_lt_succ hl) hh, Nat.add_right_comm, Nat.add_assoc]

theorem firstBusy_eq_none {gs : List Engine} {n : Nat} (hidle : ∀ h ∈ gs, h.busy = false) : firstBusy gs n = none := by
  induction gs generalizing n with
  | nil => rfl
  | cons x gs ih =>
    rw [firstBusy, hidle x List.mem_cons_self, if_neg Bool.false_ne_true,
      ih fun h hh => hidle h (List.mem_cons_of_mem _ hh)]

/-- With nothing scheduled the first busy engine completes (R151). -/
theorem step_of_firstBusy (hs : s.schedule = []) (hfirst : firstBusy s.engines 0 = some e) :
    step s = s.completionStep e := by
  simp only [step, State.advance, hs, hfirst]

/-- With nothing scheduled and no engine busy the machine stays as it is (R170). -/
theorem step_of_idle (hs : s.schedule = []) (hnone : firstBusy s.engines 0 = none) : step s = .next s := by
  simp only [step, State.advance, hs, hnone]

end Steps

/-- Settles O15: each of the three ways to a completion leads to the completion step of the engine, which decodes the
latched word. -/
theorem stepExecutesDecodedCommand : Obligations.StepExecutesDecodedCommand := by
  unfold Obligations.StepExecutesDecodedCommand
  refine ⟨fun s e rest g p i hg hp hi => ⟨fun hs => ?_, fun hs => ?_, fun hs hidle => ?_⟩,
    fun s e rest g hg hp => ⟨fun hs => ?_, fun hs => ?_⟩, fun s hs hidle => ?_⟩
  · rw [step_of_complete hs]
    exact State.completionStep_legal (s := { s with schedule := rest }) hg hp hi
  · rw [step_of_wait hs, State.waitStep_busy hg (Engine.busy_of_pending hp), State.completionStep_legal hg hp hi]
  · have hfirst := firstBusy_eq_some (n := 0) hg (Engine.busy_of_pending hp)
      fun k h hk hh => Engine.not_busy_of_idle (hidle k h hk hh)
    rw [Nat.zero_add] at hfirst
    rw [step_of_firstBusy hs hfirst, State.completionStep_legal hg hp hi]
  · rw [step_of_complete hs]
    exact State.completionStep_idle (s := { s with schedule := rest }) hg hp
  · rw [step_of_wait hs, State.waitStep_idle hg (Engine.not_busy_of_idle hp)]
  · exact step_of_idle hs (firstBusy_eq_none fun h hh => Engine.not_busy_of_idle (hidle h hh))

theorem decode_of_decodeTableWord {nbits w : Nat} {i : Instr} (h : decodeTableWord nbits w = some i) :
    decode (tableWord nbits w) = .ok i := by
  unfold decodeTableWord at h
  split at h
  next x hx => rw [hx, Option.some.inj h]
  next => cases h

/-- Settles O17: the latched word is the active engine's, and its completion step is the first move of the schedule.
-/
theorem fetchedWordRunsNext : Obligations.FetchedWordRunsNext := by
  unfold Obligations.FetchedWordRunsNext
  intro s nbits w i g hg hi
  have hlatched : (s.withFetchWord nbits w).engines[s.active]? = some (g.latch (tableWord nbits w)) := by
    simp [State.withFetchWord, hg]
  rw [step_of_complete (e := s.active) (rest := s.schedule) rfl]
  exact State.completionStep_legal (s := { s.withFetchWord nbits w with schedule := s.schedule }) hlatched rfl
    (decode_of_decodeTableWord hi)

/-! ### `INIT` -/

/-- What a completed `INIT` makes of its engine (R138, R139). -/
def Engine.initialized (req : Word) (ifft bitrev : Bool) (g : Engine) : Engine :=
  if supported req.toNat then (g.describe req ifft bitrev).finish .ok else g.undescribe.finish .unsupportedLength

/-- `INIT` changes nothing but its engine (R137). -/
theorem exec_init {s : State} {g : Engine} {p : Pending} (h : s.Latched g p) (ifft bitrev : Bool) :
    exec (.init ifft bitrev) s =
      .next { s with engines := s.engines.modify s.active (Engine.initialized p.req ifft bitrev) } := by
  unfold Engine.initialized
  cases hreq : supported p.req.toNat with
  | true => rw [exec_init_supported h hreq, State.raise_modifyEngine]; rfl
  | false => rw [exec_init_unsupported h hreq, State.raise_modifyEngine]; rfl

/-- Settles O18: the described descriptor and the completion with `OK` are one update of the active engine. -/
theorem initOfSupportedLength : Obligations.InitOfSupportedLength := by
  unfold Obligations.InitOfSupportedLength
  intro s g p ifft bitrev h hreq
  rw [exec_init_supported h hreq, State.raise_modifyEngine]
  simp [Engine.describe, Engine.finish, Config.twidNativeLen]

/-- A second `INIT` finds the descriptor, the result and the sticky bit as the first left them (R56). -/
theorem Engine.initialized_twice (req : Word) (ifft bitrev : Bool) (p : Option Pending) (g : Engine) :
    Engine.initialized req ifft bitrev { g.initialized req ifft bitrev with pending := p } =
      g.initialized req ifft bitrev := by
  unfold Engine.initialized
  cases supported req.toNat <;> simp [Engine.finish, Engine.describe, Engine.undescribe]

/-- Settles O22: latching the command again and executing it is one more update of the active engine, which the first
has already made. -/
theorem initTwiceIsInitOnce : Obligations.InitTwiceIsInitOnce := by
  unfold Obligations.InitTwiceIsInitOnce
  intro s t g p ifft bitrev h hexec
  rw [exec_init h] at hexec
  injection hexec with hexec
  subst hexec
  rw [exec_init (g := { g.initialized p.req ifft bitrev with pending := some p }) (p := p)
    ⟨by simp [h.engine], rfl⟩]
  simp only [List.modify_modify_eq, Function.comp_def, Engine.initialized_twice]

/-! ### The checks -/

section Checks

variable {g : Engine} {memWords : Nat} {i : Instr} {base : Word}

theorem Engine.bufferCheck_notInitialized {stage : Option Nat} (hvalid : g.initValid = false) :
    g.bufferCheck memWords stage base = .notInitialized := if_pos hvalid

theorem Engine.bufferCheck_badStage (hvalid : g.initValid = true) (hstage : ¬ stageOk i g) :
    g.bufferCheck memWords i.stageOperand base = .badStage := by
  have hany : i.stageOperand.any (fun s => decide (¬ (1 ≤ s ∧ s ≤ log4 g.fftLen.toNat - 2))) = true := by
    unfold stageOk at hstage
    push Not at hstage
    obtain ⟨k, hk, hlegal⟩ := hstage
    rw [hk, Option.any_some, decide_eq_true_eq]
    exact fun hc => absurd hc.2 (Nat.not_le.2 (hlegal hc.1))
  rw [Engine.bufferCheck, hvalid, if_neg nofun, if_pos hany]

theorem Engine.bufferCheck_badBuffer (hvalid : g.initValid = true) (hstage : stageOk i g)
    (hbuffer : memWords < base.toNat + 2 * g.fftLen.toNat) :
    g.bufferCheck memWords i.stageOperand base = .badBuffer := by
  have hany : ¬ i.stageOperand.any (fun s => decide (¬ (1 ≤ s ∧ s ≤ log4 g.fftLen.toNat - 2))) = true := fun hany => by
    obtain ⟨k, hk, hillegal⟩ := (Option.any_eq_true _ _).1 hany
    exact of_decide_eq_true hillegal (hstage k hk)
  rw [Engine.bufferCheck, hvalid, if_neg nofun, if_neg hany, if_pos hbuffer]

end Checks

/-- A command stopped by a check does nothing but complete with the code of the check (R153, R155). -/
theorem exec_stopped {i : Instr} {s : State} {g : Engine} {p : Pending} {r : ResultCode}
    (htouches : i.touchesBuffer = true) (hl : s.Latched g p)
    (hcheck : g.bufferCheck s.params.memWords i.stageOperand p.base = r) (hr : r ≠ .ok) :
    exec i s = .next (stopped r s) := by
  subst hcheck
  rw [exec_eq_runBuffer htouches, State.runBuffer_raises hl hr, State.raise_eq_stopped hr]

/-- Settles O23: the check gives the code of the first condition that fails, and a command whose check fails stops. -/
theorem failedCheckStopsWithItsCode : Obligations.FailedCheckStopsWithItsCode := by
  unfold Obligations.FailedCheckStopsWithItsCode
  intro i s g p htouches hl
  refine ⟨fun hvalid => ?_, fun hvalid hstage => ?_, fun hvalid hstage hbuffer => ?_⟩
  · exact exec_stopped htouches hl (Engine.bufferCheck_notInitialized hvalid) nofun
  · exact exec_stopped htouches hl (Engine.bufferCheck_badStage hvalid hstage) nofun
  · exact exec_stopped htouches hl (Engine.bufferCheck_badBuffer hvalid hstage hbuffer) nofun

end Sys2Proof.Machine
end

section
/-! PROOF. The commands whose checks pass: they complete with `OK` (O24), and on an undisturbed buffer they leave the
butterflies of their pass (O25, O26, O27), the reversed order (O28), their events (O31), and nothing of the ROM where
they read no twiddle (O36). -/

namespace Sys2Proof.Machine

open Sys2Proof Sys2Proof.Claims

/-! ### Completion -/

/-- A body with a supported length and a legal stage runs to its end on a written buffer (R163). -/
theorem bodyOf_total {i : Instr} {j : Job} {s : State} (hn : supported j.n = true)
    (hstage : ∀ k, i.stageOperand = some k → 1 ≤ k ∧ k ≤ log4 j.n - 2) (h : j.ready s) :
    ∃ t, bodyOf i j s = .ok t := by
  have bare : ∀ {f : State → Except Fault State}, (∃ t, f s = .ok t ∧ j.ready t) → ∃ t, f s = .ok t :=
    fun ⟨t, ht, _⟩ => ⟨t, ht⟩
  cases i with
  | init => exact ⟨s, rfl⟩
  | transform => exact bare (transformBody_total hn h)
  | stage1Fwd | stage1Inv => exact bare (stage1Body_total _ h)
  | middleFwd k | middleInv k => exact bare (middleBody_total _ hn (hstage k rfl).2 h)
  | lastFwd | lastInv => exact bare (lastBody_total _ h)
  | bitrev => exact bare (bitrevBody_total hn h)

/-- A valid legal descriptor is for a supported length (R28). -/
theorem Engine.supported_of_descriptorOk {g : Engine} (hvalid : g.initValid = true) (hd : g.descriptorOk) :
    supported g.fftLen.toNat = true := by
  rw [Engine.descriptorOk, if_pos hvalid] at hd
  exact hd.1

/-- The latched command's checks pass up to its stage operand (R153). -/
structure State.Checked (s : State) (g : Engine) (p : Pending) : Prop extends s.Latched g p where
  valid : g.initValid = true
  descriptor : g.descriptorOk
  fits : bufferEnd g p ≤ s.params.memWords

section Checked

variable {s t u : State} {g : Engine} {p : Pending} {i : Instr}

theorem State.Runnable.checked (h : s.Runnable g p) : s.Checked g p := ⟨h.toLatched, h.valid, h.descriptor, h.fits⟩

theorem State.Checked.supported (h : s.Checked g p) : supported (g.job s.active p).n = true :=
  Engine.supported_of_descriptorOk h.valid h.descriptor

theorem State.Checked.bufferCheck (h : s.Checked g p) (hstage : stageOk i g) :
    g.bufferCheck s.params.memWords i.stageOperand p.base = .ok :=
  Engine.bufferCheck_ok.2 ⟨h.valid, hstage, h.fits⟩

/-- A command whose body runs to its end completes on its buffer (R151). -/
theorem State.Checked.exec_completes (h : s.Checked g p) (htouches : i.touchesBuffer = true) (hstage : stageOk i g)
    (hu : bodyOf i (g.job s.active p) s = .ok u) :
    exec i s = .next (u.completeOn p.base.toNat (bufferEnd g p)) := by
  rw [exec_eq_runBuffer htouches]
  exact State.runBuffer_completes h.toLatched (h.bufferCheck hstage) hu

/-- The completing engine, as its body left it (R151). -/
theorem State.completeOn_active_engine {k : Engine} (hactive : u.active = s.active) (hk : u.engines[s.active]? = some k)
    (lo hi : Nat) : (u.completeOn lo hi).engines[s.active]? = some (k.finish .ok) := by
  rw [State.completeOn_engine, hactive, hk, Option.map_some, if_pos rfl]

/-- On a written buffer the body of a legal command runs to its end (R163). -/
theorem State.Runnable.body_total (h : s.Runnable g p) (hstage : stageOk i g) :
    ∃ u, bodyOf i (g.job s.active p) s = .ok u :=
  bodyOf_total h.checked.supported hstage fun a ha => h.written a ha.1 ha.2

/-- Settles O24: the body runs to its end, whoever owns its words, and leaves the engine's status as it was. -/
theorem passedChecksCompleteWithOk : Obligations.PassedChecksCompleteWithOk := by
  unfold Obligations.PassedChecksCompleteWithOk
  intro i s g p htouches h hstage
  obtain ⟨u, hu⟩ := h.body_total hstage
  have hframe := bodyOf_frame hu
  obtain ⟨k, hk, hkept⟩ := hframe.engines s.active g h.engine
  exact ⟨_, k.finish .ok, h.checked.exec_completes htouches hstage hu,
    State.completeOn_active_engine hframe.active hk _ _, rfl, rfl, by simp [hkept.errSticky]⟩

/-- What a body keeps of its own engine is everything but the trace (R105). -/
theorem Engine.Kept.finish_eq_completed {h : Engine} {evs : List TraceEvent} (hk : g.Kept true h)
    (htrace : h.trace = g.trace ++ evs) : h.finish .ok = g.completed evs := by
  obtain ⟨hvalid, hlen, hifft, hbitrev, htwid, hmod, hone, hbase, hreq⟩ := hk.registers
  obtain ⟨hhazard, -⟩ := hk.quiet rfl
  simp [Engine.finish, Engine.completed, htrace, hvalid, hlen, hifft, hbitrev, htwid, hmod, hone, hbase, hreq, hhazard,
    hk.errSticky]

/-- A command that no hazard has met, completed: its memory is its body's, no byte outside the buffer changed, and its
engine has the body's events in its trace (R151, R161, R162). -/
theorem State.Checked.exec_clean (h : s.Checked g p) (hclean : g.spoilt = false) (hapart : g.overlaps = [])
    (htouches : i.touchesBuffer = true) (hstage : stageOk i g) (hu : bodyOf i (g.job s.active p) s = .ok u) :
    ∃ t, exec i s = .next t ∧ t.mem = u.mem ∧ sameOutside p.base.toNat (bufferEnd g p) s t
      ∧ ∀ evs, (g.job s.active p).traceIn u = ((g.job s.active p).traceIn s).map (· ++ evs) →
          t.engines[s.active]? = some (g.completed evs) := by
  have hframe := bodyOf_frame_words h.supported hstage hu
  obtain ⟨k, hk, hkept⟩ := hframe.engines s.active g h.engine
  have hown : (s.active == (g.job s.active p).engine) = true := beq_self_eq_true _
  rw [hown] at hkept
  have hmem : (u.completeOn p.base.toNat (bufferEnd g p)).mem = u.mem := by
    rw [State.completeOn_mem, State.settle_clean (hframe.active ▸ hk) ((hkept.quiet rfl).2.trans hclean)
      (hkept.overlaps.trans hapart)]
  refine ⟨_, h.exec_completes htouches hstage hu, hmem, fun b hb => ?_, fun evs htrace => ?_⟩
  · rw [hmem]
    refine hframe.outside b fun hword => ?_
    have hlo : p.base.toNat ≤ b / 4 := hword.1
    have hhi : b / 4 < bufferEnd g p := hword.2
    omega
  · have hlog : k.trace = g.trace ++ evs := by
      change (u.engines[s.active]?).map Engine.trace
        = ((s.engines[s.active]?).map Engine.trace).map (· ++ evs) at htrace
      rw [hk, h.engine] at htrace
      exact Option.some.inj htrace
    rw [State.completeOn_active_engine hframe.active hk, hkept.finish_eq_completed hlog]

end Checked

/-! ### The stage passes -/

/-- A whole pass on a written buffer of no other engine, its butterflies covering the buffer (R41, R59, R102, R112).
-/
theorem State.pass_alone {j : Job} {s : State} (ev : TraceEvent) (f : Nat → Quad → Quad) {places : List Place}
    (hperm : (slotsOf places).Perm (List.range j.n)) (halone : j.alone s) (hfull : j.full s.mem) :
    ∃ m, s.pass j ev f places = .ok ((s.traceEvent j ev).withMem m) ∧ PassResult j.base j.n f places s.mem m :=
  runEach_butterflies (Job.alone_traceEvent halone ev) (fun _ hi => List.mem_range.1 (hperm.mem_iff.1 hi))
    (hperm.nodup_iff.2 List.nodup_range) hfull

section Undisturbed

variable {s : State} {g : Engine} {p : Pending} {i : Instr}

/-- A command that is one pass, on an undisturbed buffer: each butterfly leaves its function of the samples before in
its slots (R59, R105). -/
theorem State.Undisturbed.exec_pass {ev : TraceEvent} {f : Nat → Quad → Quad} {places : List Place}
    (h : s.Undisturbed g p) (htouches : i.touchesBuffer = true) (hstage : stageOk i g)
    (hbody : bodyOf i (g.job s.active p) s = s.pass (g.job s.active p) ev f places)
    (hperm : (slotsOf places).Perm (List.range g.fftLen.toNat)) :
    ∃ t, exec i s = .next t ∧ t.engines[s.active]? = some (g.completed [ev])
      ∧ sameOutside p.base.toNat (bufferEnd g p) s t
      ∧ ∀ pl ∈ places, ∀ v, s.quadAt p.base.toNat pl.slots = some v →
          t.quadAt p.base.toNat pl.slots = some (f pl.base v) := by
  obtain ⟨m, hrun, hresult⟩ := State.pass_alone (j := g.job s.active p) ev f hperm h.on.alone h.full
  obtain ⟨t, ht, hmem, hout, hengine⟩ := h.checked.exec_clean h.clean h.apart htouches hstage (hbody.trans hrun)
  refine ⟨t, ht, hengine [ev] (Job.traceIn_traceEvent _ ev s), hout, fun pl hpl v hv => ?_⟩
  rw [State.quadAt_eq, hmem]
  exact hresult.quads pl hpl v hv

theorem modifierAt_zero (twidMod : Nat) : modifierAt twidMod 0 = twidMod := by
  rw [modifierAt, Nat.pow_zero, Nat.mul_one]

/-- Settles O25: group `k` is one of the places of the Stage-1 pass. -/
theorem stage1PassResult : Obligations.Stage1PassResult := by
  unfold Obligations.Stage1PassResult
  intro dir s g p h
  obtain ⟨t, ht, hengine, hout, hquads⟩ := h.exec_pass (i := stage1Of dir) (by cases dir <;> rfl)
    (by cases dir <;> nofun) (by rw [bodyOf_stage1Of]; rfl) (perm_slotsOf_stage1Places _ h.supported)
  rw [show (g.job s.active p).twidMod = g.twidMod.toNat from rfl, modifierAt_zero] at hengine
  refine ⟨t, ht, hengine, hout, fun k hk v hv => ?_⟩
  have hplace := hquads _ (List.mem_map.2 ⟨k, List.mem_range.2 hk, rfl⟩) v hv
  rw [show (g.job s.active p).twidMod = g.twidMod.toNat from rfl, modifierAt_zero] at hplace
  exact hplace

/-- Settles O26: the butterfly at position `j` of sub-block `m` is one of the places of the middle pass. -/
theorem middlePassResult : Obligations.MiddlePassResult := by
  unfold Obligations.MiddlePassResult
  intro dir stage s g p h hlo hhi
  have hstage : stageOk (middleOf dir stage) g := fun k hk => by
    rw [stageOperand_middleOf] at hk
    obtain rfl := Option.some.inj hk
    exact ⟨hlo, hhi⟩
  obtain ⟨t, ht, hengine, hout, hquads⟩ := h.exec_pass (i := middleOf dir stage) (by cases dir <;> rfl) hstage
    (by rw [bodyOf_middleOf]; rfl) (perm_slotsOf_middlePlaces _ h.supported hhi)
  refine ⟨t, ht, hengine, hout, fun j m hj hm v hv => ?_⟩
  obtain ⟨q, hblocks⟩ : ∃ q, g.fftLen.toNat = 4 * q * 4 ^ stage := supported_blocks h.supported hhi
  have hblock : g.fftLen.toNat / 4 ^ stage = 4 * q := by
    rw [hblocks, Nat.mul_div_cancel _ (by positivity)]
  rw [hblock, Nat.mul_div_cancel_left q (by decide)] at hj hv ⊢
  refine hquads { slots := spaced (j + m * (4 * q)) q, base := j * modifierAt g.twidMod.toNat stage } ?_ v hv
  rw [middlePlaces_eq _ hblocks]
  exact List.mem_flatMap.2 ⟨j, List.mem_range.2 hj, List.mem_map.2 ⟨m, List.mem_range.2 hm, rfl⟩⟩

/-- Settles O27: group `k` is one of the places of the last pass. -/
theorem lastPassResult : Obligations.LastPassResult := by
  unfold Obligations.LastPassResult
  intro dir s g p h
  obtain ⟨t, ht, hengine, hout, hquads⟩ := h.exec_pass (i := lastOf dir) (by cases dir <;> rfl)
    (by cases dir <;> nofun) (by rw [bodyOf_lastOf]; rfl) (perm_slotsOf_lastPlaces h.supported)
  exact ⟨t, ht, hengine, hout, fun k hk v hv => hquads _ (List.mem_map.2 ⟨k, List.mem_range.2 hk, rfl⟩) v hv⟩

/-! ### The bit reversal -/

/-- Settles O28: each swap exchanges the samples of an index and its reverse, and only these are read. -/
theorem bitrevPassResult : Obligations.BitrevPassResult := by
  unfold Obligations.BitrevPassResult
  intro s g p hl hvalid hd hfits halone hclean hapart hwritten
  have h : s.Checked g p := ⟨hl, hvalid, hd, hfits⟩
  obtain ⟨m, hrun, -, hsamples⟩ := bitrevBody_alone (j := g.job s.active p) h.supported halone hwritten
  obtain ⟨t, ht, hmem, hout, hengine⟩ := h.exec_clean (i := .bitrev) hclean hapart rfl nofun hrun
  refine ⟨t, ht, hengine [.br] (Job.traceIn_traceEvent _ .br s), hout, fun i hi => ?_⟩
  rw [State.sampleAt_eq, hmem]
  exact hsamples i hi

/-! ### `TRANSFORM` -/

/-- The events of the components are those of `TRANSFORM` (R143). -/
theorem componentCommands_events (g : Engine) (e : Nat) (p : Pending) :
    (componentCommands g).flatMap (g.job e p).passEvents = transformEvents g := by
  have hs1 : (g.job e p).passEvents (stage1Of g.dir) = [.s1 g.dir g.twidMod.toNat] := by
    cases g.dir <;> simp only [stage1Of, Job.passEvents, modifierAt_zero] <;> rfl
  have hmid : ∀ k, (g.job e p).passEvents (middleOf g.dir k) = [.mid g.dir k (g.twidMod.toNat * 4 ^ k)] := fun k => by
    cases g.dir <;> rfl
  have hlast : (g.job e p).passEvents (lastOf g.dir) = [.last g.dir] := by cases g.dir <;> rfl
  have hbr : (if g.bitrev then [Instr.bitrev] else []).flatMap (g.job e p).passEvents
      = if g.bitrev then [.br] else [] := by cases g.bitrev <;> rfl
  rw [componentCommands_eq, List.flatMap_append, List.flatMap_append, List.flatMap_append, List.flatMap_singleton,
    List.flatMap_singleton, List.flatMap_map, hs1, hlast, hbr]
  simp only [hmid]
  rw [← List.map_eq_flatMap]
  rfl

/-- Settles O31: the body is the bodies of the components, whose events follow one another. -/
theorem transformTrace : Obligations.TransformTrace := by
  unfold Obligations.TransformTrace
  intro s g p h
  obtain ⟨u, hu⟩ := h.body_total (i := .transform) nofun
  have hlogs : (g.job s.active p).Logs (transformEvents g) (bodyOf .transform (g.job s.active p)) := by
    rw [show bodyOf .transform (g.job s.active p) = _ from transformBody_eq_components g s.active p,
      ← componentCommands_events g s.active p]
    refine Job.Logs.each (fun i hi P => ?_) fun i hi => ?_ <;> obtain ⟨hsingle, -, hstage⟩ := componentCommands_legal hi
    · exact bodyOf_computes h.supported hsingle hstage
    · exact bodyOf_logs h.supported hsingle hstage
  obtain ⟨t, ht, -, hout, hengine⟩ := h.checked.exec_clean (i := .transform) h.clean h.apart rfl nofun hu
  exact ⟨t, ht, hengine _ (hlogs s u h.on.alone h.full hu), hout⟩

/-! ### The commands that read no twiddle -/

/-- The ROM is nothing an undisturbed command's conditions depend on. -/
theorem State.Undisturbed.withRom (h : s.Undisturbed g p) (rom : TwiddleRom) :
    State.Undisturbed { s with params := { s.params with twiddleRom := rom } } g p where
  engine := h.engine
  pending := h.pending
  valid := h.valid
  descriptor := h.descriptor
  fits := h.fits
  written := h.written
  alone := h.alone
  clean := h.clean
  apart := h.apart

/-- Memories that hold the same four samples hold the same sample in each slot. -/
theorem Memory.sample_eq_of_quad {m m' : Memory} {base k : Nat} {sl : Slots} {v : Quad}
    (h : Memory.quad m base sl = some v) (h' : Memory.quad m' base sl = some v) (hk : k ∈ sl.list) :
    (Memory.sample m base k).isSome = true ∧ Memory.sample m' base k = Memory.sample m base k := by
  obtain ⟨h₀, h₁, h₂, h₃⟩ := Memory.quad_eq_some.1 h
  obtain ⟨h₀', h₁', h₂', h₃'⟩ := Memory.quad_eq_some.1 h'
  simp only [Slots.list, List.mem_cons, List.not_mem_nil, or_false] at hk
  rcases hk with rfl | rfl | rfl | rfl
  · simp [h₀, h₀']
  · simp [h₁, h₁']
  · simp [h₂, h₂']
  · simp [h₃, h₃']

/-- Completed passes of the last stage on the same memory leave the same bytes, whatever the ROM (R124). -/
theorem lastStage_ignores_rom (h : s.Undisturbed g p) (dir : Dir) (rom : TwiddleRom) :
    ∃ t u, exec (lastOf dir) s = .next t
      ∧ exec (lastOf dir) { s with params := { s.params with twiddleRom := rom } } = .next u
      ∧ ∀ b, Memory.readByte u.mem b = Memory.readByte t.mem b := by
  obtain ⟨t, ht, -, hout, hquads⟩ := lastPassResult dir s g p h
  obtain ⟨u, hu, -, hout', hquads'⟩ := lastPassResult dir _ g p (h.withRom rom)
  have hsamples : ∀ k, k < g.fftLen.toNat → (Memory.sample t.mem p.base.toNat k).isSome = true
      ∧ Memory.sample u.mem p.base.toNat k = Memory.sample t.mem p.base.toNat k := fun k hk => by
    have hquarters : g.fftLen.toNat = 4 * (g.fftLen.toNat / 4) := supported_quarters h.supported
    have hgroup : k / 4 < g.fftLen.toNat / 4 := by omega
    obtain ⟨v, hv⟩ := Memory.quad_of_written (m := s.mem) (base := p.base.toNat) (sl := spaced (4 * (k / 4)) 1)
      (n := g.fftLen.toNat) (by unfold Slots.within spaced; dsimp only; omega) h.full
    refine Memory.sample_eq_of_quad (hquads _ hgroup v hv) (hquads' _ hgroup v hv) ?_
    simp only [Slots.list, spaced, List.mem_cons, List.not_mem_nil, or_false]
    omega
  refine ⟨t, u, ht, hu, Memory.readByte_eq_of_samples (j := g.job s.active p) (fun k hk => (hsamples k hk).1)
    (fun b hb => (hout' b hb).trans (hout b hb).symm) fun k hk => (hsamples k hk).2⟩

/-- Completed bit reversals of the same memory leave the same bytes, whatever the ROM (R134). -/
theorem bitrev_ignores_rom (h : s.Undisturbed g p) (rom : TwiddleRom) :
    ∃ t u, exec .bitrev s = .next t
      ∧ exec .bitrev { s with params := { s.params with twiddleRom := rom } } = .next u
      ∧ ∀ b, Memory.readByte u.mem b = Memory.readByte t.mem b := by
  obtain ⟨t, ht, -, hout, hsamples⟩ := bitrevPassResult s g p h.toLatched h.valid h.descriptor h.fits h.alone h.clean
    h.apart fun i hi _ => h.full i hi
  have h' := h.withRom rom
  obtain ⟨u, hu, -, hout', hsamples'⟩ := bitrevPassResult _ g p h'.toLatched h'.valid h'.descriptor h'.fits h'.alone
    h'.clean h'.apart fun i hi _ => h'.full i hi
  refine ⟨t, u, ht, hu, Memory.readByte_eq_of_samples (j := g.job s.active p) (fun k hk => ?_)
    (fun b hb => (hout' b hb).trans (hout b hb).symm) fun k hk => (hsamples' k hk).trans (hsamples k hk).symm⟩
  exact (congrArg Option.isSome (hsamples k hk)).trans (h.full _ (revIndex_lt h.supported k))

end Undisturbed

/-- Settles O36: with either ROM each sample is the same function of the same samples. -/
theorem lastStageAndBitrevIgnoreTwiddles : Obligations.LastStageAndBitrevIgnoreTwiddles := by
  unfold Obligations.LastStageAndBitrevIgnoreTwiddles
  rintro i rom s g p (rfl | rfl | rfl) h
  · exact lastStage_ignores_rom h .fwd rom
  · exact lastStage_ignores_rom h .inv rom
  · exact bitrev_ignores_rom h rom

end Sys2Proof.Machine
end

section
/-! PROOF. Zero input (R145 c, O32), the words a command accesses and which engines that disturbs (R47, R162, O35),
and the faults on unwritten words (R163, O59, O60). -/

namespace Sys2Proof.Machine

open Sys2Proof Sys2Proof.Claims

/-! ### Zero input -/

/-- The zero sample. -/
def zeroCx : Cx := { re := 0, im := 0 }

/-- The zero butterfly. -/
def zeroQuad : Quad := { s0 := zeroCx, s1 := zeroCx, s2 := zeroCx, s3 := zeroCx }

theorem zero_mulhi (x : Word) : mulhi 0#32 x = 0#32 := by simp [mulhi, wrap32]

theorem combos_zero : combos zeroQuad = { sum := zeroCx, alt := zeroCx, qf := zeroCx, qi := zeroCx } := by decide

/-- A rotation of zero is zero, by any twiddle (R93, R94). -/
theorem rot_zero (dir : Dir) (tw : Word × Word) : rot dir zeroCx tw = zeroCx := by
  have hadd : add32 0#32 0#32 = 0#32 := by decide
  have hsub : sub32 0#32 0#32 = 0#32 := by decide
  cases dir <;> simp [rot, rotF, rotI, zeroCx, zero_mulhi, hadd, hsub]

theorem rotated_zero (tw : Nat → Word × Word) (dir : Dir) (k : Nat) :
    rotated tw dir k (combos zeroQuad) = zeroQuad := by
  cases dir <;> simp only [rotated, combos_zero, Combos.first, Combos.second, rot_zero] <;> rfl

theorem stage1Quad_zero (tw : Nat → Word × Word) (dir : Dir) (k : Nat) : stage1Quad tw dir k zeroQuad = zeroQuad := by
  have hin : mapQuad (fun x => asr x 4) zeroQuad = zeroQuad := by decide
  have hout : mapCx shl1 zeroCx = zeroCx := by decide
  simp only [stage1Quad, hin, rotated_zero]
  simp only [zeroQuad, hout]

theorem middleQuad_zero (tw : Nat → Word × Word) (dir : Dir) (k : Nat) : middleQuad tw dir k zeroQuad = zeroQuad := by
  have hout : mapCx (fun x => asr x 2) zeroCx = zeroCx ∧ mapCx (fun x => asr x 1) zeroCx = zeroCx := by decide
  simp only [middleQuad, rotated_zero]
  simp only [zeroQuad, hout]

theorem lastQuad_zero (mode : SatMode) (dir : Dir) : lastQuad mode dir zeroQuad = zeroQuad := by
  cases dir <;> cases mode <;> decide

/-- The job has its buffer to itself and every sample of it is zero. -/
def Job.Blank (j : Job) (s : State) : Prop :=
  j.alone s ∧ ∀ i, i < j.n → Memory.sample s.mem j.base i = some zeroCx

section Blank

variable {j : Job} {s : State}

theorem Job.Blank.writeSample {m : Memory} (h : j.Blank (s.withMem m)) (i : Nat) :
    j.Blank (s.withMem (Memory.writeSample m j.base i zeroCx)) := by
  refine ⟨h.1, fun k hk => ?_⟩
  rw [State.withMem_mem, Memory.sample_writeSample]
  split
  · rfl
  · exact h.2 k hk

/-- A butterfly that takes zero to zero keeps a zero buffer. -/
theorem Job.Blank.butterfly {f : Nat → Quad → Quad} (hf : ∀ k, f k zeroQuad = zeroQuad) {p : Place}
    (hi : p.slots.within j.n) (h : j.Blank s) : ∃ t, State.butterfly j f p s = .ok t ∧ j.Blank t := by
  obtain ⟨h₀, h₁, h₂, h₃⟩ := hi
  have hquad : Memory.quad s.mem j.base p.slots = some zeroQuad :=
    Memory.quad_eq_some.2 ⟨h.2 _ h₀, h.2 _ h₁, h.2 _ h₂, h.2 _ h₃⟩
  refine ⟨_, State.butterfly_alone h.1 ⟨h₀, h₁, h₂, h₃⟩ hquad, ?_⟩
  rw [hf]
  have hstart : j.Blank (s.withMem s.mem) := h
  exact (((hstart.writeSample _).writeSample _).writeSample _).writeSample _

theorem Job.Blank.swapSamples {p : Nat × Nat} (h₁ : p.1 < j.n) (h₂ : p.2 < j.n) (h : j.Blank s) :
    ∃ t, State.swapSamples j p s = .ok t ∧ j.Blank t := by
  refine ⟨_, State.swapSamples_alone h.1 h₁ h₂ (h.2 _ h₁) (h.2 _ h₂), ?_⟩
  have hstart : j.Blank (s.withMem s.mem) := h
  exact (hstart.writeSample _).writeSample _

theorem Job.Blank.traceEvent (h : j.Blank s) (ev : TraceEvent) : j.Blank (s.traceEvent j ev) :=
  ⟨Job.alone_traceEvent h.1 ev, h.2⟩

theorem Job.Blank.pass {ev : TraceEvent} {f : Nat → Quad → Quad} (hf : ∀ k, f k zeroQuad = zeroQuad)
    {places : List Place} (hi : ∀ p ∈ places, p.slots.within j.n) (h : j.Blank s) :
    ∃ t, s.pass j ev f places = .ok t ∧ j.Blank t :=
  runEach_total (fun p hp _ hs => Job.Blank.butterfly hf (hi p hp) hs) (h.traceEvent ev)

/-- Each single pass of a supported length keeps a zero buffer (R145 c). -/
theorem Job.Blank.body {i : Instr} (hn : supported j.n = true) (hi : i ≠ .transform)
    (hstage : ∀ k, i.stageOperand = some k → 1 ≤ k ∧ k ≤ log4 j.n - 2) (h : j.Blank s) :
    ∃ t, bodyOf i j s = .ok t ∧ j.Blank t := by
  cases i with
  | init => exact ⟨s, rfl, h⟩
  | transform => exact absurd rfl hi
  | stage1Fwd | stage1Inv => exact h.pass (stage1Quad_zero _ _) fun _ => stage1Places_within
  | middleFwd k | middleInv k =>
    exact h.pass (middleQuad_zero _ _) fun _ => middlePlaces_within hn (hstage k rfl).2
  | lastFwd | lastInv => exact h.pass (fun _ => lastQuad_zero _ _) fun _ => lastPlaces_within
  | bitrev =>
    exact runEach_total
      (fun p hp _ hs => Job.Blank.swapSamples (swapPairs_within hn hp).1 (swapPairs_within hn hp).2 hs)
      (h.traceEvent .br)

end Blank

/-- Settles O32: every component of `TRANSFORM` keeps a zero buffer, as every butterfly takes zero to zero. -/
theorem zeroInputGivesZeroOutput : Obligations.ZeroInputGivesZeroOutput := by
  unfold Obligations.ZeroInputGivesZeroOutput
  intro s g p h hzero
  obtain ⟨u, hu, hblank⟩ := runEach_total (P := (g.job s.active p).Blank) (fun i hi t ht =>
    let ⟨hsingle, _, hstage⟩ := componentCommands_legal (g := g) hi
    Job.Blank.body h.supported hsingle hstage ht) ⟨h.on.alone, hzero⟩
  rw [← transformBody_eq_components] at hu
  obtain ⟨t, ht, hmem, -⟩ := h.checked.exec_clean (i := .transform) h.clean h.apart rfl nofun hu
  refine ⟨t, ht, fun i hi => ?_⟩
  rw [State.sampleAt_eq, hmem]
  exact hblank.2 i hi

/-! ### The words a command accesses -/

/-- The words of samples are those whose sample is listed (R45). -/
theorem mem_sampleWords_iff {base a : Nat} {is : List Nat} :
    a ∈ sampleWords base is ↔ base ≤ a ∧ (a - base) / 2 ∈ is := by
  rw [mem_sampleWords]
  unfold reAddr imAddr
  constructor
  · rintro ⟨i, hi, ha⟩
    have hindex : (a - base) / 2 = i := by omega
    exact ⟨by omega, hindex ▸ hi⟩
  · rintro ⟨hbase, hi⟩
    exact ⟨_, hi, by omega⟩

/-- The samples after the Stage-1 pass of `TRANSFORM` are samples of the buffer (R142). -/
theorem lt_of_mem_laterSamples {j : Job} {k : Nat} (hn : supported j.n = true) (hk : k ∈ laterSamples j) : k < j.n := by
  have covered : ∀ {l : List Nat}, l.Perm (List.range j.n) → k ∈ l → k < j.n := fun hperm hmem =>
    List.mem_range.1 (hperm.mem_iff.1 hmem)
  simp only [laterSamples, List.mem_append, List.mem_flatMap, List.mem_range'_1] at hk
  rcases hk with ⟨s, hs, hk⟩ | hk | hk
  · exact covered (perm_slotsOf_middlePlaces _ hn (by omega)) hk
  · exact covered (perm_slotsOf_lastPlaces hn) hk
  · split at hk
    · exact ((mem_swapped_swapPairs hn).1 hk).1
    · cases hk

/-- The samples a legal command accesses: all of them, or those that move for `BITREV` (R102, R112, R121, R132). -/
theorem mem_bodySamples {i : Instr} {j : Job} {k : Nat} (htouches : i.touchesBuffer = true) (hn : supported j.n = true)
    (hstage : ∀ k, i.stageOperand = some k → 1 ≤ k ∧ k ≤ log4 j.n - 2) :
    k ∈ bodySamples j i ↔ k < j.n ∧ (i = .bitrev → revIndex j.n k ≠ k) := by
  have covered : ∀ {l : List Nat}, l.Perm (List.range j.n) → (k ∈ l ↔ k < j.n) := fun hperm =>
    hperm.mem_iff.trans List.mem_range
  have hstage1 := covered (perm_slotsOf_stage1Places j.twidMod hn)
  cases i with
  | init => cases htouches
  | transform =>
    simp only [bodySamples, List.mem_append, hstage1, reduceCtorEq, false_implies, and_true]
    exact or_iff_left_of_imp (lt_of_mem_laterSamples hn)
  | stage1Fwd | stage1Inv => simpa [bodySamples] using hstage1
  | middleFwd k | middleInv k =>
    simpa [bodySamples] using covered (perm_slotsOf_middlePlaces j.twidMod hn (hstage k rfl).2)
  | lastFwd | lastInv => simpa [bodySamples] using covered (perm_slotsOf_lastPlaces hn)
  | bitrev => simpa [bodySamples] using mem_swapped_swapPairs hn

section Commands

variable {s t : State} {g : Engine} {p : Pending} {i : Instr}

/-- The words of the samples a legal command accesses are the words the claims speak of (R102, R112, R121, R132). -/
theorem State.Checked.mem_bodyWords (h : s.Checked g p) (htouches : i.touchesBuffer = true) (hstage : stageOk i g)
    {a : Nat} : a ∈ sampleWords p.base.toNat (bodySamples (g.job s.active p) i) ↔ accesses i g p a := by
  rw [mem_sampleWords_iff, mem_bodySamples htouches h.supported hstage]
  have hsample : p.base.toNat ≤ a → ((a - p.base.toNat) / 2 < g.fftLen.toNat ↔ a < bufferEnd g p) := fun hlo => by
    unfold bufferEnd
    omega
  exact and_congr_right fun hlo => and_congr_left fun _ => hsample hlo

/-! ### The frame of a command -/

/-- What a completed command leaves unchanged, hazards or not (R47, R105). -/
theorem State.Checked.completed_frame (h : s.Checked g p) (hstage : stageOk i g) {u : State}
    (hu : bodyOf i (g.job s.active p) s = .ok u) :
    sameOutside p.base.toNat (bufferEnd g p) s (u.completeOn p.base.toNat (bufferEnd g p))
      ∧ ∃ k evs, (u.completeOn p.base.toNat (bufferEnd g p)).engines[s.active]? = some (k.finish .ok)
          ∧ g.sameRegisters k ∧ k.hazard = g.hazard ∧ k.trace = g.trace ++ evs := by
  have hframe := bodyOf_frame_words h.supported hstage hu
  obtain ⟨k, hk, hkept⟩ := hframe.engines s.active g h.engine
  obtain ⟨evs, htrace, -⟩ := hkept.trace
  refine ⟨fun b hb => ?_, k, evs, State.completeOn_active_engine hframe.active hk _ _, hkept.registers,
    (hkept.quiet (beq_self_eq_true _)).1, htrace⟩
  rw [State.completeOn_mem, State.settle_outside _ _ u b hb]
  refine hframe.outside b fun hword => ?_
  have hlo : p.base.toNat ≤ b / 4 := hword.1
  have hhi : b / 4 < bufferEnd g p := hword.2
  omega

/-- Another engine after a command that ran to its end: disturbed where it owns an accessed word, and told that the
command is over (R161, R162). -/
theorem State.Checked.exec_other (h : s.Checked g p) (htouches : i.touchesBuffer = true) (hstage : stageOk i g)
    (ht : exec i s = .next t) {k : Nat} {g' : Engine} (hk : k ≠ s.active) (hg' : s.engines[k]? = some g') :
    ((∃ a, accesses i g p a ∧ g'.ownsWord s.params.memWords a = true) →
      t.engines[k]? = some { g' with
        hazard := true, spoilt := true, overlaps := withPartnerDone s.active g'.overlaps })
    ∧ ((∀ a, accesses i g p a → g'.ownsWord s.params.memWords a = false) →
      t.engines[k]? = some { g' with overlaps := withPartnerDone s.active g'.overlaps }) := by
  rw [exec_others htouches h.toLatched (h.bufferCheck hstage) ht hk hg']
  refine ⟨fun ⟨a, ha, howns⟩ => ?_, fun hnone => ?_⟩
  · rw [Engine.accessed_of_owned ((h.mem_bodyWords htouches hstage).2 ha) howns]
    rfl
  · have hwords : ∀ a ∈ sampleWords p.base.toNat (bodySamples (g.job s.active p) i),
        g'.ownsWord s.params.memWords a = false := fun a ha => hnone a ((h.mem_bodyWords htouches hstage).1 ha)
    rw [Engine.accessed_of_not_owned hwords hwords]
    rfl

/-- Settles O35: a command stopped by a check changes its own status only; any other changes the words of its buffer,
its own trace and status, and the owners of the words it accesses. -/
theorem bufferCommandFrame : Obligations.BufferCommandFrame := by
  unfold Obligations.BufferCommandFrame
  intro i s t g p htouches hl hd ht
  have hrun := ht
  rw [exec_eq_runBuffer htouches] at hrun
  obtain ⟨g', p', hl', hcase⟩ := State.runBuffer_next hrun
  obtain rfl := Option.some.inj (hl.engine.symm.trans hl'.engine)
  obtain rfl := Option.some.inj (hl.pending.symm.trans hl'.pending)
  rcases hcase with ⟨hfails, rfl⟩ | ⟨hcheck, u, hu, rfl⟩
  · generalize g.bufferCheck s.params.memWords i.stageOperand p.base = r at hfails
    refine ⟨rfl, rfl, rfl, rfl, List.length_modify .., fun _ _ => rfl, g.finish r, [], ?_, g.sameRegisters_refl,
      rfl, rfl, (List.append_nil _).symm, rfl, rfl, fun k g' hk hg' => ⟨fun hok => absurd hok hfails, fun _ => ?_⟩⟩
    · simp [hl.engine]
    · simp [hg', Ne.symm hk]
  · obtain ⟨hvalid, hstage, hfits⟩ := Engine.bufferCheck_ok.1 hcheck
    have h : s.Checked g p := ⟨hl, hvalid, hd, hfits⟩
    obtain ⟨hout, k, evs, hk, hregs, hhazard, htrace⟩ := h.completed_frame hstage hu
    have hframe := bodyOf_frame hu
    exact ⟨(State.completeOn_params ..).trans hframe.params, (State.completeOn_active ..).trans hframe.active,
      (State.completeOn_schedule ..).trans hframe.schedule, (State.completeOn_hostData ..).trans hframe.hostData,
      (exec_evolves (who := none) ht).count, hout, k.finish .ok, evs, hk, hregs, hhazard, rfl, htrace, rfl, rfl,
      fun l g' hl hg' => ⟨fun _ => h.exec_other htouches hstage ht hl hg', fun hne => absurd rfl hne⟩⟩

/-! ### Unwritten words -/

/-- A conditional in a list of pieces is a filter. -/
theorem flatMap_filter {α β : Type} (q : α → Bool) (f : α → List β) (l : List α) :
    (l.filter q).flatMap f = l.flatMap (fun x => if q x then f x else []) := by
  induction l with
  | nil => rfl
  | cons x l ih => cases hq : q x <;> simp [hq, ih]

/-- The swaps in loop order (R130). -/
theorem swapped_swapPairs_eq (n : Nat) :
    swapped (swapPairs n) = (List.range n).flatMap (fun i => if i < revIndex n i then [i, revIndex n i] else []) := by
  rw [swapped, swapPairs, flatMap_filter, List.flatMap_map]
  simp only [decide_eq_true_eq]

/-- The bodies read in the order of the pseudocode; `TRANSFORM` begins with its Stage-1 pass (R100, R110, R120, R130,
R142). -/
theorem bodySamples_eq {j : Job} (hn : supported j.n = true)
    (hstage : ∀ k, i.stageOperand = some k → 1 ≤ k ∧ k ≤ log4 j.n - 2) :
    ∃ later, bodySamples j i = readOrder j.n i ++ later := by
  have stage1 : slotsOf (stage1Places j.n j.twidMod) = readOrder j.n .stage1Fwd := List.flatMap_map ..
  have last : slotsOf (lastPlaces j.n) = readOrder j.n .lastFwd := List.flatMap_map ..
  have middle : ∀ k, k ≤ log4 j.n - 2 → slotsOf (middlePlaces j.n j.twidMod k) = readOrder j.n (.middleFwd k) :=
    fun k hk => by
      obtain ⟨q, hblocks⟩ := supported_blocks hn hk
      have hblock : j.n / 4 ^ k = 4 * q := by rw [hblocks, Nat.mul_div_cancel _ (by positivity)]
      rw [slotsOf_middlePlaces _ hblocks, readOrder, hblock]
  cases i with
  | transform => exact ⟨laterSamples j, congrArg (· ++ laterSamples j) stage1⟩
  | init => exact ⟨[], rfl⟩
  | stage1Fwd | stage1Inv => exact ⟨[], stage1.trans (List.append_nil _).symm⟩
  | middleFwd k | middleInv k => exact ⟨[], (middle k (hstage k rfl).2).trans (List.append_nil _).symm⟩
  | lastFwd | lastInv => exact ⟨[], last.trans (List.append_nil _).symm⟩
  | bitrev => exact ⟨[], (swapped_swapPairs_eq j.n).trans (List.append_nil _).symm⟩

/-- A command faults at the first word of its access order that is unwritten (R163). -/
theorem State.Checked.exec_faults_at (h : s.Checked g p) (htouches : i.touchesBuffer = true) (hstage : stageOk i g)
    {before after : List Nat} {a : Nat} (hread : readWords i g p = before ++ a :: after)
    (hbefore : ∀ b ∈ before, s.isWritten b) (ha : Memory.readWord s.mem a = none) :
    exec i s = .fault (.unwrittenRead s.active a) := by
  obtain ⟨later, hlater⟩ := bodySamples_eq h.supported hstage
  have horder : sampleWords p.base.toNat (bodySamples (g.job s.active p) i)
      = before ++ a :: (after ++ sampleWords p.base.toNat later) := by
    have hfirst : sampleWords p.base.toNat (readOrder (g.job s.active p).n i) = before ++ a :: after := hread
    rw [hlater, sampleWords_append, hfirst, List.append_assoc, List.cons_append]
  exact exec_faults htouches h.toLatched (h.bufferCheck hstage) horder hbefore (State.not_isWritten.2 ha)

/-- Settles O59: of the words accessed one is the first unwritten in the order of reading, and there the body stops.
-/
theorem unwrittenBufferFaults : Obligations.UnwrittenBufferFaults := by
  unfold Obligations.UnwrittenBufferFaults
  intro i s g p htouches hl hvalid hd hstage hfits
  have h : s.Checked g p := ⟨hl, hvalid, hd, hfits⟩
  refine ⟨fun a ha hnone => ?_, fun before a after hread hbefore => h.exec_faults_at htouches hstage hread hbefore⟩
  have hwords := fun b => h.mem_bodyWords htouches hstage (a := b)
  rcases first_failing (P := s.isWritten) (sampleWords p.base.toNat (bodySamples (g.job s.active p) i)) with
    hall | ⟨pre, b, post, hsplit, hpre, hb⟩
  · exact absurd (hall a ((hwords a).2 ha)) (State.not_isWritten.2 hnone)
  · exact ⟨b, (hwords b).1 (hsplit ▸ by simp), State.not_isWritten.1 hb,
      exec_faults htouches hl (h.bufferCheck hstage) hsplit hpre hb⟩

/-! ### The last stage reads by rising address -/

/-- Groups of four contiguous samples, one after another (R120). -/
theorem flatMap_groups (q : Nat) :
    (List.range q).flatMap (fun k => [4 * k, 4 * k + 1, 4 * k + 2, 4 * k + 3]) = List.range (4 * q) := by
  induction q with
  | zero => rfl
  | succ q ih => simp [List.range_succ, ih, Nat.mul_succ]

/-- The words of contiguous samples, one after another (R45). -/
theorem sampleWords_range (base n : Nat) : sampleWords base (List.range n) = List.range' base (2 * n) := by
  induction n with
  | zero => rfl
  | succ n ih =>
    rw [List.range_succ, sampleWords_append, ih, Nat.mul_succ, ← List.range'_append_1]
    simp [sampleWords, reAddr, imAddr, List.range'_succ]

theorem readWords_lastOf (hn : supported g.fftLen.toNat = true) (dir : Dir) :
    readWords (lastOf dir) g p = List.range' p.base.toNat (2 * g.fftLen.toNat) := by
  have horder : readOrder g.fftLen.toNat (lastOf dir) = List.range g.fftLen.toNat := by
    cases dir <;> exact (flatMap_groups _).trans (congrArg _ (supported_quarters hn).symm)
  exact (congrArg (sampleWords p.base.toNat) horder).trans (sampleWords_range _ _)

/-- Settles O60: the last stage reads the buffer by rising address, so the lowest unwritten word is the first. -/
theorem lastStageFaultsAtTheFirstUnwrittenWord : Obligations.LastStageFaultsAtTheFirstUnwrittenWord := by
  unfold Obligations.LastStageFaultsAtTheFirstUnwrittenWord
  intro dir s g p a hl hvalid hd hfits hlo hhi hnone hbelow
  have h : s.Checked g p := ⟨hl, hvalid, hd, hfits⟩
  have hlen : 2 * g.fftLen.toNat = (a - p.base.toNat) + (bufferEnd g p - a - 1 + 1) := by
    unfold bufferEnd at hhi ⊢
    omega
  have hread : readWords (lastOf dir) g p
      = List.range' p.base.toNat (a - p.base.toNat) ++ a :: List.range' (a + 1) (bufferEnd g p - a - 1) := by
    rw [readWords_lastOf h.supported, hlen, ← List.range'_append_1, Nat.add_sub_cancel' hlo, List.range'_succ]
  refine h.exec_faults_at (by cases dir <;> rfl) (by cases dir <;> nofun) hread (fun b hb => ?_) hnone
  obtain ⟨hb₁, hb₂⟩ := List.mem_range'_1.1 hb
  exact hbelow b hb₁ (by omega)

end Commands

end Sys2Proof.Machine
end

section
/-! PROOF. What a command computes whatever ranges overlap, and which words its completion leaves unspecified (R161,
R162, O51). -/

namespace Sys2Proof.Machine

open Sys2Proof Sys2Proof.Claims

/-! ### One phase -/

/-- The active engine, the parameters and the foreign words are those of `s`. -/
structure State.SameOwners (s u : State) : Prop where
  active : u.active = s.active
  params : u.params = s.params
  foreign : ∀ a, u.foreign (some s.active) a = s.foreign (some s.active) a

section Phases

variable {s u v : State} {g : Engine} {p : Pending}

theorem State.SameOwners.frame (h : s.SameOwners u) {W : Nat → Prop} (hf : BodyFrame s.active W u v) : s.SameOwners v :=
  ⟨hf.active.trans h.active, hf.params.trans h.params, fun a => (hf.foreign _ a).trans (h.foreign a)⟩

/-- With the owners of `s` the engine may read of a memory what it may read in any state with that memory (R162). -/
theorem State.SameOwners.seesSample (h : s.SameOwners u) {base k : Nat} {x : Cx} (hx : u.seesSample base k x) :
    ({ s with mem := u.mem } : State).seesSample base k x := by
  have hsame : SameSample base k u { s with mem := u.mem } :=
    ⟨h.active.symm, fun a => by rw [h.active]; exact (h.foreign a).symm, rfl, rfl⟩
  exact hsame.sees.2 hx

theorem State.SameOwners.seesQuad (h : s.SameOwners u) {base : Nat} {sl : Slots} {x : Quad}
    (hx : u.seesQuad base sl x) : ({ s with mem := u.mem } : State).seesQuad base sl x :=
  ⟨h.seesSample hx.1, h.seesSample hx.2.1, h.seesSample hx.2.2.1, h.seesSample hx.2.2.2⟩

/-- A pass whose butterflies share no sample is its phase (R102, R112, R121). -/
theorem State.SameOwners.pass {j : Job} {ev : TraceEvent} {f : Nat → Quad → Quad} {places : List Place}
    (h : s.SameOwners u) (hj : j.engine = s.active) (hperm : (slotsOf places).Perm (List.range j.n))
    (hv : u.pass j ev f places = .ok v) : passPhase s j.base places f u.mem v.mem := fun pl hpl => by
  obtain ⟨x, hx, hquad⟩ := State.pass_sees (hj.trans h.active.symm) (hperm.nodup_iff.2 List.nodup_range) hv pl hpl
  exact ⟨x, h.seesQuad hx, hquad⟩

/-- The bit-reversal pass is its phase (R130 to R132). -/
theorem State.SameOwners.reversal {j : Job} (h : s.SameOwners u) (hj : j.engine = s.active)
    (hn : supported j.n = true) (hv : bitrevBody j u = .ok v) : bitrevPhase s j.base j.n u.mem v.mem := by
  obtain ⟨hstay, hswap⟩ := bitrevBody_sees (hj.trans h.active.symm) (swapped_swapPairs_nodup hn) hv
  refine fun k hk => ⟨fun hmoves => ?_, fun hfix a ha => ?_⟩
  · obtain ⟨q, hq, hkq⟩ := mem_swapped.1 ((mem_swapped_swapPairs hn).2 ⟨hk, hmoves⟩)
    obtain ⟨hq₁, hq₂, -⟩ := mem_swapPairs.1 hq
    obtain ⟨x, y, hx, hy, hfst, hsnd⟩ := hswap q hq
    rcases hkq with rfl | rfl
    · rw [hq₂] at hy
      exact ⟨y, h.seesSample hy, hfst⟩
    · have hback : revIndex j.n q.2 = q.1 := by rw [hq₂, revIndex_revIndex hn hq₁]
      rw [← hback] at hx
      exact ⟨x, h.seesSample hx, hsnd⟩
  · have hsame := hstay k fun hmem => ((mem_swapped_swapPairs hn).1 hmem).2 hfix
    simp only [List.mem_cons, List.not_mem_nil, or_false] at ha
    rcases ha with rfl | rfl
    · exact hsame.real
    · exact hsame.imag

/-- The phase of a command with a single pass. -/
def phaseOf (s : State) (g : Engine) (p : Pending) : Instr → Memory → Memory → Prop
  | .init _ _ => fun _ _ => False
  | .transform => fun _ _ => False
  | .stage1Fwd => stage1Phase s g p .fwd
  | .stage1Inv => stage1Phase s g p .inv
  | .middleFwd k => middlePhase s g p .fwd k
  | .middleInv k => middlePhase s g p .inv k
  | .lastFwd => lastPhase s g p .fwd
  | .lastInv => lastPhase s g p .inv
  | .bitrev => bitrevPhase s p.base.toNat g.fftLen.toNat

/-- The body of a command with a single pass computes its phase, whoever owns its words. -/
theorem State.Checked.body_phase (hs : s.Checked g p) {i : Instr} (htouches : i.touchesBuffer = true)
    (hi : i ≠ .transform) (hstage : stageOk i g) (h : s.SameOwners u) (hv : bodyOf i (g.job s.active p) u = .ok v) :
    phaseOf s g p i u.mem v.mem := by
  have hrom : u.twRead = readTwiddle s.params.twiddleRom := funext fun k => by rw [State.twRead, h.params]
  have stage1 : ∀ {dir}, stage1Body dir (g.job s.active p) u = .ok v → stage1Phase s g p dir u.mem v.mem := fun hv => by
    have hphase := h.pass rfl (perm_slotsOf_stage1Places _ hs.supported) hv
    rwa [hrom] at hphase
  have middle : ∀ {dir k}, k ≤ log4 g.fftLen.toNat - 2 → middleBody dir k (g.job s.active p) u = .ok v →
      middlePhase s g p dir k u.mem v.mem := fun hk hv => by
    have hphase := h.pass rfl (perm_slotsOf_middlePlaces _ hs.supported hk) hv
    rwa [hrom] at hphase
  have last : ∀ {dir}, lastBody dir (g.job s.active p) u = .ok v → lastPhase s g p dir u.mem v.mem := fun hv => by
    have hphase := h.pass rfl (perm_slotsOf_lastPlaces hs.supported) hv
    rwa [h.params] at hphase
  cases i with
  | init => cases htouches
  | transform => exact absurd rfl hi
  | stage1Fwd | stage1Inv => exact stage1 hv
  | middleFwd k | middleInv k => exact middle (hstage k rfl).2 hv
  | lastFwd | lastInv => exact last hv
  | bitrev => exact h.reversal rfl hs.supported hv

/-! ### Phases one after another -/

/-- Commands with a single pass have one phase. -/
theorem phasesOf_single {i : Instr} (htouches : i.touchesBuffer = true) (hi : i ≠ .transform) :
    phasesOf s g p i = [phaseOf s g p i] := by
  cases i with
  | init => cases htouches
  | transform => exact absurd rfl hi
  | _ => rfl

/-- The phases of `TRANSFORM` are those of its components (R142, R144). -/
theorem phasesOf_transform : phasesOf s g p .transform = (componentCommands g).map (phaseOf s g p) := by
  have hstage1 : phaseOf s g p (stage1Of g.dir) = stage1Phase s g p g.dir := by cases g.dir <;> rfl
  have hmiddle : phaseOf s g p ∘ middleOf g.dir = middlePhase s g p g.dir := by cases g.dir <;> rfl
  have hlast : phaseOf s g p (lastOf g.dir) = lastPhase s g p g.dir := by cases g.dir <;> rfl
  have hreversal : (if g.bitrev then [Instr.bitrev] else []).map (phaseOf s g p)
      = if g.bitrev then [bitrevPhase s p.base.toNat g.fftLen.toNat] else [] := by cases g.bitrev <;> rfl
  rw [componentCommands_eq, List.map_append, List.map_append, List.map_append, List.map_singleton, List.map_singleton,
    List.map_map, hstage1, hmiddle, hlast, hreversal]
  rfl

/-- Bodies one after another compute their phases one after another (R142). -/
theorem State.Checked.bodies_chain (hs : s.Checked g p) {is : List Instr}
    (his : ∀ i ∈ is, i ≠ .transform ∧ i.touchesBuffer = true ∧ stageOk i g) (h : s.SameOwners u)
    (hv : runEach (fun i => bodyOf i (g.job s.active p)) is u = .ok v) :
    chain (is.map (phaseOf s g p)) u.mem v.mem := by
  induction is generalizing u with
  | nil => exact congrArg State.mem (Except.ok.inj hv).symm
  | cons i is ih =>
    rw [runEach_cons] at hv
    split at hv
    next => cases hv
    next w hw =>
      obtain ⟨hsingle, htouches, hstage⟩ := his i List.mem_cons_self
      exact ⟨w.mem, hs.body_phase htouches hsingle hstage h hw,
        ih (fun k hk => his k (List.mem_cons_of_mem _ hk)) (h.frame (bodyOf_frame hw)) hv⟩

/-- The body of any legal command computes the command's phases, whoever owns its words (R161, R162). -/
theorem State.Checked.body_chain (hs : s.Checked g p) {i : Instr} (htouches : i.touchesBuffer = true)
    (hstage : stageOk i g) (hv : bodyOf i (g.job s.active p) s = .ok v) : chain (phasesOf s g p i) s.mem v.mem := by
  have hself : s.SameOwners s := ⟨rfl, rfl, fun _ => rfl⟩
  by_cases hi : i = .transform
  · subst hi
    rw [phasesOf_transform]
    rw [show bodyOf .transform (g.job s.active p) = _ from transformBody_eq_components g s.active p] at hv
    exact hs.bodies_chain (fun _ => componentCommands_legal) hself hv
  · rw [phasesOf_single htouches hi]
    exact ⟨v.mem, hs.body_phase htouches hi hstage hself hv, rfl⟩

end Phases

/-! ### The completion -/

/-- A word of a spoilt range is left unspecified (R162). -/
theorem Engine.mem_unspecifiedWords_of_spoilt {g : Engine} {lo hi a : Nat} (hs : g.spoilt = true) (hlo : lo ≤ a)
    (hhi : a < hi) : a ∈ g.unspecifiedWords lo hi :=
  List.mem_filter.2 ⟨List.mem_range'_1.2 ⟨hlo, by omega⟩, by rw [hs, Bool.true_or]⟩

/-- A word shared with a command that is over is left unspecified (R161). -/
theorem Engine.mem_unspecifiedWords_of_overlap {g : Engine} {lo hi a : Nat} {o : Overlap} (ho : o ∈ g.overlaps)
    (hdone : o.partnerDone = true) (ha : o.lo ≤ a ∧ a < o.hi) (hlo : lo ≤ a) (hhi : a < hi) :
    a ∈ g.unspecifiedWords lo hi := by
  refine List.mem_filter.2 ⟨List.mem_range'_1.2 ⟨hlo, by omega⟩, ?_⟩
  rw [Bool.or_eq_true, List.any_eq_true]
  exact .inr ⟨o, ho, by rw [hdone, Bool.true_and, decide_eq_true ha]⟩

/-- After a completion each unspecified word holds a free word (R161, R162). -/
theorem State.settle_free {s : State} {g : Engine} (hg : s.engines[s.active]? = some g) {lo hi a : Nat}
    (ha : a ∈ g.unspecifiedWords lo hi) : ∃ n, Memory.readWord (s.settle lo hi).mem a = some (Config.freeWord n) := by
  unfold State.settle
  rw [hg]
  exact State.scramble_readWord ha s

/-- Settles O51: the body computes the phases of the command, and the completion writes free words to the words left
unspecified and to no others. -/
theorem disturbedBufferIsUnspecified : Obligations.DisturbedBufferIsUnspecified := by
  unfold Obligations.DisturbedBufferIsUnspecified
  intro i s g p htouches h hstage
  obtain ⟨u, hu⟩ := h.body_total hstage
  have hframe := bodyOf_frame hu
  obtain ⟨k, hk, hkept⟩ := hframe.engines s.active g h.engine
  have hspoilt : k.spoilt = g.spoilt := (hkept.quiet (beq_self_eq_true _)).2
  have hown : u.engines[u.active]? = some k := hframe.active ▸ hk
  refine ⟨_, h.checked.exec_completes htouches hstage hu, fun hs a hlo hhi => ?_,
    fun o ho hdone a ha₁ ha₂ hlo hhi => ?_, fun hs => ⟨u.mem, h.checked.body_chain htouches hstage hu, fun a ha => ?_⟩⟩
  · exact State.settle_free hown (Engine.mem_unspecifiedWords_of_spoilt (hspoilt.trans hs) hlo hhi)
  · exact State.settle_free hown
      (Engine.mem_unspecifiedWords_of_overlap (hkept.overlaps ▸ ho) hdone ⟨ha₁, ha₂⟩ hlo hhi)
  · exact State.settle_readWord hown (hspoilt.trans hs) (hkept.overlaps ▸ ha) _ _

end Sys2Proof.Machine
end

section
/-! PROOF. The register block (10_state.md): the bits of `STATUS` (O41), reads (O42), writes that are ignored (O44),
the configuration registers (O48), and the acceptance of a command with the overlaps it finds (O45, O46). -/

namespace Sys2Proof.Machine

open Sys2Proof Sys2Proof.Claims

/-! ### `STATUS` -/

/-- The terms of `STATUS` occupy separate bits, which leaves bits 3:2 clear (R25). -/
theorem statusBits_fields : ∀ (valid busy sticky hazard : Bool) (code : BitVec 4),
    let w := BitVec.ofNat 32
      (valid.toNat + 2 * busy.toNat + 16 * code.toNat + 256 * sticky.toNat + 512 * hazard.toNat)
    w.getLsbD 0 = valid ∧ w.getLsbD 1 = busy ∧ w.getLsbD 2 = false ∧ w.getLsbD 3 = false
      ∧ w.extractLsb' 4 4 = code ∧ w.getLsbD 8 = sticky ∧ w.getLsbD 9 = hazard := by
  decide

theorem Engine.statusWord_toNat_lt (g : Engine) : g.statusWord.toNat < 2 ^ 10 := by
  have hcode := g.result.code.isLt
  have hvalid := g.initValid.toNat_le
  have hbusy := g.busy.toNat_le
  have hsticky := g.errSticky.toNat_le
  have hhazard := g.hazard.toNat_le
  unfold Engine.statusWord
  rw [BitVec.toNat_ofNat]
  omega

/-- The bits from 10 up of `STATUS` read 0 (R25). -/
theorem Engine.statusWord_getLsbD_high (g : Engine) {n : Nat} (hn : 10 ≤ n) : g.statusWord.getLsbD n = false :=
  Nat.testBit_lt_two_pow (g.statusWord_toNat_lt.trans_le (Nat.pow_le_pow_right (by decide) hn))

/-- Settles O41: the low ten bits by the places of the terms, the others by the size of their sum. -/
theorem statusWordFields : Obligations.StatusWordFields := by
  unfold Obligations.StatusWordFields
  refine ⟨fun g => ?_, rfl, rfl, rfl, rfl, rfl, rfl⟩
  obtain ⟨hvalid, hbusy, h2, h3, hcode, hsticky, hhazard⟩ :=
    statusBits_fields g.initValid g.busy g.errSticky g.hazard g.result.code
  exact ⟨hvalid, hbusy, h2, h3, hcode, hsticky, hhazard, fun _ => g.statusWord_getLsbD_high⟩

/-! ### Reads, and writes other than of `CMD` -/

section Registers
variable {s : State} {e : Nat} {g : Engine} {rest : List Action}

/-- A scheduled read answers the value of the register and changes nothing else (R34). -/
theorem step_get_of_engine {r : RegName} (hg : s.engines[e]? = some g) (hs : s.schedule = .get e r :: rest) :
    step s = .next { s with schedule := rest, hostData := g.readReg r } := by
  rw [step_of_get hs]
  exact State.readReg_of_engine (s := { s with schedule := rest }) hg r

/-- A write of `BUF_BASE` while idle changes that register (R26). -/
theorem State.writeReg_bufBase_idle (hg : s.engines[e]? = some g) (hidle : g.pending = none) (v : Word) :
    s.writeReg e .bufBase v = .next (s.modifyEngine e (fun h => { h with bufBase := v })) := by
  simp [State.writeReg, hg, Engine.busy, hidle]

/-- A write of `REQ_LEN` while idle changes that register (R27). -/
theorem State.writeReg_reqLen_idle (hg : s.engines[e]? = some g) (hidle : g.pending = none) (v : Word) :
    s.writeReg e .reqLen v = .next (s.modifyEngine e (fun h => { h with reqLen := v })) := by
  simp [State.writeReg, hg, Engine.busy, hidle]

/-- A `CMD` write while idle is accepted (R24). -/
theorem State.writeReg_cmd_idle (hg : s.engines[e]? = some g) (hidle : g.pending = none) (v : Word) :
    s.writeReg e .cmd v = .next (s.acceptCommand e v g) := by
  simp [State.writeReg, hg, Engine.busy, hidle]

theorem State.modifyEngine_engine_same {f : Engine → Engine} (hg : s.engines[e]? = some g) :
    (s.modifyEngine e f).engines[e]? = some (f g) := by
  simp [hg]

end Registers

/-- Settles O42: each row lists the value of `Engine.readReg` for its register. -/
theorem registerReads : Obligations.RegisterReads := by
  unfold Obligations.RegisterReads
  intro s e rest g hg row hrow hs
  have hvalue : row.2 = g.readReg row.1 := by
    simp only [List.mem_cons, List.not_mem_nil, or_false] at hrow
    rcases hrow with rfl | rfl | rfl | rfl | rfl | rfl | rfl | rfl | rfl | rfl <;> rfl
  rw [step_get_of_engine hg hs, hvalue]

/-- Settles O44: the read-only registers are none of the three a write can reach. -/
theorem readOnlyWritesAreIgnored : Obligations.ReadOnlyWritesAreIgnored := by
  unfold Obligations.ReadOnlyWritesAreIgnored
  intro s e rest g v r hg hr hs
  have hreadOnly : ∀ r ∈ [RegName.status, .fftLen, .descFlags, .twidMod, .bitrevMod, .oneByFftLen],
      r ∉ [RegName.cmd, .bufBase, .reqLen] := by decide
  rw [step_of_set hs]
  exact State.writeReg_ignored (s := { s with schedule := rest }) hg (hreadOnly r hr) v

/-- Settles O48: the write changes the one register, and the read finds it there. -/
theorem configurationRegistersReadBack : Obligations.ConfigurationRegistersReadBack := by
  unfold Obligations.ConfigurationRegistersReadBack
  intro s e rest g v hg hidle
  refine ⟨fun hs => ⟨_, rfl, ?_, fun later hlater => ?_⟩, fun hs => ⟨_, rfl, ?_, fun later hlater => ?_⟩⟩
  · rw [step_of_set hs]
    exact State.writeReg_bufBase_idle (s := { s with schedule := rest }) hg hidle v
  · exact step_get_of_engine (s := { s.modifyEngine e (fun h => { h with bufBase := v }) with schedule := rest })
      (State.modifyEngine_engine_same hg) hlater
  · rw [step_of_set hs]
    exact State.writeReg_reqLen_idle (s := { s with schedule := rest }) hg hidle v
  · exact step_get_of_engine (s := { s.modifyEngine e (fun h => { h with reqLen := v }) with schedule := rest })
      (State.modifyEngine_engine_same hg) hlater

/-! ### Accepting a command -/

section Accept
variable {s : State} {e : Nat} {g : Engine} {rest : List Action}

theorem step_cmd_of_idle {v : Word} (hg : s.engines[e]? = some g) (hidle : g.pending = none)
    (hs : s.schedule = .set e .cmd v :: rest) :
    step s = .next (State.acceptCommand e v g { s with schedule := rest }) := by
  rw [step_of_set hs]
  exact State.writeReg_cmd_idle (s := { s with schedule := rest }) hg hidle v

/-- The engine whose command was accepted. -/
theorem State.acceptCommand_engine_same (v : Word) (hg : s.engines[e]? = some g) :
    (s.acceptCommand e v g).engines[e]?
      = some ((g.latch v).accepted (s.overlapEntries e ((g.latch v).owned s.params.memWords))) := by
  rw [State.acceptCommand_engine, hg, Option.map_some, if_pos rfl]

/-- Where no other engine is busy there is no overlap (R161). -/
theorem State.overlapEntries_of_others_idle
    (hothers : ∀ k h, k ≠ e → s.engines[k]? = some h → h.pending = none) (mine : Option (Nat × Nat)) :
    s.overlapEntries e mine = [] := by
  refine List.eq_nil_iff_forall_not_mem.2 fun o ho => ?_
  obtain ⟨h, r, hh, hr, -⟩ := State.mem_overlapEntries.1 ho
  rw [State.overlapWith_of_idle s e mine o.partner fun hk => hothers _ _ hk hh] at hr
  cases hr

/-- Where no other engine is busy an accepted command is latched and nothing else happens (R24, R36). -/
theorem State.acceptCommand_of_others_idle (v : Word) (hg : s.engines[e]? = some g)
    (hothers : ∀ k h, k ≠ e → s.engines[k]? = some h → h.pending = none) :
    s.acceptCommand e v g = { s with
      engines := s.engines.modify e (fun h =>
        { h with
          pending := some { cmd := v, base := h.bufBase, req := h.reqLen }
          spoilt := false
          overlaps := [] }) } := by
  have hengines : (s.acceptCommand e v g).engines = s.engines.modify e (fun h =>
      { h with
        pending := some { cmd := v, base := h.bufBase, req := h.reqLen }
        spoilt := false
        overlaps := [] }) := by
    refine List.ext_getElem? fun k => ?_
    by_cases hk : k = e
    · subst hk
      rw [State.acceptCommand_engine_same v hg, State.overlapEntries_of_others_idle hothers]
      simp [hg, Engine.accepted, Engine.latch]
    · rw [State.acceptCommand_engine, List.getElem?_modify]
      cases hh : s.engines[k]? with
      | none => rfl
      | some h =>
        simp [hk, Ne.symm hk, State.overlapWith_of_idle s e _ k fun hk => hothers k h hk hh]
  exact congrArg (fun gs => { s with engines := gs }) hengines

end Accept

/-- Settles O45: the accepted engine is its latched copy with the overlaps found, of which there are none where no
other engine is busy. -/
theorem idleCommandWriteLatches : Obligations.IdleCommandWriteLatches := by
  unfold Obligations.IdleCommandWriteLatches
  intro s e rest g v hg hidle hs
  have hstep := step_cmd_of_idle hg hidle hs
  refine ⟨⟨_, _, hstep, State.acceptCommand_engine_same (s := { s with schedule := rest }) v hg, rfl, rfl,
    ⟨rfl, rfl, rfl, rfl, rfl, rfl, rfl, rfl, rfl⟩, rfl, rfl, rfl, rfl, ?_, rfl, rfl, rfl, rfl, rfl, rfl⟩, ?_⟩
  · exact List.length_mapIdx
  · intro hothers
    rw [hstep]
    exact congrArg _ (State.acceptCommand_of_others_idle (s := { s with schedule := rest }) v hg
      fun k h hk hh => hothers k h hk hh)

/-! ### What an engine owns -/

/-- The commands that touch the buffer are all but `INIT` (R42). -/
theorem Instr.touchesBuffer_iff (i : Instr) : i.touchesBuffer = true ↔ ∀ ifft bitrev, i ≠ .init ifft bitrev := by
  cases i <;> simp [Instr.touchesBuffer]

theorem Engine.owned_iff_ownsRange (memWords : Nat) (g : Engine) (lo hi : Nat) :
    g.owned memWords = some (lo, hi) ↔ ownsRange memWords g lo hi := by
  rw [Engine.owned_eq_some]
  unfold ownsRange
  simp only [Instr.touchesBuffer_iff, Engine.bufferCheck_ok, Prod.mk.injEq, and_assoc]
  rfl

/-! ### The overlaps found -/

/-- Two ranges that hold the same words, and some, are one range. -/
theorem range_eq_of_same_members {lo hi lo' hi' : Nat} (hlt : lo < hi) (hlt' : lo' < hi')
    (h : ∀ a, (lo ≤ a ∧ a < hi) ↔ (lo' ≤ a ∧ a < hi')) : lo = lo' ∧ hi = hi' := by
  have h1 := h lo
  have h2 := h lo'
  have h3 := h (hi - 1)
  have h4 := h (hi' - 1)
  omega

section Overlaps
variable {s : State} {e k : Nat} {g h : Engine}

/-- The overlap found with another engine is exactly the range of the words both own (R161). -/
theorem State.overlapWith_eq_some_iff (hk : k ≠ e) (o : Overlap) :
    s.overlapWith e (g.owned s.params.memWords) k h = some (o.lo, o.hi) ↔ listsShared s.params.memWords g h o := by
  have hspec := State.overlapWith_spec s hk g h
  unfold listsShared
  cases hr : s.overlapWith e (g.owned s.params.memWords) k h with
  | none =>
    rw [hr] at hspec
    exact ⟨nofun, fun ⟨hlt, hall⟩ => absurd ((hall o.lo).1 ⟨le_refl _, hlt⟩) (hspec o.lo)⟩
  | some r =>
    rw [hr] at hspec
    obtain ⟨hlt, hall⟩ := hspec
    constructor
    · rintro ⟨⟩
      exact ⟨hlt, hall⟩
    · rintro ⟨hlt', hall'⟩
      obtain ⟨h1, h2⟩ := range_eq_of_same_members hlt hlt' fun a => (hall a).trans (hall' a).symm
      rw [← h1, ← h2]

/-- There is an overlap exactly where the two share a word (R161). -/
theorem State.overlapWith_ne_none_iff (hk : k ≠ e) :
    (∃ r, s.overlapWith e (g.owned s.params.memWords) k h = some r) ↔ shareWord s.params.memWords g h := by
  have hspec := State.overlapWith_spec s hk g h
  unfold shareWord
  cases hr : s.overlapWith e (g.owned s.params.memWords) k h with
  | none =>
    rw [hr] at hspec
    exact ⟨nofun, fun ⟨a, ha⟩ => absurd ha (hspec a)⟩
  | some r =>
    rw [hr] at hspec
    exact ⟨fun _ => ⟨r.1, (hspec.2 r.1).1 ⟨le_refl _, hspec.1⟩⟩, fun _ => ⟨r, rfl⟩⟩

/-- The entries of a new command: one for each engine it shares words with, that engine's command not yet over. -/
theorem State.mem_overlapEntries_iff (o : Overlap) :
    o ∈ s.overlapEntries e (g.owned s.params.memWords) ↔ o.partnerDone = false ∧ o.partner ≠ e
      ∧ ∃ h, s.engines[o.partner]? = some h ∧ listsShared s.params.memWords g h o := by
  rw [State.mem_overlapEntries]
  constructor
  · rintro ⟨h, r, hh, hr, ho⟩
    have hk : o.partner ≠ e := fun hk => by simp [State.overlapWith, hk] at hr
    have hdone : o.partnerDone = false := by rw [ho]
    have hends : (o.lo, o.hi) = r := by rw [ho]
    exact ⟨hdone, hk, h, hh, (State.overlapWith_eq_some_iff hk o).1 (hends ▸ hr)⟩
  · rintro ⟨hdone, hk, h, hh, hshared⟩
    exact ⟨h, _, hh, (State.overlapWith_eq_some_iff hk o).2 hshared, by rw [← hdone]⟩

/-- There are entries exactly where the new command shares a word with some other engine (R161). -/
theorem State.overlapEntries_isEmpty_iff :
    (s.overlapEntries e (g.owned s.params.memWords)).isEmpty = false ↔
      ∃ k h, k ≠ e ∧ s.engines[k]? = some h ∧ shareWord s.params.memWords g h := by
  rw [List.isEmpty_eq_false_iff_exists_mem]
  constructor
  · rintro ⟨o, ho⟩
    obtain ⟨-, hk, h, hh, hshared⟩ := State.mem_overlapEntries_iff o |>.1 ho
    exact ⟨_, h, hk, hh, (State.overlapWith_ne_none_iff hk).1 ⟨_, (State.overlapWith_eq_some_iff hk o).2 hshared⟩⟩
  · rintro ⟨k, h, hk, hh, hshare⟩
    obtain ⟨r, hr⟩ := (State.overlapWith_ne_none_iff (s := s) hk).2 hshare
    exact ⟨{ partner := k, lo := r.1, hi := r.2, partnerDone := false }, State.mem_overlapEntries.2 ⟨h, r, hh, hr, rfl⟩⟩

end Overlaps

/-- What an accepted command makes of another engine: `HAZARD` and one entry where the two share words (R161). -/
theorem State.acceptCommand_other {s : State} {e k : Nat} {g h : Engine} (v : Word) (hk : k ≠ e)
    (hh : s.engines[k]? = some h) :
    ∃ h', (s.acceptCommand e v g).engines[k]? = some h' ∧ h.onlyHazard h' ∧ h'.spoilt = h.spoilt
      ∧ (h'.hazard = true ↔ h.hazard = true ∨ shareWord s.params.memWords (g.latch v) h)
      ∧ ∀ o, o ∈ h'.overlaps ↔ o ∈ h.overlaps
          ∨ (o.partnerDone = false ∧ o.partner = e ∧ listsShared s.params.memWords (g.latch v) h o) := by
  have hengine := State.acceptCommand_engine e v g s k
  rw [hh, Option.map_some, if_neg hk] at hengine
  have hshare := State.overlapWith_ne_none_iff (s := s) (g := g.latch v) (h := h) hk
  have hlists := State.overlapWith_eq_some_iff (s := s) (g := g.latch v) (h := h) hk
  cases hr : s.overlapWith e ((g.latch v).owned s.params.memWords) k h with
  | none =>
    simp only [hr, reduceCtorEq, exists_false, false_iff] at hengine hshare hlists
    refine ⟨h, hengine, ⟨⟨rfl, rfl, rfl, rfl, rfl, rfl, rfl, rfl, rfl⟩, rfl, rfl, rfl, rfl, id⟩, rfl, ?_, ?_⟩
    · simp [hshare]
    · simp [hlists]
  | some r =>
    simp only [hr, Option.some.injEq, exists_eq', true_iff] at hengine hshare hlists
    refine ⟨h.met e r, hengine, ⟨⟨rfl, rfl, rfl, rfl, rfl, rfl, rfl, rfl, rfl⟩, rfl, rfl, rfl, rfl, fun _ => rfl⟩,
      rfl, ?_, ?_⟩
    · simp [Engine.met, hshare]
    · rintro ⟨partner, lo, hi, done⟩
      rw [← hlists, Engine.met_overlaps, List.mem_cons, or_comm]
      simp only [Overlap.mk.injEq, Prod.ext_iff]
      exact or_congr_right ⟨fun ⟨h₁, h₂, h₃, h₄⟩ => ⟨h₄, h₁, h₂.symm, h₃.symm⟩,
        fun ⟨h₁, h₂, h₃, h₄⟩ => ⟨h₂, h₃.symm, h₄.symm, h₁⟩⟩

/-- The hazard bookkeeping of an accepted command has no part in what the engine owns (R42). -/
@[simp] theorem Engine.ownsWord_accepted (memWords a : Nat) (entries : List Overlap) (g : Engine) :
    (g.accepted entries).ownsWord memWords a = g.ownsWord memWords a := Engine.ownsWord_congr rfl rfl rfl memWords a

@[simp] theorem shareWord_accepted (memWords : Nat) (entries : List Overlap) (g h : Engine) :
    shareWord memWords (g.accepted entries) h ↔ shareWord memWords g h := by
  simp [shareWord]

@[simp] theorem listsShared_accepted (memWords : Nat) (entries : List Overlap) (g h : Engine) (o : Overlap) :
    listsShared memWords (g.accepted entries) h o ↔ listsShared memWords g h o := by
  simp [listsShared]

/-- Settles O46: what an engine owns by the checks of its command, and the overlaps of an accepted command by the
ranges of the words shared. -/
theorem overlappingBuffersSetBothHazards : Obligations.OverlappingBuffersSetBothHazards := by
  unfold Obligations.OverlappingBuffersSetBothHazards
  refine ⟨fun memWords g => ⟨g.owned_iff_ownsRange memWords, fun a => ?_⟩, fun s who a => State.foreign_eq_true, ?_⟩
  · simp only [Engine.ownsWord_eq_true, Engine.owned_iff_ownsRange]
  · intro s e rest g v hg hidle hs
    refine ⟨_, _, step_cmd_of_idle hg hidle hs,
      State.acceptCommand_engine_same (s := { s with schedule := rest }) v hg, rfl, rfl, ?_, ?_, ?_⟩
    · rw [Engine.accepted_hazard, Bool.or_eq_true, Bool.not_eq_true', State.overlapEntries_isEmpty_iff]
      simp only [shareWord_accepted]
      rfl
    · intro o
      simp only [Engine.accepted_overlaps, State.mem_overlapEntries_iff, listsShared_accepted]
    · intro k g' hk hg'
      simp only [shareWord_accepted, listsShared_accepted]
      exact State.acceptCommand_other (s := { s with schedule := rest }) v hk hg'

end Sys2Proof.Machine
end

section
/-! PROOF. The host's access to the data memory and the bus (20_memory.md): the words read and written and the engines
disturbed (O49, O50, O52, O53), and the reset of an engine (O54, O55). -/

namespace Sys2Proof.Machine

open Sys2Proof Sys2Proof.Claims

/-! ### Words and their bytes -/

/-- A word is its four bytes (R52). -/
theorem Memory.word_ext {v w : Word} (h : ∀ n, n < 4 → byteOf v n = byteOf w n) : v = w := by
  rw [← Memory.wordOf_byteOf v, ← Memory.wordOf_byteOf w, h 0 (by decide), h 1 (by decide), h 2 (by decide),
    h 3 (by decide)]

/-- Settles O52: the byte at `4a + k` is byte `k` of the word, and every other byte has another word. -/
theorem wordsAreLittleEndian : Obligations.WordsAreLittleEndian := by
  unfold Obligations.WordsAreLittleEndian
  refine fun m a v => ⟨fun k hk => ?_, fun b hb => ?_⟩
  · rw [Memory.readByte_writeWord, if_pos (by omega), show (4 * a + k) % 4 = k by omega]
    rfl
  · rw [Memory.readByte_writeWord, if_neg (by omega)]

/-! ### The engines an access disturbs -/

theorem State.intrude_eq_disturbed (who : Option Nat) (a : Nat) (isWrite : Bool) (s : State) :
    s.intrude who a isWrite = { s with engines := disturbed who a isWrite s } := by
  have hengines : (s.intrude who a isWrite).engines = disturbed who a isWrite s := by
    refine List.ext_getElem? fun k => ?_
    unfold disturbed
    rw [State.intrude_engine, List.getElem?_mapIdx]
    simp only [and_comm]
    rfl
  exact congrArg (fun gs => { s with engines := gs }) hengines

theorem disturbed_of_not_foreign {who : Option Nat} {a : Nat} {s : State} (isWrite : Bool)
    (h : s.foreign who a = false) : disturbed who a isWrite s = s.engines := by
  have hsame := State.intrude_of_not_foreign isWrite h
  rw [State.intrude_eq_disturbed] at hsame
  exact congrArg State.engines hsame

/-- To a host every owned word is foreign (R162). -/
theorem State.foreign_none_iff_owned {s : State} {a : Nat} : s.foreign none a = true ↔ owned s a := by
  constructor
  · intro hforeign
    obtain ⟨k, g, hg, -, howns⟩ := State.foreign_eq_true.1 hforeign
    exact ⟨g, List.mem_of_getElem? hg, howns⟩
  · rintro ⟨g, hg, howns⟩
    obtain ⟨k, hk⟩ := List.mem_iff_getElem?.1 hg
    exact State.foreign_eq_true.2 ⟨k, g, hk, nofun, howns⟩

/-! ### Host reads -/

/-- The word a host read answers: of a foreign word none of the bytes are seen (R162, R173). -/
def State.hostValue (b width : Nat) (s : State) : Word :=
  if s.foreign none (b / 4) then Memory.readBytes [] (Config.freeWord s.freeCount) b width
  else Memory.readBytes s.mem (Config.freeWord s.freeCount) b width

section HostRead
variable {s : State} {b width : Nat}

theorem State.hostRead_eq (hb : b / 4 < s.params.memWords) :
    s.hostRead b width = .next { s with
      engines := disturbed none (b / 4) false s, hostData := s.hostValue b width, freeCount := s.freeCount + 1 } := by
  simp only [State.hostRead, if_pos hb, State.intrude_eq_disturbed, State.hostValue]

/-- A byte of an owned word is read as one of a free word (R162). -/
theorem State.byteOf_hostValue_of_owned {n : Nat} (howned : owned s (b / 4)) (hn : n < 4) :
    byteOf (s.hostValue b width) n = if n < width then byteOf (Config.freeWord s.freeCount) n else 0 := by
  rw [State.hostValue, if_pos (State.foreign_none_iff_owned.2 howned), Memory.byteOf_readBytes _ _ _ _ hn]
  rfl

/-- A byte of a word nobody owns is read as it is, or as one of a free word where nothing was written (R46, R173). -/
theorem State.byteOf_hostValue_of_not_owned {n : Nat} (howned : ¬ owned s (b / 4)) (hn : n < 4) :
    byteOf (s.hostValue b width) n =
      if n < width then (Memory.readByte s.mem (b + n)).getD (byteOf (Config.freeWord s.freeCount) n) else 0 := by
  rw [State.hostValue, if_neg (fun h => howned (State.foreign_none_iff_owned.1 h)), Memory.byteOf_readBytes _ _ _ _ hn]

end HostRead

section HostReadWord
variable {s : State} {a : Nat}

theorem State.hostValue_word_of_owned (howned : owned s a) :
    s.hostValue (4 * a) 4 = Config.freeWord s.freeCount :=
  Memory.word_ext fun n hn => by
    rw [State.byteOf_hostValue_of_owned (by rwa [Nat.mul_div_cancel_left a (by decide)]) hn, if_pos hn]

theorem State.hostValue_word_of_readWord {w : Word} (howned : ¬ owned s a) (hw : Memory.readWord s.mem a = some w) :
    s.hostValue (4 * a) 4 = w :=
  Memory.word_ext fun n hn => by
    rw [State.byteOf_hostValue_of_not_owned (by rwa [Nat.mul_div_cancel_left a (by decide)]) hn, if_pos hn,
      Memory.readByte_of_readWord hw hn]
    rfl

theorem State.hostValue_word_of_unwritten (howned : ¬ owned s a)
    (hnone : ∀ n, n < 4 → Memory.readByte s.mem (4 * a + n) = none) :
    s.hostValue (4 * a) 4 = Config.freeWord s.freeCount :=
  Memory.word_ext fun n hn => by
    rw [State.byteOf_hostValue_of_not_owned (by rwa [Nat.mul_div_cancel_left a (by decide)]) hn, if_pos hn, hnone n hn]
    rfl

end HostReadWord

/-! ### Host writes -/

section HostWrite
variable {s : State}

/-- A fill is a change of the memory, with one free word at most (R173). -/
theorem State.fillWord_freeCount (a : Nat) (s : State) :
    (s.fillWord a).freeCount = s.freeCount ∨ (s.fillWord a).freeCount = s.freeCount + 1 := by
  unfold State.fillWord
  split
  · exact .inl rfl
  · exact .inr rfl

theorem State.fillWord_eq_self_with (a : Nat) (s : State) :
    s.fillWord a = { s with mem := (s.fillWord a).mem, freeCount := (s.fillWord a).freeCount } := by
  unfold State.fillWord
  split <;> rfl

/-- A host write within a word: its bytes are written, and the other bytes of the word hold what they held or a byte
of a free word (R52, R162). -/
theorem State.hostWrite_bytes {b width : Nat} (v : Word) (hb : b / 4 < s.params.memWords)
    (hwithin : b % 4 + width ≤ 4) :
    ∃ m c, s.hostWrite b width v = .next { s with
        engines := disturbed none (b / 4) true s, mem := m, freeCount := c }
      ∧ (c = s.freeCount ∨ c = s.freeCount + 1)
      ∧ ∀ x, Memory.readByte m x =
          if b ≤ x ∧ x < b + width then some (byteOf v (x - b))
          else if x / 4 = b / 4 then
            some ((Memory.readByte s.mem x).getD (byteOf (Config.freeWord s.freeCount) (x % 4)))
          else Memory.readByte s.mem x := by
  unfold State.hostWrite
  rw [if_pos hb, State.intrude_eq_disturbed]
  by_cases hwidth : width < 4
  · simp only [if_pos hwidth]
    rw [State.fillWord_eq_self_with]
    refine ⟨_, _, rfl, State.fillWord_freeCount _ _, fun x => ?_⟩
    rw [Memory.readByte_writeBytes, State.fillWord_readByte]
  · simp only [if_neg hwidth]
    refine ⟨_, _, rfl, .inl rfl, fun x => ?_⟩
    rw [Memory.readByte_writeBytes]
    by_cases hx : b ≤ x ∧ x < b + width
    · simp only [if_pos hx]
    · rw [if_neg hx, if_neg hx, if_neg (by omega)]

theorem State.hostWrite_word {a : Nat} (v : Word) (ha : a < s.params.memWords) :
    s.hostWrite (4 * a) 4 v = .next { s with
      engines := disturbed none a true s, mem := Memory.writeWord s.mem a v } := by
  simp only [State.hostWrite, Nat.mul_div_cancel_left a (by decide : 0 < 4), if_pos ha, State.intrude_eq_disturbed]
  rfl

theorem State.hostRead_word {a : Nat} (ha : a < s.params.memWords) :
    s.hostRead (4 * a) 4 = .next { s with
      engines := disturbed none a false s, hostData := s.hostValue (4 * a) 4, freeCount := s.freeCount + 1 } := by
  have hdiv : 4 * a / 4 = a := Nat.mul_div_cancel_left a (by decide)
  rw [State.hostRead_eq (by rwa [hdiv]), hdiv]

end HostWrite

/-! ### The moves -/

section Moves
variable {s : State} {a : Nat} {rest : List Action}

theorem step_memw (v : Word) (ha : a < s.params.memWords) (hs : s.schedule = .memw a v :: rest) :
    step s = .next { s with
      schedule := rest, engines := disturbed none a true s, mem := Memory.writeWord s.mem a v } :=
  (step_of_move hs).trans (State.hostWrite_word (s := { s with schedule := rest }) v ha)

theorem step_memr (ha : a < s.params.memWords) (hs : s.schedule = .memr a :: rest) :
    step s = .next { s with
      schedule := rest, engines := disturbed none a false s, hostData := s.hostValue (4 * a) 4,
      freeCount := s.freeCount + 1 } :=
  (step_of_move hs).trans (State.hostRead_word (s := { s with schedule := rest }) ha)

end Moves

/-- Settles O49: nobody is disturbed, so the read finds the word just written. -/
theorem hostWordReadsBack : Obligations.HostWordReadsBack := by
  unfold Obligations.HostWordReadsBack
  intro s a v rest ha hforeign hs
  have hwrite := step_memw v ha hs
  rw [disturbed_of_not_foreign true hforeign] at hwrite
  let t : State := { s with schedule := .memr a :: rest, mem := Memory.writeWord s.mem a v }
  have hforeign' : t.foreign none a = false := hforeign
  have hread := step_memr (s := t) ha rfl
  rw [disturbed_of_not_foreign false hforeign', State.hostValue_word_of_readWord
    (fun howned => by simp [State.foreign_none_iff_owned.2 howned] at hforeign')
    (Memory.readWord_writeWord_same s.mem a v)] at hread
  exact ⟨t, _, hwrite, hread, rfl, rfl, rfl⟩

/-- An engine's read of a word another engine owns gives a free word (R162). -/
theorem State.engineRead_of_foreign {s : State} {e a : Nat} {w : Word} (hw : Memory.readWord s.mem a = some w)
    (hforeign : s.foreign (some e) a = true) :
    s.engineRead e a = .ok (Config.freeWord s.freeCount,
      { s with engines := disturbed (some e) a false s, freeCount := s.freeCount + 1 }) := by
  simp only [State.engineRead, hw, if_pos hforeign, State.intrude_eq_disturbed]

/-- Settles O50: a host read and write by what they read and write, an engine's by whether the word is foreign to it.
-/
theorem ownedWordAccessSetsHazard : Obligations.OwnedWordAccessSetsHazard := by
  unfold Obligations.OwnedWordAccessSetsHazard
  refine ⟨fun s a rest ha hs => ⟨_, step_memr ha hs, State.hostValue_word_of_owned,
    fun howned _ => State.hostValue_word_of_readWord howned, State.hostValue_word_of_unwritten⟩,
    fun s a v rest ha hs => step_memw v ha hs, fun s e a w hw => ⟨?_, fun hnone => ?_⟩, fun s e a v => ?_⟩
  · rintro ⟨k, g, hk, hg, howns⟩
    exact State.engineRead_of_foreign hw
      (State.foreign_eq_true.2 ⟨k, g, hg, fun h => hk (Option.some.inj h).symm, howns⟩)
  · refine State.engineRead_alone hw (Bool.eq_false_iff.2 fun hforeign => ?_)
    obtain ⟨k, g, hg, hk, howns⟩ := State.foreign_eq_true.1 hforeign
    simp [hnone k g (fun h => hk (congrArg some h.symm)) hg] at howns
  · rw [State.engineWrite_eq, State.intrude_eq_disturbed]

/-! ### The bus -/

/-- The first block that holds the address is found, by its place among the engines (R57). -/
theorem findBlock_eq_some {addr base : Nat} (hlo : base ≤ addr) (hhi : addr < base + 64) :
    ∀ {bases : List Nat} {e : Nat} (start : Nat), bases[e]? = some base →
      (∀ k other, k < e → bases[k]? = some other → ¬ (other ≤ addr ∧ addr < other + 64)) →
      findBlock addr bases start = some (start + e, addr - base)
  | [], _, _, hbase, _ => nomatch hbase
  | first :: _, 0, _, hbase, _ => by
    obtain rfl : first = base := Option.some.inj hbase
    exact if_pos ⟨hlo, hhi⟩
  | first :: bases, e + 1, start, hbase, hbefore => by
    rw [findBlock, if_neg (hbefore 0 first (Nat.succ_pos e) rfl),
      findBlock_eq_some hlo hhi (bases := bases) (start + 1) hbase
        fun k other hk hother => hbefore (k + 1) other (Nat.succ_lt_succ hk) hother, Nat.add_right_comm]
    rfl

theorem findBlock_eq_none {addr : Nat} {bases : List Nat}
    (h : ∀ base ∈ bases, ¬ (base ≤ addr ∧ addr < base + 64)) (start : Nat) : findBlock addr bases start = none := by
  induction bases generalizing start with
  | nil => rfl
  | cons base bases ih =>
    rw [findBlock, if_neg (h base List.mem_cons_self)]
    exact ih (fun b hb => h b (List.mem_cons_of_mem _ hb)) _

/-- An address of the data memory lies in it (R57). -/
theorem Params.memory_offset_lt {p : Params} {addr off : Nat} (h : Params.resolve p addr = some (.memory off)) :
    off < 4 * p.memWords := by
  unfold Params.resolve at h
  split at h
  · cases h
  · split at h
    · cases h
      omega
    · cases h

/-- A register access that is not one whole aligned word reaches no register (R34). -/
theorem busRegister_of_bad_shape {off width : Nat} (h : width ≠ 4 ∨ off % 4 ≠ 0) : busRegister off width = none :=
  if_neg (by omega)

theorem busRegister_word (k : Nat) : busRegister (4 * k) 4 = RegName.ofOffset k := by
  rw [busRegister, if_pos ⟨rfl, Nat.mul_mod_right 4 k⟩, Nat.mul_div_cancel_left k (by decide)]

theorem withinWord_of_bad_shape {off width : Nat} (h : width = 0 ∨ 4 < off % 4 + width) :
    withinWord off width = false := decide_eq_false (by omega)

theorem withinWord_of_le {off width : Nat} (hpos : 1 ≤ width) (hwithin : off % 4 + width ≤ 4) :
    withinWord off width = true := decide_eq_true ⟨hpos, hwithin⟩

section Bus
variable {s : State} {addr off width e k : Nat} {v : Word}

theorem State.bus_of_bad_register_shape (hr : Params.resolve s.params addr = some (.register e off))
    (h : width ≠ 4 ∨ off % 4 ≠ 0) :
    s.busWrite addr width v = .fault (.registerAccessShape addr width)
      ∧ s.busRead addr width = .fault (.registerAccessShape addr width) := by
  simp only [State.busWrite, State.busRead, hr, busRegister_of_bad_shape h, and_self]

theorem State.bus_of_bad_memory_shape (hr : Params.resolve s.params addr = some (.memory off))
    (h : width = 0 ∨ 4 < off % 4 + width) :
    s.busWrite addr width v = .fault (.memoryAccessShape addr width)
      ∧ s.busRead addr width = .fault (.memoryAccessShape addr width) := by
  simp [State.busWrite, State.busRead, hr, withinWord_of_bad_shape h]

theorem State.bus_of_unmapped (hr : Params.resolve s.params addr = none) :
    s.busWrite addr width v = .fault (.unmapped addr) ∧ s.busRead addr width = .fault (.unmapped addr) := by
  simp only [State.busWrite, State.busRead, hr, and_self]

theorem State.bus_register {r : RegName} (hr : Params.resolve s.params addr = some (.register e (4 * k)))
    (hoff : RegName.ofOffset k = some r) :
    s.busWrite addr 4 v = s.writeReg e r v ∧ s.busRead addr 4 = s.readReg e r := by
  simp only [State.busWrite, State.busRead, hr, busRegister_word, hoff, and_self]

theorem State.bus_memory (hr : Params.resolve s.params addr = some (.memory off)) (hpos : 1 ≤ width)
    (hwithin : off % 4 + width ≤ 4) :
    s.busWrite addr width v = s.hostWrite off width v ∧ s.busRead addr width = s.hostRead off width := by
  simp only [State.busWrite, State.busRead, hr, withinWord_of_le hpos hwithin, if_true, and_self]

end Bus

/-- A bus move answers as the access it makes. -/
theorem step_of_bus_move {s : State} {addr width : Nat} {v : Word} {rest : List Action} {a : Action}
    {answer : Host.Outcome State Fault Refusal} (ha : a = .busWrite addr width v ∨ a = .busRead addr width)
    (hs : s.schedule = a :: rest)
    (hanswer : State.busWrite addr width v { s with schedule := rest } = answer
      ∧ State.busRead addr width { s with schedule := rest } = answer) : step s = answer := by
  rw [step_of_move hs]
  rcases ha with rfl | rfl
  · exact hanswer.1
  · exact hanswer.2

section BusMemory
variable {s : State} {addr off width : Nat} {rest : List Action}

theorem step_busRead_memory (hr : Params.resolve s.params addr = some (.memory off)) (hpos : 1 ≤ width)
    (hwithin : off % 4 + width ≤ 4) (hs : s.schedule = .busRead addr width :: rest) :
    step s = .next { s with
      schedule := rest, engines := disturbed none (off / 4) false s, hostData := s.hostValue off width,
      freeCount := s.freeCount + 1 } := by
  have hoff : off / 4 < s.params.memWords := by
    have hlt := Params.memory_offset_lt hr
    omega
  rw [step_of_move hs]
  exact ((State.bus_memory (s := { s with schedule := rest }) (v := 0) hr hpos hwithin).2).trans
    (State.hostRead_eq (s := { s with schedule := rest }) hoff)

theorem step_busWrite_memory (v : Word) (hr : Params.resolve s.params addr = some (.memory off)) (hpos : 1 ≤ width)
    (hwithin : off % 4 + width ≤ 4) (hs : s.schedule = .busWrite addr width v :: rest) :
    ∃ m c, step s = .next { s with
        schedule := rest, engines := disturbed none (off / 4) true s, mem := m, freeCount := c }
      ∧ (c = s.freeCount ∨ c = s.freeCount + 1)
      ∧ ∀ x, Memory.readByte m x =
          if off ≤ x ∧ x < off + width then some (byteOf v (x - off))
          else if x / 4 = off / 4 then
            some ((Memory.readByte s.mem x).getD (byteOf (Config.freeWord s.freeCount) (x % 4)))
          else Memory.readByte s.mem x := by
  have hoff : off / 4 < s.params.memWords := by
    have hlt := Params.memory_offset_lt hr
    omega
  obtain ⟨m, c, hwrite, hrest⟩ := State.hostWrite_bytes (s := { s with schedule := rest }) v hoff hwithin
  refine ⟨m, c, ?_, hrest⟩
  rw [step_of_move hs]
  exact ((State.bus_memory (s := { s with schedule := rest }) hr hpos hwithin).1).trans hwrite

end BusMemory

/-- Settles O53: the address map by the search of the blocks, a refused shape by the checks of the bus, and every
other access by the register or memory access it makes. -/
theorem busAccessesWithoutAStep : Obligations.BusAccessesWithoutAStep := by
  unfold Obligations.BusAccessesWithoutAStep
  refine ⟨?_, ?_, rfl, ?_, ?_, ?_, ?_⟩
  · intro p e base addr hbase hlo hhi hbefore
    rw [Params.resolve, findBlock_eq_some hlo hhi 0 hbase hbefore, Nat.zero_add]
  · intro p addr hblocks
    rw [Params.resolve, findBlock_eq_none hblocks]
    exact ⟨fun h => if_pos h, fun h => if_neg h⟩
  · intro s addr width v rest a ha hs
    exact ⟨fun e off hr h => step_of_bus_move ha hs (State.bus_of_bad_register_shape hr h),
      fun off hr h => step_of_bus_move ha hs (State.bus_of_bad_memory_shape hr h),
      fun hr => step_of_bus_move ha hs (State.bus_of_unmapped hr)⟩
  · intro s addr e k r v rest hr hoff
    obtain ⟨hwrite, hread⟩ := State.bus_register (s := { s with schedule := rest }) (v := v) hr hoff
    exact ⟨fun hs => ((step_of_move hs).trans hwrite).trans
        (step_of_set (s := { s with schedule := .set e r v :: rest }) rfl).symm,
      fun hs => ((step_of_move hs).trans hread).trans
        (step_of_get (s := { s with schedule := .get e r :: rest }) rfl).symm⟩
  · intro s addr off width rest hr hpos hwithin hs
    refine ⟨_, step_busRead_memory hr hpos hwithin hs, fun n hwidth hn => ?_, fun howned n hn => ?_,
      fun howned n hn => ?_⟩
    · by_cases howned : owned s (off / 4)
      · exact (State.byteOf_hostValue_of_owned howned hn).trans (if_neg (by omega))
      · exact (State.byteOf_hostValue_of_not_owned howned hn).trans (if_neg (by omega))
    · exact (State.byteOf_hostValue_of_owned howned (by omega)).trans (if_pos hn)
    · exact (State.byteOf_hostValue_of_not_owned howned (by omega)).trans (if_pos hn)
  · intro s addr off width v rest hr hpos hwithin hs
    obtain ⟨m, c, hstep, hc, hbyte⟩ := step_busWrite_memory v hr hpos hwithin hs
    refine ⟨m, c, hstep, hc, fun n hn => ?_, fun b hword hout => ?_, fun b hword => ?_⟩
    · rw [hbyte, if_pos (by omega), Nat.add_sub_cancel_left]
      rfl
    · rw [hbyte, if_neg (by omega), if_pos hword]
      rfl
    · rw [hbyte, if_neg (by omega), if_neg hword]

/-! ### Reset -/

/-- The words an engine's command leaves unspecified when it is abandoned: those it owns (R172). -/
def Engine.abandonedWords (memWords : Nat) (g : Engine) : List Nat :=
  match g.owned memWords with
  | none => []
  | some r => List.range' r.1 (r.2 - r.1)

theorem Engine.abandonedWords_of_none {g : Engine} {memWords : Nat} (h : g.owned memWords = none) :
    g.abandonedWords memWords = [] := by
  rw [Engine.abandonedWords, h]

theorem Engine.mem_abandonedWords {g : Engine} {memWords lo hi a : Nat} (h : g.owned memWords = some (lo, hi)) :
    a ∈ g.abandonedWords memWords ↔ lo ≤ a ∧ a < hi := by
  rw [Engine.abandonedWords, h, List.mem_range'_1]
  omega

section Reset
variable {s : State} {e : Nat} {g : Engine} {rest : List Action}

/-- A reset scrambles the words the engine owned, resets it, and ends its command for the others (R171, R172). -/
theorem step_reset (hg : s.engines[e]? = some g) (hs : s.schedule = .reset e :: rest) :
    step s = .next { State.scramble (g.abandonedWords s.params.memWords) { s with schedule := rest } with
      engines := s.engines.mapIdx (fun j h => if j = e then Engine.reset else h.partnerOver e) } := by
  rw [step_of_move hs]
  simp only [State.move, State.resetEngine, hg, Engine.abandonedWords]
  cases g.owned s.params.memWords with
  | none => rfl
  | some r => simp only [State.scramble_engines]

/-- The engine that was reset, among the engines after the reset (R171). -/
theorem resetEngines_same (hg : s.engines[e]? = some g) :
    (s.engines.mapIdx (fun j h => if j = e then Engine.reset else h.partnerOver e))[e]? = some Engine.reset := by
  simp [hg]

theorem resetEngines_other {k : Nat} {h : Engine} (hk : k ≠ e) (hh : s.engines[k]? = some h) :
    (s.engines.mapIdx (fun j h => if j = e then Engine.reset else h.partnerOver e))[k]? = some (h.partnerOver e) := by
  simp [hh, hk]

end Reset

/-- Settles O54: the reset engine is `Engine.reset`, and the others only learn that its command is over. -/
theorem resetOfAnEngine : Obligations.ResetOfAnEngine := by
  unfold Obligations.ResetOfAnEngine
  intro s e rest g hg hs
  refine ⟨_, _, step_reset hg hs, resetEngines_same hg, rfl, rfl, rfl, rfl, rfl, rfl, rfl, rfl, rfl, rfl, rfl,
    State.scramble_params _ _, fun hnone => ?_, Engine.owned_of_idle rfl _, rfl, rfl, fun k g' hk hg' => ?_⟩
  · rw [Engine.abandonedWords_of_none hnone]
    rfl
  · exact ⟨_, resetEngines_other hk hg',
      ⟨⟨rfl, rfl, rfl, rfl, rfl, rfl, rfl, rfl, rfl⟩, rfl, rfl, rfl, rfl, id⟩, rfl, rfl, rfl⟩

/-- Settles O55: the words scrambled are those of the range owned. -/
theorem resetWhileBusy : Obligations.ResetWhileBusy := by
  unfold Obligations.ResetWhileBusy
  intro s e rest g hg hbusy hs
  refine ⟨_, step_reset hg hs, resetEngines_same hg, fun hnone => ?_,
    fun lo hi howned => ⟨fun b hb => ?_, fun a hlo hhi => ?_⟩⟩
  · rw [Engine.abandonedWords_of_none hnone]
    rfl
  · refine State.scramble_readByte_outside (fun hmem => ?_) _
    rw [Engine.mem_abandonedWords howned] at hmem
    omega
  · exact State.scramble_readWord ((Engine.mem_abandonedWords howned).2 ⟨hlo, hhi⟩) _

end Sys2Proof.Machine
end
